-- ==== Sys2Proof/Word.lean ====
section
/-!
DEFINITION. The word types of the DEFLATE bitstream assembler (spec/00_scope.md R5, R6).
Every number of the spec is unsigned, so nothing here is signed or sign-extended.
-/
namespace Sys2Proof

/-- One byte of the output sequence `OUT` (10_state.md R11). -/
abbrev Byte := BitVec 8

/-- One 64-bit command word (30_encoding.md R70). -/
abbrev Word := BitVec 64

/-- One 16-bit token of the flat symbol stream (00_scope.md R5, 43_huffman_symbols.md R130). -/
abbrev Token := BitVec 16

end Sys2Proof
end

