-- ==== Sys2Proof/Config.lean ====
section
/-!
DEFINITION. The implementation parameters of spec/00_scope.md R5.
The spec fixes every one of them, and its rules read no unspecified value (70_reset_and_hazards.md R239), so there is
no free value and no opaque constant in this model. The one parameter the spec leaves open is `OUT_CAP`
(20_memory.md R51): it is unbounded in the machine of Machine/Step.lean and an argument of the bounded machine of
Machine/Capacity.lean.
-/
namespace Sys2Proof.Config

/-- The least legal width of a bit append (R5, InvalidBitWidth below it). -/
def minWidth : Nat := 1

/-- The greatest legal width of a bit append (R5, InvalidBitWidth above it). -/
def maxWidth : Nat := 32

/-- The number of symbols of the literal/length table `LL` (R5, 10_state.md R24). -/
def llSymbols : Nat := 288

/-- The number of symbols of the distance table `D` (R5, 10_state.md R25). -/
def dSymbols : Nat := 32

/-- The number of symbols of the code-length alphabet: table `CL` and file `CLLEN` (R5, 10_state.md R26, R27). -/
def clSymbols : Nat := 19

end Sys2Proof.Config
end

