-- ==== Sys2Proof/Syntax.lean ====
section
/-!
DEFINITION. The commands of the unit: one constructor for each row of spec/opcode_table.json, with the operand fields of
30_encoding.md R72 to R81 at the widths the formats give them. Operands are immediate unsigned fields (R70).
-/
namespace Sys2Proof

/-- One decoded command. `TBL_LOAD` has three rows in the opcode table, one for each table it can load, and so three
constructors here. The two bit orders are two constructors on purpose (30_encoding.md R86). -/
inductive Instr where
  /-- `PUT_LSB n, value` (40_bitbuffer.md R93). -/
  | putLsb (n : BitVec 6) (value : BitVec 32)
  /-- `PUT_MSB n, value` (40_bitbuffer.md R94). -/
  | putMsb (n : BitVec 6) (value : BitVec 32)
  /-- `ALIGN` (40_bitbuffer.md R95). -/
  | align
  /-- `FINISH` (40_bitbuffer.md R96). -/
  | finish
  /-- `TBL_LOAD LL, sym, code, len` (41_huffman_table.md R110, `t = 0`). -/
  | tblLoadLL (sym : BitVec 16) (code : BitVec 32) (len : BitVec 6)
  /-- `TBL_LOAD D, sym, code, len` (41_huffman_table.md R110, `t = 1`). -/
  | tblLoadD (sym : BitVec 16) (code : BitVec 32) (len : BitVec 6)
  /-- `TBL_LOAD CL, sym, code, len` (41_huffman_table.md R110, `t = 2`). -/
  | tblLoadCL (sym : BitVec 16) (code : BitVec 32) (len : BitVec 6)
  /-- `CLL_SET sym, len3` (41_huffman_table.md R111). -/
  | cllSet (sym : BitVec 5) (len3 : BitVec 3)
  /-- `BLK_HDR bfinal, btype` (46_stream_assembler.md R180). -/
  | blkHdr (bfinal : BitVec 1) (btype : BitVec 2)
  /-- `ST_LEN len, nlen` (42_stored_block.md R120). -/
  | stLen (len nlen : BitVec 16)
  /-- `RAW byte` (42_stored_block.md R121). -/
  | raw (byte : BitVec 8)
  /-- `DYN_HDR hlit, hdist, hclen` (44_dynamic_preamble.md R150). -/
  | dynHdr (hlit hdist : BitVec 5) (hclen : BitVec 4)
  /-- `CLSYM sym, extra` (44_dynamic_preamble.md R152). -/
  | clsym (sym : BitVec 5) (extra : BitVec 7)
  /-- `TOK v` (43_huffman_symbols.md R130). -/
  | tok (v : Token)
  deriving DecidableEq, Repr

/-- The twelve mnemonics of the opcode map (30_encoding.md R82), by which the legality matrix of
46_stream_assembler.md R184 is indexed. -/
inductive Command where
  | putLsb | putMsb | align | finish | tblLoad | cllSet | blkHdr | stLen | raw | dynHdr | clsym | tok
  deriving DecidableEq, Repr

/-- The mnemonic of a command (30_encoding.md R82). -/
def Instr.command : Instr → Command
  | .putLsb _ _ => .putLsb
  | .putMsb _ _ => .putMsb
  | .align => .align
  | .finish => .finish
  | .tblLoadLL _ _ _ => .tblLoad
  | .tblLoadD _ _ _ => .tblLoad
  | .tblLoadCL _ _ _ => .tblLoad
  | .cllSet _ _ => .cllSet
  | .blkHdr _ _ => .blkHdr
  | .stLen _ _ => .stLen
  | .raw _ => .raw
  | .dynHdr _ _ _ => .dynHdr
  | .clsym _ _ => .clsym
  | .tok _ => .tok

end Sys2Proof
end

