-- ==== Sys2Proof/WellFormed.lean ====
section
/-!
DEFINITION. Which operand values a command's own rule accepts (30_encoding.md R83 (d)).
That every field fits its place in the command word is already said by the operand types of Syntax.lean, so every term
of `Instr` has an encoding. What is left to check are the operand ranges: a command whose operands are outside them still
decodes and still runs (R71), and what it then does is to raise the error its rule names.
-/
namespace Sys2Proof

/-- A bit count an append accepts: 1 to 32 (40_bitbuffer.md R93, R94). -/
def widthOk (n : Nat) : Bool := decide (Config.minWidth ≤ n ∧ n ≤ Config.maxWidth)

/-- The operand-range check of a command, as far as it depends on the command alone (60_exceptions.md R208).
`TOK` is accepted whatever its value is, since the range of a token depends on `ld_phase`; the length of a table entry
is checked when the code is used and not when it is loaded (41_huffman_table.md R110). -/
def Instr.wellFormed : Instr → Bool
  | .putLsb n _ => widthOk n.toNat
  | .putMsb n _ => widthOk n.toNat
  | .align => true
  | .finish => true
  | .tblLoadLL sym _ _ => decide (sym.toNat < Config.llSymbols)
  | .tblLoadD sym _ _ => decide (sym.toNat < Config.dSymbols)
  | .tblLoadCL sym _ _ => decide (sym.toNat < Config.clSymbols)
  | .cllSet sym _ => decide (sym.toNat < Config.clSymbols)
  | .blkHdr _ btype => decide (btype ≠ 3#2)
  | .stLen _ _ => true
  | .raw _ => true
  | .dynHdr _ _ _ => true
  | .clsym sym _ => decide (sym.toNat < Config.clSymbols)
  | .tok _ => true

end Sys2Proof
end

