-- ==== Sys2Proof/Decode.lean ====
section
/-!
DEFINITION. Decoding and encoding of the 64-bit command words (30_encoding.md R70 to R83).
A command is one word, fetched whole, so there is no byte order to decide (R70).
-/
namespace Sys2Proof

/-- The field `w[lo+k-1 : lo]` of a command word (00_scope.md R6). -/
def field (w : Word) (lo k : Nat) : BitVec k := w.extractLsb' lo k

/-- A field value put at bit `lo` of an otherwise zero command word. -/
def place (lo : Nat) {k : Nat} (x : BitVec k) : Word := x.setWidth 64 <<< lo

/-- Why a word decodes to no command (30_encoding.md R83 (a), (b), (c)). All three raise IllegalCommand. -/
inductive Illegal where
  /-- (a) bits 63:56 are none of the twelve opcodes. -/
  | reservedOpcode
  /-- (b) a must-be-zero bit of the opcode's format is 1. -/
  | mbzNotZero
  /-- (c) `TBL_LOAD` with `t = 3`. -/
  | reservedTable
  deriving DecidableEq, Repr

/-- A command, provided its must-be-zero bits are zero (R71). -/
def ifZero (mbz : Bool) (i : Instr) : Except Illegal Instr :=
  if mbz then .ok i else .error .mbzNotZero

/-- `decode(w)` of R71: total, and looking at the word alone. -/
def decode (w : Word) : Except Illegal Instr :=
  let op := field w 56 8
  if op = 0x01#8 then -- R72, format P
    ifZero (field w 32 18 == 0#18) (.putLsb (field w 50 6) (field w 0 32))
  else if op = 0x02#8 then -- R72, format P
    ifZero (field w 32 18 == 0#18) (.putMsb (field w 50 6) (field w 0 32))
  else if op = 0x03#8 then -- R73, format Z
    ifZero (field w 0 56 == 0#56) .align
  else if op = 0x04#8 then -- R73, format Z
    ifZero (field w 0 56 == 0#56) .finish
  else if op = 0x10#8 then -- R74, format T
    if field w 54 2 = 0#2 then .ok (.tblLoadLL (field w 32 16) (field w 0 32) (field w 48 6))
    else if field w 54 2 = 1#2 then .ok (.tblLoadD (field w 32 16) (field w 0 32) (field w 48 6))
    else if field w 54 2 = 2#2 then .ok (.tblLoadCL (field w 32 16) (field w 0 32) (field w 48 6))
    else .error .reservedTable
  else if op = 0x11#8 then -- R75, format C
    ifZero (field w 13 43 == 0#43 && field w 3 5 == 0#5) (.cllSet (field w 8 5) (field w 0 3))
  else if op = 0x20#8 then -- R76, format B
    ifZero (field w 3 53 == 0#53) (.blkHdr (field w 0 1) (field w 1 2))
  else if op = 0x21#8 then -- R77, format S
    ifZero (field w 32 24 == 0#24) (.stLen (field w 0 16) (field w 16 16))
  else if op = 0x22#8 then -- R78, format R
    ifZero (field w 8 48 == 0#48) (.raw (field w 0 8))
  else if op = 0x23#8 then -- R79, format D
    ifZero (field w 14 42 == 0#42) (.dynHdr (field w 0 5) (field w 5 5) (field w 10 4))
  else if op = 0x24#8 then -- R80, format E
    ifZero (field w 13 43 == 0#43 && field w 7 1 == 0#1) (.clsym (field w 8 5) (field w 0 7))
  else if op = 0x25#8 then -- R81, format K
    ifZero (field w 16 40 == 0#40) (.tok (field w 0 16))
  else .error .reservedOpcode

/-- The command word of a command, from the format tables of R72 to R81. -/
def encode : Instr → Word
  | .putLsb n value => place 56 0x01#8 ||| place 50 n ||| place 0 value
  | .putMsb n value => place 56 0x02#8 ||| place 50 n ||| place 0 value
  | .align => place 56 0x03#8
  | .finish => place 56 0x04#8
  | .tblLoadLL sym code len => place 56 0x10#8 ||| place 54 0#2 ||| place 48 len ||| place 32 sym ||| place 0 code
  | .tblLoadD sym code len => place 56 0x10#8 ||| place 54 1#2 ||| place 48 len ||| place 32 sym ||| place 0 code
  | .tblLoadCL sym code len => place 56 0x10#8 ||| place 54 2#2 ||| place 48 len ||| place 32 sym ||| place 0 code
  | .cllSet sym len3 => place 56 0x11#8 ||| place 8 sym ||| place 0 len3
  | .blkHdr bfinal btype => place 56 0x20#8 ||| place 1 btype ||| place 0 bfinal
  | .stLen len nlen => place 56 0x21#8 ||| place 16 nlen ||| place 0 len
  | .raw byte => place 56 0x22#8 ||| place 0 byte
  | .dynHdr hlit hdist hclen => place 56 0x23#8 ||| place 10 hclen ||| place 5 hdist ||| place 0 hlit
  | .clsym sym extra => place 56 0x24#8 ||| place 8 sym ||| place 0 extra
  | .tok v => place 56 0x25#8 ||| place 0 v

/-- The command word whose bits below `nbits` are those of `w` and whose bits above are zero. -/
def tableWord (nbits w : Nat) : Word := BitVec.ofNat 64 (w % 2 ^ nbits)

/-- What the decoder reads from the word that spec/opcode_table.json numbers `w`. A command is one 64-bit word, so the
table's numbering is the word's own. -/
def decodeTableWord (nbits w : Nat) : Option Instr :=
  match decode (tableWord nbits w) with
  | .ok i => some i
  | .error _ => none

end Sys2Proof
end

