-- ==== Sys2Proof/Machine/State.lean ====
section
/-!
DEFINITION. The state of one instance of the unit (10_state.md R10) as plain data, its reset value (R34), and the reasons
a step can stop.
-/
namespace Sys2Proof.Machine

/-- The BitBuffer (10_state.md R11 to R13): the only partial-byte state of the unit.
`OUT` is the unit's one memory, byte-addressed from 0 and append-only (20_memory.md R40): byte `a` of `OUT` is element
`a` of the list, and an address at or beyond the length holds no byte. -/
structure BitBuffer where
  /-- `OUT`, the ordered byte sequence (R11). -/
  out : List Byte
  /-- `acc`, the pending-bits accumulator (R12). -/
  acc : BitVec 8
  /-- `nbits`, the number of pending bits (R13). -/
  nbits : BitVec 3
  deriving DecidableEq, Repr

/-- `phase`, which encoder owns the stream (10_state.md R16). Encoding 6 is never taken and has no constructor. -/
inductive Phase where
  | idle | stWait | stData | dynWait | dynCl | huff | done
  deriving DecidableEq, Repr

/-- The five error kinds (60_exceptions.md R200). -/
inductive ErrKind where
  | malformedField | unknownSymbol | invalidBitWidth | postFinishWrite | illegalCommand
  deriving DecidableEq, Repr

/-- The pending LengthDistance group: `ld_phase` together with the latches that hold a value in it (10_state.md R17, R18).
A latch holds a value exactly in the constructors that carry it, which is R18's own condition. -/
inductive LdGroup where
  /-- `ld_phase = 0`: no latch holds a value. -/
  | empty
  /-- `ld_phase = 1`: `ld_lc`. -/
  | lc (ldLc : Token)
  /-- `ld_phase = 2`: `ld_lc`, `ld_le`. -/
  | lcLe (ldLc ldLe : Token)
  /-- `ld_phase = 3`: `ld_lc`, `ld_le`, `ld_dc`. -/
  | lcLeDc (ldLc ldLe ldDc : Token)
  deriving DecidableEq, Repr

/-- The content of a valid code-table entry (10_state.md R24): the bit count and the code, as loaded. -/
structure Entry where
  /-- `len`, 6 bits. -/
  len : BitVec 6
  /-- `code`, 32 bits. -/
  code : BitVec 32
  deriving DecidableEq, Repr

/-- A table indexed by symbol, as the list of its valid entries with their symbols in strictly rising order. An entry's
`valid` bit is 1 iff its symbol is listed (10_state.md R24 to R27); the content of an invalid entry is never read. -/
abbrev Table (α : Type) := List (Nat × α)

/-- The four tables of the unit (10_state.md R24 to R27). -/
structure Tables where
  /-- `LL`, the literal/length codes, symbols 0..287 (R24). -/
  ll : Table Entry
  /-- `D`, the distance codes, symbols 0..31 (R25). -/
  d : Table Entry
  /-- `CL`, the code-length-alphabet codes, symbols 0..18 (R26). -/
  cl : Table Entry
  /-- `CLLEN`, the code-length-alphabet lengths, symbols 0..18 (R27). -/
  cllen : Table (BitVec 3)
  deriving DecidableEq, Repr

/-- Every entry of every table invalid (R34, and after BLK_HDR: 46_stream_assembler.md R182). -/
def Tables.invalid : Tables := { ll := [], d := [], cl := [], cllen := [] }

/-- The state of one instance. The first seven fields are R10's list and nothing else; `input` is the model's own field:
the command words that have arrived and have not been consumed, next first. The spec counts the command stream as an
input of the step and not as state of the unit (R32); a step that is a function of the state alone has to hold it here. -/
structure State where
  /-- `OUT`, `acc`, `nbits` (R11 to R13). -/
  buf : BitBuffer
  /-- `phase` (R16). -/
  phase : Phase
  /-- `ld_phase`, `ld_lc`, `ld_le`, `ld_dc` (R17, R18). -/
  group : LdGroup
  /-- `pc`, the number of commands completed since reset (R20). -/
  pc : BitVec 64
  /-- `err`: none is code 0 (R21). -/
  err : Option ErrKind
  /-- `err_pc` (R22). -/
  errPc : BitVec 64
  /-- `LL`, `D`, `CL`, `CLLEN` (R24 to R27). -/
  tables : Tables
  /-- The pending command stream (R32, R40 (c)): an input, read-only to the commands. -/
  input : List Word
  deriving DecidableEq, Repr

/-- The reasons the machine stops in a stuck state. No command of `exec` or `step` raises one: every error of the unit is
a next state (60_exceptions.md R206). -/
inductive Fault where
  /-- Raised only by `stepWithCap` (Machine/Capacity.lean): a command would append a byte beyond the bound `OUT_CAP`, and
  the bounded unit is stuck (20_memory.md R51). Safe: nothing is written and no further step is claimed. -/
  | outputFull
  deriving DecidableEq, Repr

/-- The reasons a command is given no meaning. -/
inductive Refusal where
  /-- Raised only by an arm of Machine/Dispatch.lean for a command that has no meaning yet; no arm raises it now. Safe. -/
  | notModelled (mnemonic : String)
  /-- Raised by a command that would complete with `pc = 2^64 - 1` and so would need `pc = 2^64`: such an invocation is
  outside the spec and a model refuses it (10_state.md R20, 92_eei_decisions.md D29). Safe: the machine stops. -/
  | pcExhausted
  deriving DecidableEq, Repr

/-- The state right after reset (10_state.md R34, 70_reset_and_hazards.md R230), with no command arrived yet. -/
def State.reset : State :=
  { buf := { out := [], acc := 0, nbits := 0 }
    phase := .idle
    group := .empty
    pc := 0
    err := .none
    errPc := 0
    tables := Tables.invalid
    input := [] }

end Sys2Proof.Machine
end

