-- ==== Sys2Proof/Machine/Ops.lean ====
section
/-!
DEFINITION. The named operations over the state: one update per field, the BitBuffer operations (40_bitbuffer.md R90 to
R95), the table operations (41_huffman_table.md R110 to R112), completing a command (10_state.md R20), taking an error
(60_exceptions.md R206) and reset, the only way out of an error (R209, 70_reset_and_hazards.md R230).
-/
namespace Sys2Proof.Machine

/-- The outcome of a step of this machine. -/
abbrev Outcome := Host.Outcome State Fault Refusal

/-! ### One update per field -/

/-- `s` with another BitBuffer. -/
def State.setBuf (s : State) (b : BitBuffer) : State := { s with buf := b }

/-- `phase <- p`. -/
def State.setPhase (s : State) (p : Phase) : State := { s with phase := p }

/-- `ld_phase` and the latches. -/
def State.setGroup (s : State) (g : LdGroup) : State := { s with group := g }

/-- `pc <- v`. -/
def State.setPc (s : State) (v : BitVec 64) : State := { s with pc := v }

/-- `err <- code of k`. -/
def State.setErr (s : State) (k : ErrKind) : State := { s with err := some k }

/-- `err_pc <- v`. -/
def State.setErrPc (s : State) (v : BitVec 64) : State := { s with errPc := v }

/-- `s` with other tables. -/
def State.setTables (s : State) (t : Tables) : State := { s with tables := t }

/-- `s` with another pending command stream. -/
def State.setInput (s : State) (ws : List Word) : State := { s with input := ws }

/-! ### The BitBuffer -/

/-- `MemWrite(OUT, |OUT|, 1, byte)`, the only memory write (20_memory.md R41): the byte is appended at address `|OUT|`. -/
def BitBuffer.memAppend (b : BitBuffer) (byte : Byte) : BitBuffer := { b with out := b.out ++ [byte] }

/-- The read of one byte of `OUT` by the host (20_memory.md R50); none where `OUT` holds no byte. -/
def BitBuffer.read (b : BitBuffer) (a : Nat) : Option Byte := b.out[a]?

/-- `push_bit(bit)`, the only way a bit enters the output (40_bitbuffer.md R90). The count `nbits` has three bits, so it
reaches 8 exactly when it was 7. -/
def BitBuffer.pushBit (bit : Bool) (b : BitBuffer) : BitBuffer :=
  let acc := b.acc ||| ((BitVec.ofBool bit).setWidth 8 <<< b.nbits.toNat)
  if b.nbits = 7#3 then { b.memAppend acc with acc := 0, nbits := 0 }
  else { b with acc := acc, nbits := b.nbits + 1 }

/-- `put_lsb(v, n)`: pushes bits `0, 1, ..., n-1` of `v` in that order (R91). -/
def BitBuffer.putLsb (v : Nat) : Nat → BitBuffer → BitBuffer
  | 0, b => b
  | n + 1, b => (BitBuffer.putLsb v n b).pushBit (v.testBit n)

/-- `put_msb(v, n)`: pushes bits `n-1, n-2, ..., 0` of `v` in that order (R92). -/
def BitBuffer.putMsb (v : Nat) : Nat → BitBuffer → BitBuffer
  | 0, b => b
  | n + 1, b => BitBuffer.putMsb v n (b.pushBit (v.testBit n))

/-- The number of zero bits that bring the buffer to a byte boundary (20_memory.md R49): `8 - k` after `k` pending bits for
`k` in 1..7, and 0 after none. -/
def BitBuffer.padding (b : BitBuffer) : Nat := if b.nbits = 0#3 then 0 else 8 - b.nbits.toNat

/-- `n` zero bits. -/
def BitBuffer.putZeros : Nat → BitBuffer → BitBuffer
  | 0, b => b
  | n + 1, b => BitBuffer.putZeros n (b.pushBit false)

/-- `align()` (R95): zero bits until `nbits = 0`, none if it is 0 already. -/
def BitBuffer.align (b : BitBuffer) : BitBuffer := BitBuffer.putZeros b.padding b

/-! ### The tables -/

/-- `lookup(T, s)` (41_huffman_table.md R112): the entry if its valid bit is 1, none if the symbol is absent. -/
def Table.lookup {α : Type} : Table α → Nat → Option α
  | [], _ => none
  | (k, v) :: t, sym => if sym = k then some v else Table.lookup t sym

/-- `T[sym] <- v` with the valid bit set (R110, R111): the last load of a symbol wins, and the symbols stay in rising
order. -/
def Table.store {α : Type} : Table α → Nat → α → Table α
  | [], sym, x => [(sym, x)]
  | (k, v) :: t, sym, x =>
    if sym < k then (sym, x) :: (k, v) :: t
    else if sym = k then (sym, x) :: t
    else (k, v) :: Table.store t sym x

/-! ### Completing a command, taking an error, reset -/

/-- The last value of the command counter: a command that completes with it would need `pc = 2^64` (10_state.md R20). -/
def lastPc : BitVec 64 := 0xFFFFFFFFFFFFFFFF#64

/-- The end of a command that completes: `pc <- pc + 1` (10_state.md R20). An invocation that needs `pc = 2^64` is outside
the spec and is refused (92_eei_decisions.md D29). -/
def complete (s : State) : Outcome :=
  if s.pc = lastPc then .refused .pcExhausted else .next (s.setPc (s.pc + 1))

/-- Error entry, `raise K` (60_exceptions.md R206): `err` and `err_pc` are written and nothing else changes. -/
def raise (k : ErrKind) (s : State) : State := (s.setErr k).setErrPc s.pc

/-- Reset, the one event besides the arrival of a command (70_reset_and_hazards.md R230): whatever the state was, the
state after it is `State.reset`. There is no return from an error but this (60_exceptions.md R209). -/
def applyReset (_s : State) : State := State.reset

/-- The arrival of command words at the end of the stream (20_memory.md R40 (c), R53). -/
def offer (s : State) (ws : List Word) : State := s.setInput (s.input ++ ws)

end Sys2Proof.Machine
end

