-- ==== Sys2Proof/Machine/Operands.lean ====
section
/-!
DEFINITION. What the commands read their operands through: the constant tables `LEXT`, `DEXT`, `CL_ORDER` and `CLX`
(10_state.md R28 to R31), the range checks of 60_exceptions.md R208, `check_code` (41_huffman_table.md R113), and the writes
of a code and of an extra-bits field (43_huffman_symbols.md R135, 44_dynamic_preamble.md R150, R152).
-/
namespace Sys2Proof.Machine

/-! ### Constants -/

/-- `LEXT`, indexed by `length_code - 257` (10_state.md R28). -/
def lextTable : List Nat :=
  [0, 0, 0, 0, 0, 0, 0, 0, 1, 1, 1, 1, 2, 2, 2, 2, 3, 3, 3, 3, 4, 4, 4, 4, 5, 5, 5, 5, 0]

/-- `DEXT`, indexed by the distance code (10_state.md R29). -/
def dextTable : List Nat :=
  [0, 0, 0, 0, 1, 1, 2, 2, 3, 3, 4, 4, 5, 5, 6, 6, 7, 7, 8, 8, 9, 9, 10, 10, 11, 11, 12, 12, 13, 13]

/-- `CL_ORDER`, the transmission order of the code-length-alphabet lengths (10_state.md R30).
UNVERIFIED: the spec supplies the list from general knowledge (93_implementation_defined.md G1). -/
def clOrder : List Nat := [16, 17, 18, 0, 8, 7, 9, 6, 10, 5, 11, 4, 12, 3, 13, 2, 14, 1, 15]

/-- `LEXT[lc - 257]`. Outside the table, where no run asks, it is 0 (DESIGN CHOICE, log entry 7). -/
def lext (lc : Nat) : Nat := if lc < 257 then 0 else (lextTable[lc - 257]?).getD 0

/-- `DEXT[dc]`. Outside the table, where no rule asks, it is 0 (DESIGN CHOICE, log entry 7). -/
def dext (dc : Nat) : Nat := (dextTable[dc]?).getD 0

/-- `CLX[sym]`, the number of extra bits after a code-length-alphabet symbol (10_state.md R31).
UNVERIFIED: the counts of 16 and 17 are the spec's from general knowledge (93_implementation_defined.md G2). -/
def clx (sym : Nat) : Nat := if sym = 16 then 2 else if sym = 17 then 3 else if sym = 18 then 7 else 0

/-! ### Range checks -/

/-- A bit count outside 1..32 (40_bitbuffer.md R93, R94, 41_huffman_table.md R113). -/
def badWidth (n : Nat) : Bool := decide (n < 1 ∨ 32 < n)

/-- `lookup` and its two checks (41_huffman_table.md R113): UnknownSymbol if the symbol is absent, then InvalidBitWidth if
the stored length is outside 1..32. -/
def checkCode (t : Table Entry) (sym : Nat) : Except ErrKind Entry :=
  match t.lookup sym with
  | none => .error .unknownSymbol
  | some e => if badWidth e.len.toNat then .error .invalidBitWidth else .ok e

/-- The `CLLEN` lengths of a list of symbols in order, none if one of them was never set (44_dynamic_preamble.md R150). -/
def gatherLens (t : Table (BitVec 3)) : List Nat → Option (List (BitVec 3))
  | [] => some []
  | sym :: syms =>
    match t.lookup sym, gatherLens t syms with
    | some l, some ls => some (l :: ls)
    | _, _ => none

/-! ### Writes of a code, an extra-bits field, a list of lengths -/

/-- `put_msb(code, len)` of a table entry (41_huffman_table.md R113). -/
def BitBuffer.putCode (e : Entry) (b : BitBuffer) : BitBuffer := b.putMsb e.code.toNat e.len.toNat

/-- An extra-bits field of count `c`: the low `c` bits of `v` LSB-first, and no append at all if `c = 0` (R135, R152). -/
def BitBuffer.putExtra (v c : Nat) (b : BitBuffer) : BitBuffer := if 0 < c then b.putLsb v c else b

/-- `put_lsb(len3, 3)` for each length in order (44_dynamic_preamble.md R150). -/
def BitBuffer.putLens : List (BitVec 3) → BitBuffer → BitBuffer
  | [], b => b
  | l :: ls, b => BitBuffer.putLens ls (b.putLsb l.toNat 3)

end Sys2Proof.Machine
end

