-- ==== Sys2Proof/Machine/Flags.lean ====
section
/-!
DEFINITION. The flags of the unit (10_state.md R15, R23), the encodings of `phase`, `err` and `ld_phase` (R16, R17, R21), the
latches as R18 names them, the host-visible status words (R33) and the result of an invocation (60_exceptions.md R210).
-/
namespace Sys2Proof.Machine

/-- The encoding of `phase` (10_state.md R16). -/
def Phase.code : Phase → BitVec 3
  | .idle => 0
  | .stWait => 1
  | .stData => 2
  | .dynWait => 3
  | .dynCl => 4
  | .huff => 5
  | .done => 7

/-- The code of an error kind in `err` (60_exceptions.md R200). -/
def ErrKind.code : ErrKind → BitVec 3
  | .malformedField => 1
  | .unknownSymbol => 2
  | .invalidBitWidth => 3
  | .postFinishWrite => 4
  | .illegalCommand => 5

/-- `err` as a number: 0 is no error (10_state.md R21). -/
def errCode : Option ErrKind → BitVec 3
  | none => 0
  | some k => k.code

/-- `ld_phase`, the number of latched tokens (10_state.md R17). -/
def LdGroup.ldPhase : LdGroup → BitVec 2
  | .empty => 0
  | .lc _ => 1
  | .lcLe _ _ => 2
  | .lcLeDc _ _ _ => 3

/-- `ld_lc`, which holds a value iff `ld_phase >= 1` (10_state.md R18). -/
def LdGroup.ldLc : LdGroup → Option Token
  | .empty => none
  | .lc l => some l
  | .lcLe l _ => some l
  | .lcLeDc l _ _ => some l

/-- `ld_le`, which holds a value iff `ld_phase >= 2` (10_state.md R18). -/
def LdGroup.ldLe : LdGroup → Option Token
  | .empty => none
  | .lc _ => none
  | .lcLe _ e => some e
  | .lcLeDc _ e _ => some e

/-- `ld_dc`, which holds a value iff `ld_phase = 3` (10_state.md R18). -/
def LdGroup.ldDc : LdGroup → Option Token
  | .empty => none
  | .lc _ => none
  | .lcLe _ _ => none
  | .lcLeDc _ _ d => some d

/-- `finished` is `phase = DONE` (10_state.md R15). -/
def State.finished (s : State) : Bool := decide (s.phase = .done)

/-- `aligned` is `nbits = 0` (10_state.md R23). -/
def State.aligned (s : State) : Bool := decide (s.buf.nbits = 0#3)

/-- The flag `err != 0` (10_state.md R23). -/
def State.inError (s : State) : Bool := s.err.isSome

/-- The status word `STATUS` (10_state.md R33): ERR 2:0, DONE 3, PHASE 6:4, NBITS 9:7, LDPH 11:10, zeros above. -/
def State.status (s : State) : BitVec 32 :=
  (0#20 ++ s.group.ldPhase ++ s.buf.nbits ++ s.phase.code ++ BitVec.ofBool s.finished ++ errCode s.err : BitVec 32)

/-- The status word `ERR_PC` (10_state.md R33). -/
def State.errPcWord (s : State) : BitVec 64 := s.errPc

/-- The status word `OUT_LEN`, `|OUT|` in 64 bits (10_state.md R33; modulo 2^64, DESIGN CHOICE, log entry 9). -/
def State.outLen (s : State) : BitVec 64 := BitVec.ofNat 64 s.buf.out.length

/-- The result of an invocation as the host reads it (60_exceptions.md R210). -/
inductive Result where
  | ok (bytes : List Byte)
  | error (kind : ErrKind)
  | pending
  deriving DecidableEq, Repr

/-- `Ok(OUT)` iff `phase = DONE` and `err = 0`; `Error(err)` iff `err != 0`; pending otherwise (R210). -/
def State.result (s : State) : Result :=
  match s.err with
  | some k => .error k
  | none => if s.phase = .done then .ok s.buf.out else .pending

end Sys2Proof.Machine
end

