-- ==== Sys2Proof/Machine/Sequence.lean ====
section
/-!
DEFINITION. The checks every command makes before its own (60_exceptions.md R201 steps 1 and 3 to 5, R202, R204, R205), the
legality matrix (46_stream_assembler.md R184), and the one way a command runs: all checks, then all writes, then
`pc <- pc + 1` (R201 steps 6 and 7, R207).
-/
namespace Sys2Proof.Machine

/-- The matrix of 46_stream_assembler.md R184, row by row: true is `ok`, false is `MF` (or `PFW` in the column DONE, which
R201 tests first). -/
def legal : Command → Phase → Bool
  | .putLsb, p => decide (p ≠ .done)
  | .putMsb, p => decide (p ≠ .done)
  | .align, p => decide (p ≠ .done)
  | .finish, p => decide (p = .idle ∨ p = .stData ∨ p = .dynCl ∨ p = .huff)
  | .tblLoad, p => decide (p = .dynWait ∨ p = .dynCl ∨ p = .huff)
  | .cllSet, p => decide (p = .dynWait)
  | .blkHdr, p => decide (p = .idle ∨ p = .stData ∨ p = .dynCl ∨ p = .huff)
  | .stLen, p => decide (p = .stWait)
  | .raw, p => decide (p = .stData)
  | .dynHdr, p => decide (p = .dynWait)
  | .clsym, p => decide (p = .dynCl)
  | .tok, p => decide (p = .dynCl ∨ p = .huff)

/-- The first of R201's steps 3 to 5 that fails for a command, if one does. -/
def commonFault (c : Command) (s : State) : Option ErrKind :=
  if s.phase = .done then some .postFinishWrite
  else if s.group ≠ .empty ∧ c ≠ .tok then some .malformedField
  else if legal c s.phase = false then some .malformedField
  else none

/-- One command on a state (R201): discarded if `err != 0` (R202), else the common checks, else the command's own part
`body`, which is either the first of its own checks that fails or the state after all of its writes but that of `pc`. An
error of either kind goes through error entry and changes nothing else, so every command is atomic (R207). -/
def runCommand (c : Command) (body : Except ErrKind State) (s : State) : Outcome :=
  if s.err.isSome then .next s
  else
    match commonFault c s with
    | some k => .next (raise k s)
    | none =>
      match body with
      | .error k => .next (raise k s)
      | .ok t => complete t

end Sys2Proof.Machine
end

