-- ==== Sys2Proof/Machine/BitBufferCommands.lean ====
section
/-!
DEFINITION. The BitBuffer commands PUT_LSB, PUT_MSB, ALIGN and FINISH (40_bitbuffer.md R93 to R96).
-/
namespace Sys2Proof.Machine

/-- `PUT_LSB n, value` (R93): InvalidBitWidth if `n` is outside 1..32, else `put_lsb(value, n)`. -/
def execPutLsb (n : BitVec 6) (value : BitVec 32) (s : State) : Outcome :=
  runCommand .putLsb
    (if badWidth n.toNat then .error .invalidBitWidth
     else .ok (s.setBuf (s.buf.putLsb value.toNat n.toNat))) s

/-- `PUT_MSB n, value` (R94): InvalidBitWidth if `n` is outside 1..32, else `put_msb(value, n)`. -/
def execPutMsb (n : BitVec 6) (value : BitVec 32) (s : State) : Outcome :=
  runCommand .putMsb
    (if badWidth n.toNat then .error .invalidBitWidth
     else .ok (s.setBuf (s.buf.putMsb value.toNat n.toNat))) s

/-- `ALIGN` (R95): `align()`. -/
def execAlign (s : State) : Outcome :=
  runCommand .align (.ok (s.setBuf s.buf.align)) s

/-- `FINISH` (R96): `align()`, then `phase <- DONE`. -/
def execFinish (s : State) : Outcome :=
  runCommand .finish (.ok ((s.setBuf s.buf.align).setPhase .done)) s

end Sys2Proof.Machine
end

