-- ==== Sys2Proof/Machine/DynamicPreamble.lean ====
section
/-!
DEFINITION. The dynamic-block preamble emitter: DYN_HDR and CLSYM (44_dynamic_preamble.md R150 to R152).
-/
namespace Sys2Proof.Machine

/-- HLIT, HDIST and HCLEN, each LSB-first (R150 item 1). -/
def BitBuffer.putCounts (hlit hdist : BitVec 5) (hclen : BitVec 4) (b : BitBuffer) : BitBuffer :=
  ((b.putLsb hlit.toNat 5).putLsb hdist.toNat 5).putLsb hclen.toNat 4

/-- `DYN_HDR hlit, hdist, hclen` (R150): MalformedField if one of the first `hclen + 4` lengths in transmission order was
never set, else the three counts and those lengths, then `phase <- DYN_CL`. -/
def execDynHdr (hlit hdist : BitVec 5) (hclen : BitVec 4) (s : State) : Outcome :=
  runCommand .dynHdr
    (match gatherLens s.tables.cllen (clOrder.take (hclen.toNat + 4)) with
     | none => .error .malformedField
     | some lens => .ok ((s.setBuf ((s.buf.putCounts hlit hdist hclen).putLens lens)).setPhase .dynCl)) s

/-- `CLSYM sym, extra` (R152): MalformedField if `sym > 18`, then the checks of `check_code(CL, sym)`, else the code
MSB-first and `CLX[sym]` extra bits LSB-first. -/
def execClsym (sym : BitVec 5) (extra : BitVec 7) (s : State) : Outcome :=
  runCommand .clsym
    (if 18 < sym.toNat then .error .malformedField
     else
       match checkCode s.tables.cl sym.toNat with
       | .error k => .error k
       | .ok e => .ok (s.setBuf ((s.buf.putCode e).putExtra extra.toNat (clx sym.toNat)))) s

end Sys2Proof.Machine
end

