-- ==== Sys2Proof/Machine/HuffmanSymbols.lean ====
section
/-!
DEFINITION. The packed-symbol writer: TOK (43_huffman_symbols.md R130 to R136).
-/
namespace Sys2Proof.Machine

/-- A head token, executed with no group pending: a literal or end-of-block (R131), a length code that opens a group
(R133), or a value outside both (R132). -/
def tokHead (v : Token) (s : State) : Except ErrKind State :=
  if v.toNat ≤ 256 then
    match checkCode s.tables.ll v.toNat with
    | .error k => .error k
    | .ok e => .ok ((s.setBuf (s.buf.putCode e)).setPhase .huff)
  else if v.toNat ≤ 285 then .ok ((s.setGroup (.lc v)).setPhase .huff)
  else .error .malformedField

/-- The bits of a complete LengthDistance group (R135): length code, length extra, distance code, distance extra. -/
def BitBuffer.putGroup (lcode dcode : Entry) (lc le dc de : Nat) (b : BitBuffer) : BitBuffer :=
  (((b.putCode lcode).putExtra le (lext lc)).putCode dcode).putExtra de (dext dc)

/-- The commit of a group by its fourth token (R135, R136): all five checks in order, then all writes. -/
def tokCommit (lc le dc de : Token) (s : State) : Except ErrKind State :=
  match checkCode s.tables.ll lc.toNat with
  | .error k => .error k
  | .ok lcode =>
    if 29 < dc.toNat then .error .malformedField
    else
      match checkCode s.tables.d dc.toNat with
      | .error k => .error k
      | .ok dcode =>
        .ok ((s.setBuf (s.buf.putGroup lcode dcode lc.toNat le.toNat dc.toNat de.toNat)).setGroup .empty)

/-- `TOK v` by the number of tokens already latched (R130): a head token, a token latched by position (R134), or the
commit. -/
def tokBody (v : Token) (s : State) : Except ErrKind State :=
  match s.group with
  | .empty => tokHead v s
  | .lc l => .ok (s.setGroup (.lcLe l v))
  | .lcLe l e => .ok (s.setGroup (.lcLeDc l e v))
  | .lcLeDc l e d => tokCommit l e d v s

/-- `TOK v` (R130). -/
def execTok (v : Token) (s : State) : Outcome := runCommand .tok (tokBody v s) s

end Sys2Proof.Machine
end

