-- ==== Sys2Proof/Machine/HuffmanTable.lean ====
section
/-!
DEFINITION. The Huffman table index: TBL_LOAD into `LL`, `D` and `CL`, and CLL_SET (41_huffman_table.md R110, R111).
-/
namespace Sys2Proof.Machine

/-- The load shared by the three tables (R110): the entry holds `len` and `code` as given. -/
def loadEntry (t : Table Entry) (sym : BitVec 16) (code : BitVec 32) (len : BitVec 6) : Table Entry :=
  t.store sym.toNat { len := len, code := code }

/-- `TBL_LOAD LL, sym, code, len` (R110): MalformedField if `sym > 287`. -/
def execTblLoadLL (sym : BitVec 16) (code : BitVec 32) (len : BitVec 6) (s : State) : Outcome :=
  runCommand .tblLoad
    (if 287 < sym.toNat then .error .malformedField
     else .ok (s.setTables { s.tables with ll := loadEntry s.tables.ll sym code len })) s

/-- `TBL_LOAD D, sym, code, len` (R110): MalformedField if `sym > 31`. -/
def execTblLoadD (sym : BitVec 16) (code : BitVec 32) (len : BitVec 6) (s : State) : Outcome :=
  runCommand .tblLoad
    (if 31 < sym.toNat then .error .malformedField
     else .ok (s.setTables { s.tables with d := loadEntry s.tables.d sym code len })) s

/-- `TBL_LOAD CL, sym, code, len` (R110): MalformedField if `sym > 18`. -/
def execTblLoadCL (sym : BitVec 16) (code : BitVec 32) (len : BitVec 6) (s : State) : Outcome :=
  runCommand .tblLoad
    (if 18 < sym.toNat then .error .malformedField
     else .ok (s.setTables { s.tables with cl := loadEntry s.tables.cl sym code len })) s

/-- `CLL_SET sym, len3` (R111): MalformedField if `sym > 18`. -/
def execCllSet (sym : BitVec 5) (len3 : BitVec 3) (s : State) : Outcome :=
  runCommand .cllSet
    (if 18 < sym.toNat then .error .malformedField
     else .ok (s.setTables { s.tables with cllen := s.tables.cllen.store sym.toNat len3 })) s

end Sys2Proof.Machine
end

