-- ==== Sys2Proof/Machine/StoredBlock.lean ====
section
/-!
DEFINITION. The stored-block encoder: ST_LEN and RAW (42_stored_block.md R120, R121).
-/
namespace Sys2Proof.Machine

/-- `ST_LEN len, nlen` (R120): `align()`, LEN and NLEN as 16 bits LSB-first each, both as given, then `phase <- ST_DATA`. -/
def execStLen (len nlen : BitVec 16) (s : State) : Outcome :=
  runCommand .stLen
    (.ok ((s.setBuf ((s.buf.align.putLsb len.toNat 16).putLsb nlen.toNat 16)).setPhase .stData)) s

/-- `RAW byte` (R121): `put_lsb(byte, 8)`. -/
def execRaw (byte : BitVec 8) (s : State) : Outcome :=
  runCommand .raw (.ok (s.setBuf (s.buf.putLsb byte.toNat 8))) s

end Sys2Proof.Machine
end

