-- ==== Sys2Proof/Machine/StreamAssembler.lean ====
section
/-!
DEFINITION. The block-type dispatcher: BLK_HDR (46_stream_assembler.md R180 to R183).
-/
namespace Sys2Proof.Machine

/-- The phase a block header opens (R180, R183); none for the reserved `btype = 3` (R181). -/
def openedPhase (btype : BitVec 2) : Option Phase :=
  if btype = 0#2 then some .stWait
  else if btype = 1#2 then some .huff
  else if btype = 2#2 then some .dynWait
  else none

/-- `BLK_HDR bfinal, btype` (R180): MalformedField if `btype = 3`, else BFINAL and BTYPE LSB-first, all four tables
invalidated (R182), and the phase of the block type. -/
def execBlkHdr (bfinal : BitVec 1) (btype : BitVec 2) (s : State) : Outcome :=
  runCommand .blkHdr
    (match openedPhase btype with
     | none => .error .malformedField
     | some p =>
       .ok (((s.setBuf ((s.buf.putLsb bfinal.toNat 1).putLsb btype.toNat 2)).setTables Tables.invalid).setPhase p)) s

end Sys2Proof.Machine
end

