-- ==== Sys2Proof/Machine/Dispatch.lean ====
section
/-!
DEFINITION. The meaning of every command: one arm per row of spec/opcode_table.json.
-/
namespace Sys2Proof.Machine

def exec (i : Instr) (s : State) : Host.Outcome State Fault Refusal :=
  match i with
  | .putLsb n value => Sys2Proof.Machine.execPutLsb n value s
  | .putMsb n value => Sys2Proof.Machine.execPutMsb n value s
  | .align => Sys2Proof.Machine.execAlign s
  | .finish => Sys2Proof.Machine.execFinish s
  | .tblLoadLL sym code len => Sys2Proof.Machine.execTblLoadLL sym code len s
  | .tblLoadD sym code len => Sys2Proof.Machine.execTblLoadD sym code len s
  | .tblLoadCL sym code len => Sys2Proof.Machine.execTblLoadCL sym code len s
  | .cllSet sym len3 => Sys2Proof.Machine.execCllSet sym len3 s
  | .blkHdr bfinal btype => Sys2Proof.Machine.execBlkHdr bfinal btype s
  | .stLen len nlen => Sys2Proof.Machine.execStLen len nlen s
  | .raw byte => Sys2Proof.Machine.execRaw byte s
  | .dynHdr hlit hdist hclen => Sys2Proof.Machine.execDynHdr hlit hdist hclen s
  | .clsym sym extra => Sys2Proof.Machine.execClsym sym extra s
  | .tok v => Sys2Proof.Machine.execTok v s

end Sys2Proof.Machine
end

