-- ==== Sys2Proof/Machine/Sequencer.lean ====
section
/-!
DEFINITION. The arrival of a command word: taking the next word of the stream, and the step of the unit on one word
(60_exceptions.md R201 to R203).
-/
namespace Sys2Proof.Machine

/-- The next command word of the stream and the state that has consumed it; none while no word has arrived
(20_memory.md R40 (c), R53). -/
def fetch (s : State) : Option (Word × State) :=
  match s.input with
  | [] => none
  | w :: ws => some (w, s.setInput ws)

/-- `step(w)` of R201: a word that arrives with `err != 0` is discarded undecoded (R202), a word that does not decode
raises IllegalCommand (R203), and any other runs its command. -/
def stepWord (w : Word) (s : State) : Outcome :=
  if s.err.isSome then .next s
  else
    match decode w with
    | .error _ => .next (raise .illegalCommand s)
    | .ok i => exec i s

/-- `ws` with its first word replaced by `w`, or `w` alone if there is none. -/
def replaceNext (w : Word) (ws : List Word) : List Word := w :: ws.tail

end Sys2Proof.Machine
end

