-- ==== Sys2Proof/Machine/Step.lean ====
section
/-!
DEFINITION. One step of the machine: it takes the next command word of the stream and runs it. While no word has arrived
the unit is idle and all state is kept (60_exceptions.md R214, 70_reset_and_hazards.md R231).
-/
namespace Sys2Proof.Machine

/-- One step. With a word waiting it is `step(w)` of 60_exceptions.md R201 on the state that has consumed the word; with
none it is the idle unit, unchanged. -/
def step (s : State) : Host.Outcome State Fault Refusal :=
  match fetch s with
  | none => .next s
  | some (w, t) => stepWord w t

/-- `s` with the command word `w`, its bits above `nbits` zero, as the word `step` takes next. -/
def State.withFetchWord (s : State) (nbits w : Nat) : State :=
  s.setInput (replaceNext (Sys2Proof.tableWord nbits w) s.input)

end Sys2Proof.Machine
end

