-- ==== Sys2Proof/Machine/Capacity.lean ====
section
/-!
DEFINITION. The unit with the open parameter `OUT_CAP` (20_memory.md R51, 70_reset_and_hazards.md R241, 92_eei_decisions.md D27).
-/
namespace Sys2Proof.Machine

/-- One step of a unit whose output holds at most `cap` bytes, or any number if there is no bound. A command that needs a byte
beyond the bound leaves the unit stuck: no byte is dropped or overwritten and no error of the unit is raised. -/
def stepWithCap (cap : Option Nat) (s : State) : Outcome :=
  match step s with
  | .next t =>
    match cap with
    | none => .next t
    | some n => if s.buf.out.length < t.buf.out.length ∧ n < t.buf.out.length then .fault .outputFull else .next t
  | .fault r => .fault r
  | .refused r => .refused r

end Sys2Proof.Machine
end

