-- ==== Sys2Proof/Machine/Stream.lean ====
section
/-!
DEFINITION. The host's side of the command interface: the pseudo-instructions (30_encoding.md R85, 45_zlib_envelope.md R170),
the source's Stream (46_stream_assembler.md R188) with its flat and its tagged symbol stream (43_huffman_symbols.md R137),
and the expansion `compile` of a Stream into commands (R188).
-/
namespace Sys2Proof.Machine

/-! ### The source's data model -/

/-- A HuffmanTableEntry (00_scope.md R9); its `table_index` is not carried (92_eei_decisions.md D21). -/
structure HuffmanTableEntry where
  symbol : BitVec 16
  code : BitVec 32
  codeBitSize : BitVec 6
  deriving DecidableEq, Repr

/-- A ZlibEnvelope: the five header fields as values and the four trailer bytes (45_zlib_envelope.md R170, R172). -/
structure ZlibEnvelope where
  cm : BitVec 32
  cinfo : BitVec 32
  fcheck : BitVec 32
  fdict : BitVec 32
  flevel : BitVec 32
  trailer : Vector Byte 4
  deriving DecidableEq, Repr

/-- What a fixed and a dynamic Huffman block share: the two tables and the flat symbol stream (43_huffman_symbols.md R130). -/
structure HuffmanPayload where
  literalLengthTable : List HuffmanTableEntry
  distanceTable : List HuffmanTableEntry
  symbolStream : List Token
  deriving DecidableEq, Repr

/-- What a dynamic block adds: the counts, the known code-length-alphabet lengths by symbol, the code table of that
alphabet, and the coded length sequence with its optional extra bits (44_dynamic_preamble.md R150 to R153). -/
structure DynamicPayload where
  hlit : BitVec 5
  hdist : BitVec 5
  hclen : BitVec 4
  lengths : List (BitVec 5 × BitVec 3)
  codes : List HuffmanTableEntry
  sequence : List (BitVec 5 × Option (BitVec 7))
  deriving DecidableEq, Repr

/-- The payload of a Block, of one of the three kinds (46_stream_assembler.md R181). -/
inductive Payload where
  | stored (len nlen : BitVec 16) (rawBytes : List Byte)
  | fixedHuffman (h : HuffmanPayload)
  | dynamicHuffman (p : DynamicPayload) (h : HuffmanPayload)
  deriving DecidableEq, Repr

/-- A Block: `is_final` and its payload. -/
structure Block where
  isFinal : Bool
  payload : Payload
  deriving DecidableEq, Repr

/-- A Stream: an optional envelope and the blocks in order (R188). -/
structure Stream where
  envelope : Option ZlibEnvelope
  blocks : List Block
  deriving DecidableEq, Repr

/-! ### Pseudo-instructions (30_encoding.md R85) -/

/-- The table operand `t` of `ENTRY` and `TBL_LOAD` (30_encoding.md R84). -/
inductive TableId where
  | ll | d | cl
  deriving DecidableEq, Repr

/-- `TBL_LOAD t, sym, code, len`. -/
def tblLoad (t : TableId) (sym : BitVec 16) (code : BitVec 32) (len : BitVec 6) : Instr :=
  match t with
  | .ll => .tblLoadLL sym code len
  | .d => .tblLoadD sym code len
  | .cl => .tblLoadCL sym code len

/-- `FIELD value, bit_size`. -/
def pseudoField (value : BitVec 32) (bitSize : BitVec 6) : List Instr := [.putLsb bitSize value]

/-- `LIT b`. -/
def pseudoLit (b : Byte) : List Instr := [.tok (b.setWidth 16)]

/-- `EOB`. -/
def pseudoEob : List Instr := [.tok 256]

/-- `LD lc, le, dc, de`. -/
def pseudoLd (lc le dc de : Token) : List Instr := [.tok lc, .tok le, .tok dc, .tok de]

/-- `ENTRY t, symbol, code, code_bit_size`. -/
def pseudoEntry (t : TableId) (e : HuffmanTableEntry) : List Instr := [tblLoad t e.symbol e.code e.codeBitSize]

/-- `ZHDR cm, cinfo, fcheck, fdict, flevel` (45_zlib_envelope.md R170). -/
def pseudoZhdr (cm cinfo fcheck fdict flevel : BitVec 32) : List Instr :=
  [.putLsb 4 cm, .putLsb 4 cinfo, .putLsb 5 fcheck, .putLsb 1 fdict, .putLsb 2 flevel]

/-- `STORED bfinal, len, nlen, b0, b1, ...`. -/
def pseudoStored (bfinal : BitVec 1) (len nlen : BitVec 16) (rawBytes : List Byte) : List Instr :=
  .blkHdr bfinal 0 :: .stLen len nlen :: rawBytes.map .raw

/-! ### The tagged symbol stream (43_huffman_symbols.md R137) -/

/-- A SymbolToken (00_scope.md R9). -/
inductive SymbolToken where
  | literal (b : Byte)
  | endOfBlock
  | lengthDistance (lengthCode lengthExtra distanceCode distanceExtra : Token)
  deriving DecidableEq, Repr

/-- `parse` of R137: none on a head of 286 or more, and on a list that ends inside a group. -/
def parseTokens : List Token → Option (List SymbolToken)
  | [] => some []
  | v :: rest =>
    if v.toNat ≤ 255 then (parseTokens rest).map (.literal (v.setWidth 8) :: ·)
    else if v.toNat = 256 then (parseTokens rest).map (.endOfBlock :: ·)
    else if v.toNat ≤ 285 then
      match rest with
      | le :: dc :: de :: rest' => (parseTokens rest').map (.lengthDistance v le dc de :: ·)
      | _ => none
    else none

/-- The pseudo-instruction of a SymbolToken: `LIT`, `EOB` or `LD`, the inverse of `parse` (R137). -/
def SymbolToken.commands : SymbolToken → List Instr
  | .literal b => pseudoLit b
  | .endOfBlock => pseudoEob
  | .lengthDistance lc le dc de => pseudoLd lc le dc de

/-! ### `compile` (46_stream_assembler.md R188) -/

/-- The table loads and the tokens of a Huffman block, with the dynamic preamble, if any, between them. -/
def compileHuffman (h : HuffmanPayload) (preamble : List Instr) : List Instr :=
  h.literalLengthTable.flatMap (pseudoEntry .ll) ++ h.distanceTable.flatMap (pseudoEntry .d) ++ preamble ++
    h.symbolStream.map .tok

/-- The commands of one Block. -/
def compileBlock (b : Block) : List Instr :=
  let bfinal : BitVec 1 := BitVec.ofBool b.isFinal
  match b.payload with
  | .stored len nlen rawBytes => pseudoStored bfinal len nlen rawBytes
  | .fixedHuffman h => .blkHdr bfinal 1 :: compileHuffman h []
  | .dynamicHuffman p h =>
    .blkHdr bfinal 2 :: (p.lengths.map (fun x => .cllSet x.1 x.2) ++ p.codes.flatMap (pseudoEntry .cl) ++
      compileHuffman h (.dynHdr p.hlit p.hdist p.hclen :: p.sequence.map (fun x => .clsym x.1 (x.2.getD 0))))

/-- The header commands of an optional envelope. -/
def compileEnvelope : Option ZlibEnvelope → List Instr
  | none => []
  | some e => pseudoZhdr e.cm e.cinfo e.fcheck e.fdict e.flevel

/-- `compile(S)`: the command sequence the host issues after reset. -/
def compile (s : Stream) : List Instr :=
  compileEnvelope s.envelope ++ s.blocks.flatMap compileBlock ++ [.finish]

end Sys2Proof.Machine
end

