-- ==== Sys2Proof/Machine/Format.lean ====
section
/-!
DEFINITION. The output stream's format (30_encoding.md Part A, R60 to R68) as lists of stream bits, earliest first: what one
command emits, and what a whole Stream must look like. The second is written from Part A alone and uses no operation of the
BitBuffer, no table of the state and no phase, so that the machine can be held against it.
-/
namespace Sys2Proof.Machine

/-- A field `NAME(n, L)`: field bit `i` at stream position `i` (20_memory.md R43). -/
def lsbBits (v n : Nat) : List Bool := (List.range n).map v.testBit

/-- A field `NAME(n, M)`: field bit `n-1-i` at stream position `i` (20_memory.md R44). -/
def msbBits (v n : Nat) : List Bool := (List.range n).map (fun i => v.testBit (n - 1 - i))

/-- `PAD`: the zero bits from stream position `k` to the next byte boundary (R62, R68, 20_memory.md R49). -/
def padBits (k : Nat) : List Bool := List.replicate ((8 - k % 8) % 8) false

/-- The block header: BFINAL and BTYPE (R61). -/
def headerBits (bfinal btype : Nat) : List Bool := lsbBits bfinal 1 ++ lsbBits btype 2

/-- A code of `len` bits, MSB-first (R63). -/
def codeBits (e : Entry) : List Bool := msbBits e.code.toNat e.len.toNat

/-- The four fields of a LengthDistance group (R64). -/
def groupBits (lcode dcode : Entry) (lc le dc de : Nat) : List Bool :=
  codeBits lcode ++ lsbBits le (lext lc) ++ codeBits dcode ++ lsbBits de (dext dc)

/-- HLIT, HDIST, HCLEN and the transmitted lengths (R65). -/
def preambleBits (hlit hdist hclen : Nat) (lens : List (BitVec 3)) : List Bool :=
  lsbBits hlit 5 ++ lsbBits hdist 5 ++ lsbBits hclen 4 ++ lens.flatMap (fun l => lsbBits l.toNat 3)

/-- One code-length entry (R66). -/
def clEntryBits (e : Entry) (sym extra : Nat) : List Bool := codeBits e ++ lsbBits extra (clx sym)

/-! ### What one command emits -/

/-- The stream bits of a code looked up in a table of the state; none of them if the symbol is absent. -/
def lookupBits (t : Table Entry) (sym : Nat) : List Bool := ((t.lookup sym).map codeBits).getD []

/-- The stream bits a TOK that completes emits (43_huffman_symbols.md R131, R133 to R135). -/
def tokBits (v : Token) (s : State) : List Bool :=
  match s.group with
  | .empty => if v.toNat ≤ 256 then lookupBits s.tables.ll v.toNat else []
  | .lc _ => []
  | .lcLe _ _ => []
  | .lcLeDc lc le dc =>
    lookupBits s.tables.ll lc.toNat ++ lsbBits le.toNat (lext lc.toNat) ++ lookupBits s.tables.d dc.toNat ++
      lsbBits v.toNat (dext dc.toNat)

/-- The stream bits a command that completes emits from a given state, by Part A's fields. -/
def commandBits (i : Instr) (s : State) : List Bool :=
  match i with
  | .putLsb n value => lsbBits value.toNat n.toNat
  | .putMsb n value => msbBits value.toNat n.toNat
  | .align => padBits s.buf.nbits.toNat
  | .finish => padBits s.buf.nbits.toNat
  | .tblLoadLL _ _ _ => []
  | .tblLoadD _ _ _ => []
  | .tblLoadCL _ _ _ => []
  | .cllSet _ _ => []
  | .blkHdr bfinal btype => headerBits bfinal.toNat btype.toNat
  | .stLen len nlen => padBits s.buf.nbits.toNat ++ lsbBits len.toNat 16 ++ lsbBits nlen.toNat 16
  | .raw byte => lsbBits byte.toNat 8
  | .dynHdr hlit hdist hclen =>
    preambleBits hlit.toNat hdist.toNat hclen.toNat
      ((gatherLens s.tables.cllen (clOrder.take (hclen.toNat + 4))).getD [])
  | .clsym sym extra => lookupBits s.tables.cl sym.toNat ++ lsbBits extra.toNat (clx sym.toNat)
  | .tok v => tokBits v s

/-- The entry a code is emitted from (41_huffman_table.md R113): none if the symbol is absent or the stored length is one no
append accepts. -/
def usable (t : Table Entry) (sym : Nat) : Option Entry :=
  match t.lookup sym with
  | none => none
  | some e => if 1 ≤ e.len.toNat ∧ e.len.toNat ≤ 32 then some e else none

/-- The bits of one SymbolToken under the tables of the unit (43_huffman_symbols.md R137); none if one of its lookups and
checks fails. -/
def symbolBitsIn (t : Tables) : SymbolToken → Option (List Bool)
  | .literal b => (usable t.ll b.toNat).map codeBits
  | .endOfBlock => (usable t.ll 256).map codeBits
  | .lengthDistance lc le dc de =>
    if dc.toNat ≤ 29 then
      match usable t.ll lc.toNat, usable t.d dc.toNat with
      | some lcode, some dcode => some (groupBits lcode dcode lc.toNat le.toNat dc.toNat de.toNat)
      | _, _ => none
    else none

/-- The bits of a list of parts in order; none if one of them has none. -/
def concatBits : List (Option (List Bool)) → Option (List Bool)
  | [] => some []
  | p :: ps =>
    match p, concatBits ps with
    | some b, some bs => some (b ++ bs)
    | _, _ => none

/-- The bits of a flat symbol stream under the tables of the unit (R137): none if it does not parse or a symbol has no bits. -/
def flatBitsIn (t : Tables) (toks : List Token) : Option (List Bool) :=
  match parseTokens toks with
  | none => none
  | some syms => concatBits (syms.map (symbolBitsIn t))

/-! ### What a Stream looks like -/

/-- The entry a per-block index has for a symbol: the last one listed (41_huffman_table.md R110), if its length is one an
append accepts (R113). -/
def indexed (entries : List HuffmanTableEntry) (sym : Nat) : Option Entry :=
  match (entries.filter (fun e => e.symbol.toNat = sym)).getLast? with
  | none => none
  | some e =>
    if 1 ≤ e.codeBitSize.toNat ∧ e.codeBitSize.toNat ≤ 32 then some { len := e.codeBitSize, code := e.code } else none

/-- Every listed symbol is inside a table of `n` symbols (41_huffman_table.md R110). -/
def inRange (entries : List HuffmanTableEntry) (n : Nat) : Bool := entries.all (fun e => decide (e.symbol.toNat < n))

/-- The bits of one SymbolToken (R63, R64); none if a lookup fails or the distance code is not one of 0..29. -/
def symbolBits (h : HuffmanPayload) : SymbolToken → Option (List Bool)
  | .literal b => (indexed h.literalLengthTable b.toNat).map codeBits
  | .endOfBlock => (indexed h.literalLengthTable 256).map codeBits
  | .lengthDistance lc le dc de =>
    if dc.toNat ≤ 29 then
      match indexed h.literalLengthTable lc.toNat, indexed h.distanceTable dc.toNat with
      | some lcode, some dcode => some (groupBits lcode dcode lc.toNat le.toNat dc.toNat de.toNat)
      | _, _ => none
    else none

/-- The symbol stream of a Huffman block (R63, R64); none if a table entry is out of range, the flat stream does not parse,
or a symbol has no bits. -/
def symbolStreamBits (h : HuffmanPayload) : Option (List Bool) :=
  if inRange h.literalLengthTable 288 && inRange h.distanceTable 32 then
    match parseTokens h.symbolStream with
    | none => none
    | some syms => concatBits (syms.map (symbolBits h))
  else none

/-- The length given for a code-length-alphabet symbol, the last one if there are several (41_huffman_table.md R111). -/
def lengthOf (lengths : List (BitVec 5 × BitVec 3)) (sym : Nat) : Option (BitVec 3) :=
  ((lengths.filter (fun x => x.1.toNat = sym)).getLast?).map (·.2)

/-- The preamble of a dynamic block (R65, R66); none if a symbol is outside the alphabet, a length to be transmitted is not
given, or a code is missing. -/
def dynamicBits (p : DynamicPayload) : Option (List Bool) :=
  if p.lengths.all (fun x => decide (x.1.toNat ≤ 18)) && inRange p.codes 19 then
    concatBits
      (some (lsbBits p.hlit.toNat 5 ++ lsbBits p.hdist.toNat 5 ++ lsbBits p.hclen.toNat 4) ::
        ((clOrder.take (p.hclen.toNat + 4)).map (fun sym => (lengthOf p.lengths sym).map (fun l => lsbBits l.toNat 3)) ++
          p.sequence.map (fun x =>
            if x.1.toNat ≤ 18 then
              (indexed p.codes x.1.toNat).map (fun e => clEntryBits e x.1.toNat (x.2.getD 0).toNat)
            else none)))
  else none

/-- One block that starts at stream position `k` (R61 to R66). -/
def blockBits (k : Nat) (b : Block) : Option (List Bool) :=
  match b.payload with
  | .stored len nlen rawBytes =>
    some (headerBits b.isFinal.toNat 0 ++ padBits (k + 3) ++ lsbBits len.toNat 16 ++ lsbBits nlen.toNat 16 ++
      rawBytes.flatMap (fun x => lsbBits x.toNat 8))
  | .fixedHuffman h => concatBits [some (headerBits b.isFinal.toNat 1), symbolStreamBits h]
  | .dynamicHuffman p h => concatBits [some (headerBits b.isFinal.toNat 2), dynamicBits p, symbolStreamBits h]

/-- The blocks in order, each starting where the one before it ended (R60). -/
def blocksBits (k : Nat) : List Block → Option (List Bool)
  | [] => some []
  | b :: bs =>
    match blockBits k b with
    | none => none
    | some bits =>
      match blocksBits (k + bits.length) bs with
      | none => none
      | some rest => some (bits ++ rest)

/-- The zlib header (R67). -/
def envelopeBits : Option ZlibEnvelope → List Bool
  | none => []
  | some e =>
    lsbBits e.cm.toNat 4 ++ lsbBits e.cinfo.toNat 4 ++ lsbBits e.fcheck.toNat 5 ++ lsbBits e.fdict.toNat 1 ++
      lsbBits e.flevel.toNat 2

/-- The trailer bytes, which never enter the unit (45_zlib_envelope.md R172). -/
def trailerBytes : Option ZlibEnvelope → List Byte
  | none => []
  | some e => e.trailer.toList

/-- All bits of a Stream up to the final padding (R60); none if some part of it cannot be encoded. -/
def streamBits (s : Stream) : Option (List Bool) :=
  match blocksBits (envelopeBits s.envelope).length s.blocks with
  | none => none
  | some bits => some (envelopeBits s.envelope ++ bits)

/-- The number a list of bits writes, the first bit lowest. -/
def bitsToNat : List Bool → Nat
  | [] => 0
  | b :: bs => b.toNat + 2 * bitsToNat bs

/-- Stream bits packed into bytes, eight to a byte from bit 0 upward, the last byte padded with zeros (R7, R68). -/
def packBytes : List Bool → List Byte
  | b0 :: b1 :: b2 :: b3 :: b4 :: b5 :: b6 :: b7 :: rest =>
    BitVec.ofNat 8 (bitsToNat [b0, b1, b2, b3, b4, b5, b6, b7]) :: packBytes rest
  | [] => []
  | short => [BitVec.ofNat 8 (bitsToNat short)]

/-- The complete byte sequence of a Stream (R60): the packed bits, then the trailer. -/
def streamBytes (s : Stream) : Option (List Byte) :=
  (streamBits s).map (fun bits => packBytes bits ++ trailerBytes s.envelope)

end Sys2Proof.Machine
end

