-- ==== Sys2Proof/Machine/Encoder.lean ====
section
/-!
DEFINITION. The top-level function of the unit and its host (46_stream_assembler.md R189): reset, the commands of a Stream
executed in order, and the result with the trailer the host appends (45_zlib_envelope.md R172).
-/
namespace Sys2Proof.Machine

/-- `k` steps, stopping at the first stop. -/
def runSteps : Nat → State → Outcome
  | 0, s => .next s
  | k + 1, s =>
    match step s with
    | .next t => runSteps k t
    | .fault r => .fault r
    | .refused r => .refused r

/-- Commands executed in order on a state, stopping at the first stop (20_memory.md R53). -/
def execAll : List Instr → State → Outcome
  | [], s => .next s
  | i :: is, s =>
    match exec i s with
    | .next t => execAll is t
    | .fault r => .fault r
    | .refused r => .refused r

/-- The host's final result: after `Ok(OUT)` the trailer bytes are appended (R172, R188); an error stays an error, and no
partial byte sequence is a result (60_exceptions.md R210). -/
def finalResult (e : Option ZlibEnvelope) : Result → Result
  | .ok bytes => .ok (bytes ++ trailerBytes e)
  | .error k => .error k
  | .pending => .pending

/-- `encode(S)` of R189: reset, the words of `compile(S)` offered and run, and the result read off the status. It is none
only for a Stream of 2^64 or more commands, which the machine refuses (10_state.md R20). -/
def encodeStream (s : Stream) : Option Result :=
  let words := (compile s).map Sys2Proof.encode
  match runSteps words.length (offer State.reset words) with
  | .next t => some (finalResult s.envelope t.result)
  | .fault _ => none
  | .refused _ => none

end Sys2Proof.Machine
end

