-- ==== Sys2Proof/Machine/Instances.lean ====
section
/-!
DEFINITION. Several independent instances of the unit (60_exceptions.md R215): each has all its state to itself, and an event
at one of them, a step or a reset, concerns no other.
-/
namespace Sys2Proof.Machine

/-- A step of instance `k` among several; where it has no next state, or there is no instance `k`, nothing changes. -/
def stepInstance (k : Nat) (instances : List State) : List State :=
  match instances[k]? with
  | none => instances
  | some s =>
    match step s with
    | .next t => instances.set k t
    | .fault _ => instances
    | .refused _ => instances

/-- A reset of instance `k` (R215: an instance starts only by its own reset). -/
def resetInstance (k : Nat) (instances : List State) : List State := instances.modify k applyReset

end Sys2Proof.Machine
end

