-- ==== Sys2Proof/Machine/ReadBack.lean ====
section
/-!
DEFINITION. The output as a bit sequence (00_scope.md R7) and the read-back functions in which the spec states its testable
properties (20_memory.md R47).
-/
namespace Sys2Proof.Machine

/-- The eight stream bits of one byte, bit 0 first (R7, 20_memory.md R42). -/
def byteBits (b : Byte) : List Bool := (List.range 8).map b.getLsbD

/-- The stream bits of a byte sequence, earliest first (R7). -/
def bytesBits (bytes : List Byte) : List Bool := bytes.flatMap byteBits

/-- All bits appended to a BitBuffer since reset, earliest first: those of `OUT`, then the pending bits of `acc`
(10_state.md R12). -/
def BitBuffer.bits (b : BitBuffer) : List Bool :=
  bytesBits b.out ++ (List.range b.nbits.toNat).map b.acc.getLsbD

/-- The number of bits appended since reset (10_state.md R14). -/
def BitBuffer.bitCount (b : BitBuffer) : Nat := 8 * b.out.length + b.nbits.toNat

/-- `OUT` as cells: each byte with its address, from 0 in rising order (20_memory.md R40, R51). An address that is not listed
holds no byte. -/
def BitBuffer.cells (b : BitBuffer) : List Host.Cell := b.out.zipIdx.map (fun x => (x.2, x.1))

/-- The canonical form of a list of cells: addresses strictly rising. -/
abbrev Memory.wf (cells : List Host.Cell) : Prop := (cells.map (fun c => c.1)).Pairwise (· < ·)

/-- `bit(B, k)` (R47). R47 gives it no value for `k` at or beyond `8*|B|`, where `B` has no byte: there the model answers 0
(DESIGN CHOICE, unsafe, log entry 18), and so `readLsb` and `readMsb` read zeros past the end. -/
def streamBit (bytes : List Byte) (k : Nat) : Bool := ((bytes[k / 8]?).getD 0).getLsbD (k % 8)

/-- `read_lsb(B, k, n)` (R47): the bit read first is bit 0. -/
def readLsb (bytes : List Byte) (k : Nat) : Nat → Nat
  | 0 => 0
  | n + 1 => readLsb bytes k n + (streamBit bytes (k + n)).toNat * 2 ^ n

/-- `read_msb(B, k, n)` (R47): the bit read first is bit `n-1`. -/
def readMsb (bytes : List Byte) (k : Nat) : Nat → Nat
  | 0 => 0
  | n + 1 => 2 * readMsb bytes k n + (streamBit bytes (k + n)).toNat

/-- `rev_n(m)`: bit `i` of it is bit `n-1-i` of `m` (40_bitbuffer.md R97). -/
def reverseBits (m : Nat) : Nat → Nat
  | 0 => 0
  | n + 1 => (m.testBit n).toNat + 2 * reverseBits m n

end Sys2Proof.Machine
end

