-- ==== Sys2Proof/Safety.lean ====
section
/-!
DEFINITION. What claims about the unit are stated in: the invariants of its state, the rows of the phase table and of the
legality matrix as the spec prints them, and the opcode table's masks.
-/
namespace Sys2Proof.Machine

/-! ### Invariants -/

/-- The BitBuffer invariant (10_state.md R12, R14): the bits of `acc` at `nbits` and above are 0. That `nbits` is at most 7
is its type. -/
def BitBuffer.Inv (b : BitBuffer) : Prop := b.acc.toNat < 2 ^ b.nbits.toNat

/-- The canonical form of a table of `n` symbols (10_state.md R24 to R27): symbols in range and strictly rising. -/
def Table.Inv {α : Type} (n : Nat) (t : Table α) : Prop :=
  (t.map (·.1)).Pairwise (· < ·) ∧ ∀ e ∈ t, e.1 < n

/-- The canonical form of all four tables. -/
def Tables.Inv (t : Tables) : Prop :=
  Table.Inv 288 t.ll ∧ Table.Inv 32 t.d ∧ Table.Inv 19 t.cl ∧ Table.Inv 19 t.cllen

/-- What holds after reset and after every step. -/
structure State.Inv (s : State) : Prop where
  /-- The BitBuffer invariant (10_state.md R14). -/
  buf : s.buf.Inv
  /-- In phase DONE nothing is pending (10_state.md R14). -/
  done : s.phase = .done → s.buf.nbits = 0#3 ∧ s.buf.acc = 0#8
  /-- `ld_phase` is nonzero only in phase HUFF (10_state.md R17). -/
  group : s.group ≠ .empty → s.phase = .huff
  /-- A latched length code is one of 257..285 (43_huffman_symbols.md R133). -/
  lengthCode : ∀ l, s.group.ldLc = some l → 257 ≤ l.toNat ∧ l.toNat ≤ 285
  /-- The tables are in canonical form (10_state.md R24 to R27). -/
  tables : s.tables.Inv
  /-- No entry is valid before a Huffman block is open: BLK_HDR invalidates all (46_stream_assembler.md R182) and loads are
  legal only in DYN_WAIT, DYN_CL and HUFF (R184). -/
  noTables : s.phase = .idle ∨ s.phase = .stWait ∨ s.phase = .stData → s.tables = Tables.invalid
  /-- `err_pc` is 0 until an error, and after it the frozen `pc` (10_state.md R20, R22). -/
  errPc : s.errPc = if s.err = none then 0#64 else s.pc

/-- The command the next step runs, unless an error is recorded: none if no word waits or the word does not decode. -/
def State.nextCommand (s : State) : Option Instr :=
  match s.input with
  | [] => none
  | w :: _ =>
    match decode w with
    | .ok i => some i
    | .error _ => none

/-! ### Tables the spec prints -/

/-- The phases in which the matrix of 46_stream_assembler.md R184 has `MF` for a command, row by row. -/
def malformedIn : Command → List Phase
  | .putLsb => []
  | .putMsb => []
  | .align => []
  | .finish => [.stWait, .dynWait]
  | .tblLoad => [.idle, .stWait, .stData]
  | .cllSet => [.idle, .stWait, .stData, .dynCl, .huff]
  | .blkHdr => [.stWait, .dynWait]
  | .stLen => [.idle, .stData, .dynWait, .dynCl, .huff]
  | .raw => [.idle, .stWait, .dynWait, .dynCl, .huff]
  | .dynHdr => [.idle, .stWait, .stData, .dynCl, .huff]
  | .clsym => [.idle, .stWait, .stData, .dynWait, .huff]
  | .tok => [.idle, .stWait, .stData, .dynWait]

/-- The rows of the phase table of 46_stream_assembler.md R183: the phases a completing command may find, and the one it
leaves; none for a command the table does not list, which leaves the phase as it is. -/
def phaseRow : Instr → Option (List Phase × Phase)
  | .blkHdr _ btype =>
    if btype = 0#2 then some ([.idle, .stData, .dynCl, .huff], .stWait)
    else if btype = 1#2 then some ([.idle, .stData, .dynCl, .huff], .huff)
    else some ([.idle, .stData, .dynCl, .huff], .dynWait)
  | .stLen _ _ => some ([.stWait], .stData)
  | .dynHdr _ _ _ => some ([.dynWait], .dynCl)
  | .tok _ => some ([.dynCl, .huff], .huff)
  | .finish => some ([.idle, .stData, .dynCl, .huff], .done)
  | .putLsb _ _ => none
  | .putMsb _ _ => none
  | .align => none
  | .tblLoadLL _ _ _ => none
  | .tblLoadD _ _ _ => none
  | .tblLoadCL _ _ _ => none
  | .cllSet _ _ => none
  | .raw _ => none
  | .clsym _ _ => none

/-- The mask and the match of each row of spec/opcode_table.json (30_encoding.md R72 to R81). -/
def opcodeRows : List (Word × Word) :=
  [(0xFF03FFFF00000000, 0x0100000000000000), (0xFF03FFFF00000000, 0x0200000000000000),
   (0xFFFFFFFFFFFFFFFF, 0x0300000000000000), (0xFFFFFFFFFFFFFFFF, 0x0400000000000000),
   (0xFFC0000000000000, 0x1000000000000000), (0xFFC0000000000000, 0x1040000000000000),
   (0xFFC0000000000000, 0x1080000000000000), (0xFFFFFFFFFFFFE0F8, 0x1100000000000000),
   (0xFFFFFFFFFFFFFFF8, 0x2000000000000000), (0xFFFFFFFF00000000, 0x2100000000000000),
   (0xFFFFFFFFFFFFFF00, 0x2200000000000000), (0xFFFFFFFFFFFFC000, 0x2300000000000000),
   (0xFFFFFFFFFFFFE080, 0x2400000000000000), (0xFFFFFFFFFFFF0000, 0x2500000000000000)]

/-- The twelve assigned opcodes (30_encoding.md R82). -/
def opcodes : List (BitVec 8) :=
  [0x01, 0x02, 0x03, 0x04, 0x10, 0x11, 0x20, 0x21, 0x22, 0x23, 0x24, 0x25]

/-- The number of stream bits one completing command can append at most (70_reset_and_hazards.md R240). -/
def maxBits : Command → Nat
  | .putLsb => 32
  | .putMsb => 32
  | .align => 7
  | .finish => 7
  | .tblLoad => 0
  | .cllSet => 0
  | .blkHdr => 3
  | .stLen => 39
  | .raw => 8
  | .dynHdr => 71
  | .clsym => 39
  | .tok => 82

end Sys2Proof.Machine
end

