-- ==== Sys2Proof/Certificates/Slice0/Obligations.lean ====
section
/-!
DEFINITION. The statements about the unit that are put to the provers. Each docstring names the rules of spec/ it rests on.
`lastPc` is the last value of the command counter; a command that completes there is refused (10_state.md R20, log entry 2), so
every statement that a command completes has `s.pc ≠ lastPc` among its hypotheses.
-/

open Sys2Proof Sys2Proof.Machine

/-! ### Encoding -/

/-- 30_encoding.md R70, R72 to R81: no bit of any command's encoding is dropped. -/
def Obligations.DecodeAfterEncode : Prop :=
  ∀ i : Instr, decode (encode i) = .ok i

/-- 30_encoding.md R70 to R83: a word has one meaning, and the encoder gives the word back. -/
def Obligations.EncodeAfterDecode : Prop :=
  ∀ (w : Word) (i : Instr), decode w = .ok i → encode i = w

/-- 30_encoding.md R71: a word decodes iff it matches a row of the opcode table under the row's mask (an assigned opcode, zeros
where the format says so, and a table other than 3), and a word that does not decode raises IllegalCommand. -/
def Obligations.WordDecodesIffInOpcodeTable : Prop :=
  (∀ w : Word, (∃ i, decode w = .ok i) ↔ ∃ row ∈ opcodeRows, w &&& row.1 = row.2) ∧
  (∀ (w : Word) (e : Illegal) (s : State), decode w = .error e → s.err = none →
    stepWord w s = .next { s with err := some .illegalCommand, errPc := s.pc })

/-- 30_encoding.md R83 (a), (b), (c): which words are illegal, and under which of the three names. -/
def Obligations.IllegalWordsByName : Prop :=
  ∀ w : Word,
    (decode w = .error .reservedOpcode ↔ field w 56 8 ∉ opcodes) ∧
    (decode w = .error .reservedTable ↔ field w 56 8 = 0x10#8 ∧ field w 54 2 = 3#2) ∧
    (decode w = .error .mbzNotZero ↔
      field w 56 8 ∈ opcodes ∧ field w 56 8 ≠ 0x10#8 ∧ ∀ row ∈ opcodeRows, w &&& row.1 ≠ row.2)

/-- 30_encoding.md R73, R84: the example words of the spec, one of each opcode and of each table, decode to the commands they
are given for. -/
def Obligations.SpecExampleWordsDecode : Prop :=
  decode 0x010C000000000005 = .ok (.putLsb 3 5) ∧
  decode 0x0220000000000071 = .ok (.putMsb 8 0x71) ∧
  decode 0x0300000000000000 = .ok .align ∧
  decode 0x0400000000000000 = .ok .finish ∧
  decode 0x1008004100000071 = .ok (.tblLoadLL 65 0x71 8) ∧
  decode 0x1045000400000004 = .ok (.tblLoadD 4 4 5) ∧
  decode 0x1081001200000000 = .ok (.tblLoadCL 18 0 1) ∧
  decode 0x1100000000001201 = .ok (.cllSet 18 1) ∧
  decode 0x2000000000000005 = .ok (.blkHdr 1 2) ∧
  decode 0x21000000FFFA0005 = .ok (.stLen 5 0xFFFA) ∧
  decode 0x2200000000000001 = .ok (.raw 1) ∧
  decode 0x2300000000003800 = .ok (.dynHdr 0 0 14) ∧
  decode 0x2400000000001256 = .ok (.clsym 18 86) ∧
  decode 0x2500000000000100 = .ok (.tok 256)

/-! ### The step and the errors -/

/-- 60_exceptions.md R201: a word that decodes is taken from the stream and its command runs on the state that has consumed
it. -/
def Obligations.StepRunsDecodedCommand : Prop :=
  ∀ (s : State) (w : Word) (ws : List Word) (i : Instr), s.input = w :: ws → decode w = .ok i →
    step s = exec i { s with input := ws }

/-- 60_exceptions.md R203: a word that does not decode raises IllegalCommand, whatever the state is but for `err`. -/
def Obligations.StepOnIllegalWord : Prop :=
  ∀ (s : State) (w : Word) (ws : List Word) (e : Illegal), s.input = w :: ws → decode w = .error e → s.err = none →
    step s = .next { s with input := ws, err := some .illegalCommand, errPc := s.pc }

/-- 60_exceptions.md R202: once `err` is set a word that arrives is taken and changes nothing, and so does every command. -/
def Obligations.ErrorIsSticky : Prop :=
  ∀ s : State, s.err ≠ none →
    (∀ (w : Word) (ws : List Word), s.input = w :: ws → step s = .next { s with input := ws }) ∧
    (∀ i : Instr, exec i s = .next s)

/-- The model's choice (log entry 1): while no word has arrived the unit is idle, and all state is kept
(60_exceptions.md R214, 70_reset_and_hazards.md R231). -/
def Obligations.IdleUnitKeepsState : Prop :=
  ∀ s : State, s.input = [] → step s = .next s

/-- 60_exceptions.md R204: in phase DONE every command raises PostFinishWrite, `OUT` keeps its bytes, and the result is an
error. -/
def Obligations.FinishedUnitRejectsEveryCommand : Prop :=
  ∀ (i : Instr) (s : State), s.err = none → s.phase = .done →
    exec i s = .next { s with err := some .postFinishWrite, errPc := s.pc } ∧
    State.result { s with err := some .postFinishWrite, errPc := s.pc } = .error .postFinishWrite

/-- 60_exceptions.md R205: (a) a command other than TOK while a group is pending, and (b) a command in a phase for which the
matrix of 46_stream_assembler.md R184 has `MF`, raise MalformedField before any operand is looked at. -/
def Obligations.WrongPhaseOrPendingGroupIsMalformed : Prop :=
  ∀ (i : Instr) (s : State), s.err = none → s.phase ≠ .done →
    (s.group ≠ .empty ∧ i.command ≠ .tok) ∨ (s.group = .empty ∧ s.phase ∈ malformedIn i.command) →
    exec i s = .next { s with err := some .malformedField, errPc := s.pc }

/-- 60_exceptions.md R206, R207: a command that raises an error changes `err` and `err_pc` and nothing else, and so does a word
that raises one (which the step has taken from the stream). -/
def Obligations.ErrorChangesOnlyErrAndErrPc : Prop :=
  (∀ (i : Instr) (s t : State), s.err = none → exec i s = .next t → t.err ≠ none →
    t = { s with err := t.err, errPc := s.pc }) ∧
  (∀ (s t : State), s.err = none → step s = .next t → t.err ≠ none →
    t = { s with input := s.input.tail, err := t.err, errPc := s.pc })

/-- 70_reset_and_hazards.md R239: on every word and in every state the step answers a next state, and it is exactly one of
these: the word discarded, an error raised, or the command completed. -/
def Obligations.EveryStepIsOneOfThree : Prop :=
  ∀ (s : State) (w : Word) (ws : List Word), s.input = w :: ws → s.pc ≠ lastPc →
    ∃ t, step s = .next t ∧
      (s.err ≠ none → t = { s with input := ws }) ∧
      (s.err = none →
        (∃ k, t = { s with input := ws, err := some k, errPc := s.pc }) ∨ (t.err = none ∧ t.pc = s.pc + 1))

/-- 10_state.md R20: the machine never faults, and the one refusal is a command that would complete with the last value of the
counter. -/
def Obligations.StopsOnlyAtCounterEnd : Prop :=
  ∀ (i : Instr) (s : State),
    (∀ f, exec i s ≠ .fault f) ∧
    (∀ r, exec i s = .refused r → r = .pcExhausted ∧ s.pc = lastPc ∧ s.err = none) ∧
    (∀ t, s.pc = lastPc → exec i s = .next t → t.err ≠ none)

/-! ### Reset, status, invariants -/

/-- 10_state.md R34, 70_reset_and_hazards.md R230: from any state reset leaves the values of the table, and the status words
read 0. -/
def Obligations.ResetLeavesTheResetValues : Prop :=
  ∀ s : State,
    (applyReset s).buf.out = [] ∧ (applyReset s).buf.acc = 0#8 ∧ (applyReset s).buf.nbits = 0#3 ∧
    (applyReset s).phase = .idle ∧ (applyReset s).group.ldPhase = 0#2 ∧ (applyReset s).pc = 0#64 ∧
    (applyReset s).group.ldLc = none ∧ (applyReset s).group.ldLe = none ∧ (applyReset s).group.ldDc = none ∧
    errCode (applyReset s).err = 0#3 ∧ (applyReset s).errPc = 0#64 ∧
    (∀ sym, (applyReset s).tables.ll.lookup sym = none ∧ (applyReset s).tables.d.lookup sym = none ∧
      (applyReset s).tables.cl.lookup sym = none ∧ (applyReset s).tables.cllen.lookup sym = none) ∧
    (applyReset s).status = 0#32 ∧ (applyReset s).errPcWord = 0#64 ∧ (applyReset s).outLen = 0#64

/-- 10_state.md R33: the fields of STATUS, the other two words, and the result read off them. -/
def Obligations.StatusWordsShowTheState : Prop :=
  ∀ s : State,
    s.status.extractLsb' 0 3 = errCode s.err ∧
    (s.status.extractLsb' 3 1 = 1#1 ↔ s.phase = .done) ∧
    s.status.extractLsb' 4 3 = s.phase.code ∧
    s.status.extractLsb' 7 3 = s.buf.nbits ∧
    s.status.extractLsb' 10 2 = s.group.ldPhase ∧
    s.status.extractLsb' 12 20 = 0#20 ∧
    s.errPcWord = s.errPc ∧
    (s.buf.out.length < 2 ^ 64 → s.outLen.toNat = s.buf.out.length) ∧
    (s.result = .ok s.buf.out ↔ s.status.extractLsb' 3 1 = 1#1 ∧ s.status.extractLsb' 0 3 = 0#3) ∧
    (∀ k, s.result = .error k ↔ s.status.extractLsb' 0 3 = k.code) ∧
    (s.result = .pending ↔ s.status.extractLsb' 3 1 = 0#1 ∧ s.status.extractLsb' 0 3 = 0#3) ∧
    State.reset.status = 0#32 ∧ State.reset.errPcWord = 0#64 ∧ State.reset.outLen = 0#64

/-- The invariant holds after reset (10_state.md R14, R34). -/
def Obligations.ResetMeetsTheInvariant : Prop := State.reset.Inv

/-- Every step keeps the invariant (10_state.md R14, R17, R18, R20, R22, R24 to R27, 46_stream_assembler.md R182, R184). -/
def Obligations.StepKeepsTheInvariant : Prop :=
  ∀ s t : State, s.Inv → step s = .next t → t.Inv

/-! ### The BitBuffer -/

/-- 40_bitbuffer.md R90: `push_bit`, which keeps the BitBuffer invariant. -/
def Obligations.PushBitFillsAndFlushes : Prop :=
  ∀ (bit : Bool) (b : BitBuffer),
    (b.nbits ≠ 7#3 → b.pushBit bit =
      { out := b.out, acc := b.acc ||| ((BitVec.ofBool bit).setWidth 8 <<< b.nbits.toNat), nbits := b.nbits + 1 }) ∧
    (b.nbits = 7#3 → b.pushBit bit =
      { out := b.out ++ [b.acc ||| ((BitVec.ofBool bit).setWidth 8 <<< 7)], acc := 0, nbits := 0 }) ∧
    (b.Inv → (b.pushBit bit).Inv)

/-- 40_bitbuffer.md R91: `put_lsb` pushes bits 0, 1, ..., n-1 in that order and ignores the bits at n and above. -/
def Obligations.PutLsbPushesUpward : Prop :=
  ∀ (v n : Nat) (b : BitBuffer), 1 ≤ n → n ≤ 32 →
    b.putLsb v n = (List.range n).foldl (fun x i => x.pushBit (v.testBit i)) b ∧
    b.putLsb v n = b.putLsb (v % 2 ^ n) n

/-- 40_bitbuffer.md R92: `put_msb` pushes bits n-1, n-2, ..., 0 in that order and ignores the bits at n and above. -/
def Obligations.PutMsbPushesDownward : Prop :=
  ∀ (v n : Nat) (b : BitBuffer), 1 ≤ n → n ≤ 32 →
    b.putMsb v n = (List.range n).reverse.foldl (fun x i => x.pushBit (v.testBit i)) b ∧
    b.putMsb v n = b.putMsb (v % 2 ^ n) n

/-- 40_bitbuffer.md R97: the closed form of both appends. -/
def Obligations.AppendClosedForm : Prop :=
  ∀ (v n : Nat) (b : BitBuffer), b.Inv → 1 ≤ n → n ≤ 32 →
    (b.putLsb v n).out = b.out ++ (List.range ((b.nbits.toNat + n) / 8)).map
      (fun j => BitVec.ofNat 8 ((b.acc.toNat ||| ((v % 2 ^ n) <<< b.nbits.toNat)) >>> (8 * j))) ∧
    (b.putLsb v n).acc.toNat =
      (b.acc.toNat ||| ((v % 2 ^ n) <<< b.nbits.toNat)) >>> (8 * ((b.nbits.toNat + n) / 8)) ∧
    (b.putLsb v n).nbits.toNat = (b.nbits.toNat + n) % 8 ∧
    b.putMsb v n = b.putLsb (reverseBits (v % 2 ^ n) n) n

/-- 40_bitbuffer.md R98: (a), (b) a field read back in its own order from any bytes that extend the output gives the value that
was appended, and (c) `align()` after `k` pending bits appends exactly `8-k` zero bits, and nothing after none. -/
def Obligations.ReadBackGivesTheValue : Prop :=
  ∀ (v n : Nat) (b : BitBuffer), b.Inv → 1 ≤ n → n ≤ 32 → v < 2 ^ n →
    (∀ bytes, (b.putLsb v n).bits <+: bytesBits bytes → readLsb bytes b.bitCount n = v) ∧
    (∀ bytes, (b.putMsb v n).bits <+: bytesBits bytes → readMsb bytes b.bitCount n = v) ∧
    (b.nbits ≠ 0#3 → b.align.bits = b.bits ++ List.replicate (8 - b.nbits.toNat) false) ∧
    (b.nbits = 0#3 → b.align = b)

/-- 40_bitbuffer.md R99 (a): both appends split. -/
def Obligations.AppendsSplit : Prop :=
  ∀ (v k l : Nat) (b : BitBuffer),
    b.putLsb v (k + l) = (b.putLsb v k).putLsb (v >>> k) l ∧
    b.putMsb v (k + l) = (b.putMsb (v >>> l) k).putMsb v l

/-- 40_bitbuffer.md R99 (b), (c), (d): the number of bits appended, the stability of the bytes in `OUT`, and the boundary
`align()` reaches. -/
def Obligations.AppendsGrowTheOutput : Prop :=
  ∀ (v n : Nat) (b : BitBuffer),
    (b.putLsb v n).bitCount = b.bitCount + n ∧ (b.putMsb v n).bitCount = b.bitCount + n ∧
    b.align.bitCount = b.bitCount + (8 - b.nbits.toNat) % 8 ∧
    b.out <+: (b.putLsb v n).out ∧ b.out <+: (b.putMsb v n).out ∧ b.out <+: b.align.out ∧
    b.align.nbits = 0#3 ∧ b.align.bitCount % 8 = 0

/-- 20_memory.md R49: padding is zero bits up to the boundary, `8-k` of them after `k` pending bits and none after none, and
FINISH pads the same way. -/
def Obligations.PaddingIsZeroBits : Prop :=
  (∀ b : BitBuffer, b.Inv →
    (b.nbits ≠ 0#3 → b.align.bits = b.bits ++ List.replicate (8 - b.nbits.toNat) false ∧
      b.align = { out := b.out ++ [b.acc], acc := 0, nbits := 0 }) ∧
    (b.nbits = 0#3 → b.align = b)) ∧
  (∀ s t : State, s.err = none → exec .finish s = .next t → t.err = none → t.buf = s.buf.align)

/-- 20_memory.md R45, R46: an aligned 16-bit field LSB-first is its two bytes in little-endian order, and an aligned 8-bit field
MSB-first is its byte reversed bit by bit. -/
def Obligations.AlignedFieldsAreLittleEndian : Prop :=
  ∀ (v : BitVec 16) (c : BitVec 8) (out : List Byte),
    BitBuffer.putLsb v.toNat 16 { out := out, acc := 0, nbits := 0 } =
      { out := out ++ [v.extractLsb' 0 8, v.extractLsb' 8 8], acc := 0, nbits := 0 } ∧
    BitBuffer.putMsb c.toNat 8 { out := out, acc := 0, nbits := 0 } =
      { out := out ++ [c.reverse], acc := 0, nbits := 0 }

/-- 10_state.md R12, R14: under the invariant a BitBuffer is determined by the bits appended to it. -/
def Obligations.BitsDetermineTheBuffer : Prop :=
  ∀ b c : BitBuffer, b.Inv → c.Inv → b.bits = c.bits → b = c

/-! ### What each command does -/

/-- 40_bitbuffer.md R93, R94: PUT_LSB and PUT_MSB. -/
def Obligations.PutCommandsResult : Prop :=
  ∀ (n : BitVec 6) (value : BitVec 32) (s : State), s.err = none → s.group = .empty → s.phase ≠ .done →
    (1 ≤ n.toNat → n.toNat ≤ 32 → s.pc ≠ lastPc →
      exec (.putLsb n value) s = .next { s with buf := s.buf.putLsb value.toNat n.toNat, pc := s.pc + 1 } ∧
      exec (.putMsb n value) s = .next { s with buf := s.buf.putMsb value.toNat n.toNat, pc := s.pc + 1 }) ∧
    (n.toNat = 0 ∨ 32 < n.toNat →
      exec (.putLsb n value) s = .next { s with err := some .invalidBitWidth, errPc := s.pc } ∧
      exec (.putMsb n value) s = .next { s with err := some .invalidBitWidth, errPc := s.pc })

/-- 40_bitbuffer.md R95, R96: ALIGN, and FINISH in the phases where a block is complete. -/
def Obligations.AlignAndFinishResult : Prop :=
  ∀ s : State, s.err = none → s.group = .empty → s.pc ≠ lastPc →
    (s.phase ≠ .done → exec .align s = .next { s with buf := s.buf.align, pc := s.pc + 1 }) ∧
    (s.phase = .idle ∨ s.phase = .stData ∨ s.phase = .dynCl ∨ s.phase = .huff →
      exec .finish s = .next { s with buf := s.buf.align, phase := .done, pc := s.pc + 1 })

/-- 41_huffman_table.md R110: TBL_LOAD into each table sets the entry of its symbol, leaves every other symbol of every table and
all other state as they were, and raises MalformedField for a symbol outside the table. -/
def Obligations.TableLoadResult : Prop :=
  ∀ (sym : BitVec 16) (code : BitVec 32) (len : BitVec 6) (s : State), s.err = none → s.group = .empty →
    s.phase = .dynWait ∨ s.phase = .dynCl ∨ s.phase = .huff →
    (s.pc ≠ lastPc →
      (sym.toNat ≤ 287 → ∃ ll, exec (.tblLoadLL sym code len) s =
          .next { s with tables := { s.tables with ll := ll }, pc := s.pc + 1 } ∧
        ll.lookup sym.toNat = some { len := len, code := code } ∧
        ∀ other, other ≠ sym.toNat → ll.lookup other = s.tables.ll.lookup other) ∧
      (sym.toNat ≤ 31 → ∃ d, exec (.tblLoadD sym code len) s =
          .next { s with tables := { s.tables with d := d }, pc := s.pc + 1 } ∧
        d.lookup sym.toNat = some { len := len, code := code } ∧
        ∀ other, other ≠ sym.toNat → d.lookup other = s.tables.d.lookup other) ∧
      (sym.toNat ≤ 18 → ∃ cl, exec (.tblLoadCL sym code len) s =
          .next { s with tables := { s.tables with cl := cl }, pc := s.pc + 1 } ∧
        cl.lookup sym.toNat = some { len := len, code := code } ∧
        ∀ other, other ≠ sym.toNat → cl.lookup other = s.tables.cl.lookup other)) ∧
    (287 < sym.toNat →
      exec (.tblLoadLL sym code len) s = .next { s with err := some .malformedField, errPc := s.pc }) ∧
    (31 < sym.toNat →
      exec (.tblLoadD sym code len) s = .next { s with err := some .malformedField, errPc := s.pc }) ∧
    (18 < sym.toNat →
      exec (.tblLoadCL sym code len) s = .next { s with err := some .malformedField, errPc := s.pc })

/-- 41_huffman_table.md R111: CLL_SET. -/
def Obligations.CllSetResult : Prop :=
  ∀ (sym : BitVec 5) (len3 : BitVec 3) (s : State), s.err = none → s.group = .empty → s.phase = .dynWait →
    (sym.toNat ≤ 18 → s.pc ≠ lastPc → ∃ cllen, exec (.cllSet sym len3) s =
        .next { s with tables := { s.tables with cllen := cllen }, pc := s.pc + 1 } ∧
      cllen.lookup sym.toNat = some len3 ∧
      ∀ other, other ≠ sym.toNat → cllen.lookup other = s.tables.cllen.lookup other) ∧
    (18 < sym.toNat → exec (.cllSet sym len3) s = .next { s with err := some .malformedField, errPc := s.pc })

/-- 46_stream_assembler.md R180, R181: BLK_HDR, and that its two fields are the three bits of one. -/
def Obligations.BlockHeaderResult : Prop :=
  ∀ (bfinal : BitVec 1) (btype : BitVec 2) (s : State), s.err = none → s.group = .empty →
    s.phase = .idle ∨ s.phase = .stData ∨ s.phase = .dynCl ∨ s.phase = .huff →
    (btype ≠ 3#2 → s.pc ≠ lastPc → exec (.blkHdr bfinal btype) s = .next { s with
      buf := (s.buf.putLsb bfinal.toNat 1).putLsb btype.toNat 2
      tables := Tables.invalid
      phase := if btype = 0#2 then .stWait else if btype = 1#2 then .huff else .dynWait
      pc := s.pc + 1 }) ∧
    (btype = 3#2 → exec (.blkHdr bfinal btype) s = .next { s with err := some .malformedField, errPc := s.pc }) ∧
    (s.buf.putLsb bfinal.toNat 1).putLsb btype.toNat 2 = s.buf.putLsb (bfinal.toNat + 2 * btype.toNat) 3

/-- 46_stream_assembler.md R182: after a BLK_HDR that completes, whatever its type, no symbol is valid in any table and its check
raises UnknownSymbol. From then on an entry changes in a step only by a command that completes, which is either a load of that
very symbol, whose entry it then holds, or the next BLK_HDR, after which it is invalid: so the tables of a block are exactly the
entries loaded after its BLK_HDR. -/
def Obligations.BlockHeaderInvalidatesTables : Prop :=
  (∀ (bfinal : BitVec 1) (btype : BitVec 2) (s t : State), s.err = none → exec (.blkHdr bfinal btype) s = .next t →
    t.err = none → ∀ sym,
      t.tables.ll.lookup sym = none ∧ t.tables.d.lookup sym = none ∧ t.tables.cl.lookup sym = none ∧
      t.tables.cllen.lookup sym = none ∧
      checkCode t.tables.ll sym = .error .unknownSymbol ∧ checkCode t.tables.d sym = .error .unknownSymbol ∧
      checkCode t.tables.cl sym = .error .unknownSymbol) ∧
  (∀ (s t : State) (sym : Nat), step s = .next t →
    (t.tables.ll.lookup sym ≠ s.tables.ll.lookup sym → t.err = none ∧
      ((∃ bfinal btype, s.nextCommand = some (.blkHdr bfinal btype) ∧ t.tables.ll.lookup sym = none) ∨
        ∃ x code len, s.nextCommand = some (.tblLoadLL x code len) ∧ x.toNat = sym ∧
          t.tables.ll.lookup sym = some { len := len, code := code })) ∧
    (t.tables.d.lookup sym ≠ s.tables.d.lookup sym → t.err = none ∧
      ((∃ bfinal btype, s.nextCommand = some (.blkHdr bfinal btype) ∧ t.tables.d.lookup sym = none) ∨
        ∃ x code len, s.nextCommand = some (.tblLoadD x code len) ∧ x.toNat = sym ∧
          t.tables.d.lookup sym = some { len := len, code := code })) ∧
    (t.tables.cl.lookup sym ≠ s.tables.cl.lookup sym → t.err = none ∧
      ((∃ bfinal btype, s.nextCommand = some (.blkHdr bfinal btype) ∧ t.tables.cl.lookup sym = none) ∨
        ∃ x code len, s.nextCommand = some (.tblLoadCL x code len) ∧ x.toNat = sym ∧
          t.tables.cl.lookup sym = some { len := len, code := code })) ∧
    (t.tables.cllen.lookup sym ≠ s.tables.cllen.lookup sym → t.err = none ∧
      ((∃ bfinal btype, s.nextCommand = some (.blkHdr bfinal btype) ∧ t.tables.cllen.lookup sym = none) ∨
        ∃ x len3, s.nextCommand = some (.cllSet x len3) ∧ x.toNat = sym ∧ t.tables.cllen.lookup sym = some len3)))

/-- 42_stored_block.md R120: ST_LEN aligns and writes LEN and NLEN as given, which under the BitBuffer invariant are four bytes
on a boundary. -/
def Obligations.StoredLengthResult : Prop :=
  ∀ (len nlen : BitVec 16) (s : State), s.err = none → s.group = .empty → s.phase = .stWait → s.pc ≠ lastPc →
    exec (.stLen len nlen) s = .next { s with
      buf := (s.buf.align.putLsb len.toNat 16).putLsb nlen.toNat 16, phase := .stData, pc := s.pc + 1 } ∧
    (s.buf.Inv → (s.buf.align.putLsb len.toNat 16).putLsb nlen.toNat 16 =
      { out := s.buf.align.out ++ [len.extractLsb' 0 8, len.extractLsb' 8 8, nlen.extractLsb' 0 8, nlen.extractLsb' 8 8]
        acc := 0
        nbits := 0 })

/-- 42_stored_block.md R121: RAW appends its byte, which on an aligned buffer is one byte of `OUT`. -/
def Obligations.RawByteResult : Prop :=
  ∀ (byte : BitVec 8) (s : State), s.err = none → s.group = .empty → s.phase = .stData → s.pc ≠ lastPc →
    exec (.raw byte) s = .next { s with buf := s.buf.putLsb byte.toNat 8, pc := s.pc + 1 } ∧
    (s.buf.nbits = 0#3 → s.buf.acc = 0#8 →
      s.buf.putLsb byte.toNat 8 = { out := s.buf.out ++ [byte], acc := 0, nbits := 0 })

/-- 44_dynamic_preamble.md R150, R151: DYN_HDR writes the three counts and the first `hclen + 4` lengths in the order of
`CL_ORDER` (which the spec supplies from general knowledge, 10_state.md R30), or raises MalformedField if one of them was never
set. -/
def Obligations.DynamicHeaderResult : Prop :=
  ∀ (hlit hdist : BitVec 5) (hclen : BitVec 4) (s : State), s.err = none → s.group = .empty → s.phase = .dynWait →
    (∀ l : Nat → BitVec 3,
      (∀ k sym, k < hclen.toNat + 4 → clOrder[k]? = some sym → s.tables.cllen.lookup sym = some (l k)) →
      s.pc ≠ lastPc → exec (.dynHdr hlit hdist hclen) s = .next { s with
        buf := (List.range (hclen.toNat + 4)).foldl (fun b k => b.putLsb (l k).toNat 3)
          (((s.buf.putLsb hlit.toNat 5).putLsb hdist.toNat 5).putLsb hclen.toNat 4)
        phase := .dynCl
        pc := s.pc + 1 }) ∧
    ((∃ k sym, k < hclen.toNat + 4 ∧ clOrder[k]? = some sym ∧ s.tables.cllen.lookup sym = none) →
      exec (.dynHdr hlit hdist hclen) s = .next { s with err := some .malformedField, errPc := s.pc })

/-- 44_dynamic_preamble.md R152: CLSYM and its three checks in order. The counts of extra bits are `CLX`, of which the spec
supplies two from general knowledge (10_state.md R31). -/
def Obligations.CodeLengthSymbolResult : Prop :=
  ∀ (sym : BitVec 5) (extra : BitVec 7) (s : State), s.err = none → s.group = .empty → s.phase = .dynCl →
    (18 < sym.toNat → exec (.clsym sym extra) s = .next { s with err := some .malformedField, errPc := s.pc }) ∧
    (sym.toNat ≤ 18 → s.tables.cl.lookup sym.toNat = none →
      exec (.clsym sym extra) s = .next { s with err := some .unknownSymbol, errPc := s.pc }) ∧
    (∀ e, sym.toNat ≤ 18 → s.tables.cl.lookup sym.toNat = some e →
      (e.len.toNat = 0 ∨ 32 < e.len.toNat →
        exec (.clsym sym extra) s = .next { s with err := some .invalidBitWidth, errPc := s.pc }) ∧
      (1 ≤ e.len.toNat → e.len.toNat ≤ 32 → s.pc ≠ lastPc →
        (sym.toNat ≤ 15 → exec (.clsym sym extra) s =
          .next { s with buf := s.buf.putMsb e.code.toNat e.len.toNat, pc := s.pc + 1 }) ∧
        (sym.toNat = 16 → exec (.clsym sym extra) s =
          .next { s with buf := (s.buf.putMsb e.code.toNat e.len.toNat).putLsb extra.toNat 2, pc := s.pc + 1 }) ∧
        (sym.toNat = 17 → exec (.clsym sym extra) s =
          .next { s with buf := (s.buf.putMsb e.code.toNat e.len.toNat).putLsb extra.toNat 3, pc := s.pc + 1 }) ∧
        (sym.toNat = 18 → exec (.clsym sym extra) s =
          .next { s with buf := (s.buf.putMsb e.code.toNat e.len.toNat).putLsb extra.toNat 7, pc := s.pc + 1 })))

/-- 43_huffman_symbols.md R131: a literal or end-of-block token. -/
def Obligations.LiteralTokenResult : Prop :=
  ∀ (v : Token) (s : State), s.err = none → s.group = .empty → s.phase = .dynCl ∨ s.phase = .huff → v.toNat ≤ 256 →
    (s.tables.ll.lookup v.toNat = none →
      exec (.tok v) s = .next { s with err := some .unknownSymbol, errPc := s.pc }) ∧
    (∀ e, s.tables.ll.lookup v.toNat = some e →
      (e.len.toNat = 0 ∨ 32 < e.len.toNat →
        exec (.tok v) s = .next { s with err := some .invalidBitWidth, errPc := s.pc }) ∧
      (1 ≤ e.len.toNat → e.len.toNat ≤ 32 → s.pc ≠ lastPc →
        exec (.tok v) s =
          .next { s with buf := s.buf.putMsb e.code.toNat e.len.toNat, phase := .huff, pc := s.pc + 1 }))

/-- 43_huffman_symbols.md R132: a head token of 286 or more raises MalformedField, whatever the tables hold. -/
def Obligations.HeadTokenOutOfRangeIsMalformed : Prop :=
  ∀ (v : Token) (s : State), s.err = none → s.group = .empty → s.phase = .dynCl ∨ s.phase = .huff → 286 ≤ v.toNat →
    exec (.tok v) s = .next { s with err := some .malformedField, errPc := s.pc }

/-- 43_huffman_symbols.md R133: a length code opens a group. -/
def Obligations.LengthCodeOpensGroup : Prop :=
  ∀ (v : Token) (s : State), s.err = none → s.group = .empty → s.phase = .dynCl ∨ s.phase = .huff →
    257 ≤ v.toNat → v.toNat ≤ 285 → s.pc ≠ lastPc →
    exec (.tok v) s = .next { s with group := .lc v, phase := .huff, pc := s.pc + 1 }

/-- 43_huffman_symbols.md R134: the second and the third token of a group are latched by position, whatever their value. -/
def Obligations.GroupTokensAreLatched : Prop :=
  ∀ (v : Token) (s : State), s.err = none → s.phase = .huff → s.pc ≠ lastPc →
    (∀ lc, s.group = .lc lc → exec (.tok v) s = .next { s with group := .lcLe lc v, pc := s.pc + 1 }) ∧
    (∀ lc le, s.group = .lcLe lc le → exec (.tok v) s = .next { s with group := .lcLeDc lc le v, pc := s.pc + 1 })

/-- 43_huffman_symbols.md R135, R136: the fourth token of a group. The checks apply in their order, and a group that passes
them is emitted whole, an extra-bits field of count 0 not at all. A latched length code is one of 257 to 285 (R133, kept by
`State.Inv`), which the emission has as its premise, because `LEXT` is defined there only (10_state.md R28). -/
def Obligations.GroupCommitResult : Prop :=
  ∀ (lc le dc de : Token) (s : State), s.err = none → s.phase = .huff → s.group = .lcLeDc lc le dc →
    (s.tables.ll.lookup lc.toNat = none →
      exec (.tok de) s = .next { s with err := some .unknownSymbol, errPc := s.pc }) ∧
    (∀ l, s.tables.ll.lookup lc.toNat = some l →
      (l.len.toNat = 0 ∨ 32 < l.len.toNat →
        exec (.tok de) s = .next { s with err := some .invalidBitWidth, errPc := s.pc }) ∧
      (1 ≤ l.len.toNat → l.len.toNat ≤ 32 →
        (30 ≤ dc.toNat → exec (.tok de) s = .next { s with err := some .malformedField, errPc := s.pc }) ∧
        (dc.toNat ≤ 29 → s.tables.d.lookup dc.toNat = none →
          exec (.tok de) s = .next { s with err := some .unknownSymbol, errPc := s.pc }) ∧
        (∀ d, dc.toNat ≤ 29 → s.tables.d.lookup dc.toNat = some d →
          (d.len.toNat = 0 ∨ 32 < d.len.toNat →
            exec (.tok de) s = .next { s with err := some .invalidBitWidth, errPc := s.pc }) ∧
          (257 ≤ lc.toNat → lc.toNat ≤ 285 → 1 ≤ d.len.toNat → d.len.toNat ≤ 32 → s.pc ≠ lastPc →
            exec (.tok de) s = .next { s with
              buf := (((s.buf.putMsb l.code.toNat l.len.toNat).putLsb le.toNat (lext lc.toNat)).putMsb
                d.code.toNat d.len.toNat).putLsb de.toNat (dext dc.toNat)
              group := .empty
              pc := s.pc + 1 }))))

/-- 41_huffman_table.md R112, R113: `lookup` answers by the valid bit and `check_code` tests absence first and the width
second. -/
def Obligations.CheckCodeOrder : Prop :=
  ∀ (t : Table Entry) (sym : Nat),
    (t.lookup sym = none → checkCode t sym = .error .unknownSymbol) ∧
    (∀ e, t.lookup sym = some e → e.len.toNat = 0 ∨ 32 < e.len.toNat → checkCode t sym = .error .invalidBitWidth) ∧
    (∀ e, t.lookup sym = some e → 1 ≤ e.len.toNat → e.len.toNat ≤ 32 → checkCode t sym = .ok e)

/-! ### What the commands leave unchanged -/

/-- 10_state.md R11, 20_memory.md R50: a byte once in `OUT` is never changed or removed by a step. -/
def Obligations.OutputBytesNeverChange : Prop :=
  ∀ (s t : State) (a : Nat) (x : Byte), step s = .next t → s.buf.read a = some x → t.buf.read a = some x

/-- 20_memory.md R41: a command stores at the end of `OUT` the whole bytes that its bits fill, and every other address reads as
before. -/
def Obligations.StoresOnlyTheBytesItFills : Prop :=
  ∀ (i : Instr) (s t : State), s.err = none → exec i s = .next t →
    ∀ a, ¬ (s.buf.out.length ≤ a ∧ a < s.buf.out.length + (s.buf.nbits.toNat + (commandBits i s).length) / 8) →
      t.buf.read a = s.buf.read a

/-- The "State written" lists of the command rules (40_bitbuffer.md R93 to R96, 41_huffman_table.md R110, R111,
42_stored_block.md R120, R121, 43_huffman_symbols.md R131 to R135, 44_dynamic_preamble.md R150, R152, 46_stream_assembler.md
R180): a command leaves every piece of state that its rule does not list as it was. TOK has its own clauses: with a group pending it
leaves the phase, as a literal or end of block the group, and where it opens a group or latches a token the buffer and the tokens
latched before. -/
def Obligations.CommandsWriteOnlyTheirListedState : Prop :=
  ∀ (i : Instr) (s t : State), exec i s = .next t →
    t.input = s.input ∧
    (i.command = .tblLoad ∨ i.command = .cllSet → t.buf = s.buf) ∧
    (i.command ≠ .finish → i.command ≠ .blkHdr → i.command ≠ .stLen → i.command ≠ .dynHdr → i.command ≠ .tok →
      t.phase = s.phase) ∧
    (i.command ≠ .tok → t.group = s.group) ∧
    (∀ v, i = .tok v →
      (s.group ≠ .empty → t.phase = s.phase) ∧
      (s.group = .empty → v.toNat ≤ 256 → t.group = s.group) ∧
      (s.group = .empty → 257 ≤ v.toNat → t.buf = s.buf) ∧
      (∀ lc, s.group = .lc lc → t.buf = s.buf ∧ t.group.ldLc = some lc) ∧
      (∀ lc le, s.group = .lcLe lc le → t.buf = s.buf ∧ t.group.ldLc = some lc ∧ t.group.ldLe = some le)) ∧
    ((∀ sym code len, i ≠ .tblLoadLL sym code len) → i.command ≠ .blkHdr → t.tables.ll = s.tables.ll) ∧
    ((∀ sym code len, i ≠ .tblLoadD sym code len) → i.command ≠ .blkHdr → t.tables.d = s.tables.d) ∧
    ((∀ sym code len, i ≠ .tblLoadCL sym code len) → i.command ≠ .blkHdr → t.tables.cl = s.tables.cl) ∧
    (i.command ≠ .cllSet → i.command ≠ .blkHdr → t.tables.cllen = s.tables.cllen) ∧
    ((t.err = s.err ∧ t.errPc = s.errPc) ∨ (s.err = none ∧ t.err ≠ none ∧ t.errPc = s.pc ∧ t.pc = s.pc)) ∧
    (t.pc = s.pc ∨ (s.err = none ∧ t.err = none ∧ t.pc = s.pc + 1))

/-- 46_stream_assembler.md R183: the phase table. A completing command goes by its row, a command that is not listed and a
command that faults leave the phase, `pc` counts up by one, IDLE is never entered again and DONE never left. -/
def Obligations.PhaseChangesByTheTable : Prop :=
  ∀ (i : Instr) (s t : State), s.Inv → exec i s = .next t →
    (s.err = none → t.err = none →
      match phaseRow i with
      | some (froms, dest) => s.phase ∈ froms ∧ t.phase = dest
      | none => t.phase = s.phase) ∧
    (s.err = none → t.err = none → t.pc = s.pc + 1) ∧
    (t.err ≠ none → t.phase = s.phase) ∧
    (s.phase ≠ .idle → t.phase ≠ .idle) ∧
    (s.phase = .done → t.phase = .done)

/-! ### The format of the output -/

/-- 30_encoding.md R61 to R66, R68, 20_memory.md R43, R44: a command that completes appends exactly the stream bits of the fields
that Part A gives it, and nothing else. -/
def Obligations.CommandAppendsItsFields : Prop :=
  ∀ (i : Instr) (s t : State), s.buf.Inv → s.err = none → exec i s = .next t → t.err = none →
    t.buf.Inv ∧ t.buf.bits = s.buf.bits ++ commandBits i s

/-- 70_reset_and_hazards.md R240, but for its last sentence: the most bits one command appends. By those numbers a commit that
finds 7 pending bits fills 11 bytes, and no command more (log entry 14). In a state that latches a length code outside 257 to
285, which no run reaches, the count of a commit rests on the model's `lext` there (log entry 7). -/
def Obligations.MostBitsOneCommandAppends : Prop :=
  ∀ (i : Instr) (s t : State), s.err = none → exec i s = .next t → t.err = none →
    t.buf.bitCount = s.buf.bitCount + (commandBits i s).length ∧
    (commandBits i s).length ≤ maxBits i.command ∧
    t.buf.out.length ≤ s.buf.out.length + 11

/-- The last sentence of 70_reset_and_hazards.md R240, an inference the spec marks as its own, which its other rules contradict
(log entry 14): it is expected to fail, since 7 pending bits and the 82 bits of a commit make 11 whole bytes. -/
def Obligations.OneCommandAppendsAtMostTenBytes : Prop :=
  ∀ (i : Instr) (s t : State), s.Inv → exec i s = .next t → t.buf.out.length ≤ s.buf.out.length + 10

/-- 43_huffman_symbols.md R137: a flat token list followed by FINISH or by a BLK_HDR runs without error iff it parses and every
symbol passes its lookups and checks, and then the bits appended are those of the symbols in order. -/
def Obligations.SymbolStreamMatchesParse : Prop :=
  ∀ (toks : List Token) (bfinal : BitVec 1) (btype : BitVec 2) (s : State), s.Inv → s.err = none → s.phase = .huff →
    s.group = .empty → btype ≠ 3#2 → s.pc.toNat + toks.length + 1 < 2 ^ 64 →
    match flatBitsIn s.tables toks with
    | some bits =>
      (∃ t, execAll (toks.map .tok ++ [.finish]) s = .next t ∧ t.err = none ∧ t.phase = .done ∧
        t.buf.bits = s.buf.bits ++ bits ++ padBits (s.buf.bitCount + bits.length)) ∧
      (∃ t, execAll (toks.map .tok ++ [.blkHdr bfinal btype]) s = .next t ∧ t.err = none ∧
        t.buf.bits = s.buf.bits ++ bits ++ headerBits bfinal.toNat btype.toNat)
    | none =>
      (∃ t, execAll (toks.map .tok ++ [.finish]) s = .next t ∧ t.err ≠ none) ∧
      (∃ t, execAll (toks.map .tok ++ [.blkHdr bfinal btype]) s = .next t ∧ t.err ≠ none)

/-- 43_huffman_symbols.md R137: LIT, EOB and LD are the inverse of `parse`. -/
def Obligations.ParseAndPseudoInstructionsAreInverse : Prop :=
  (∀ toks syms, parseTokens toks = some syms → syms.flatMap SymbolToken.commands = toks.map .tok) ∧
  (∀ toks syms, syms.flatMap SymbolToken.commands = toks.map .tok →
    (∀ lc le dc de, SymbolToken.lengthDistance lc le dc de ∈ syms → 257 ≤ lc.toNat ∧ lc.toNat ≤ 285) →
    parseTokens toks = some syms)

/-- 42_stored_block.md R122: a stored block of `r` raw bytes whose header starts at stream bit `k` ends on the byte boundary
`8 * ceil((k+3)/8) + 32 + 8r`, with nothing pending, and each RAW has added its byte. -/
def Obligations.StoredBlockEndsOnABoundary : Prop :=
  ∀ (bfinal : BitVec 1) (len nlen : BitVec 16) (bytes : List Byte) (s : State), s.buf.Inv → s.err = none →
    s.group = .empty → s.phase = .idle ∨ s.phase = .stData ∨ s.phase = .dynCl ∨ s.phase = .huff →
    s.pc.toNat + bytes.length + 2 < 2 ^ 64 →
    ∃ t, execAll (.blkHdr bfinal 0 :: .stLen len nlen :: bytes.map .raw) s = .next t ∧
      t.err = none ∧ t.phase = .stData ∧ t.buf.nbits = 0#3 ∧ t.buf.acc = 0#8 ∧
      t.buf.bitCount = 8 * ((s.buf.bitCount + 3 + 7) / 8) + 32 + 8 * bytes.length ∧
      ∃ before, t.buf.out = before ++
        [len.extractLsb' 0 8, len.extractLsb' 8 8, nlen.extractLsb' 0 8, nlen.extractLsb' 8 8] ++ bytes

/-- 45_zlib_envelope.md R170: ZHDR from reset appends the two header bytes and leaves the buffer aligned. -/
def Obligations.ZlibHeaderIsTwoBytes : Prop :=
  ∀ cm cinfo fcheck fdict flevel : BitVec 32,
    execAll (pseudoZhdr cm cinfo fcheck fdict flevel) State.reset = .next { State.reset with
      buf :=
        { out := [BitVec.ofNat 8 (cinfo.toNat % 16 * 16 + cm.toNat % 16),
            BitVec.ofNat 8 (flevel.toNat % 4 * 64 + fdict.toNat % 2 * 32 + fcheck.toNat % 32)]
          acc := 0
          nbits := 0 }
      pc := 5 }

/-- 46_stream_assembler.md R188, R189, 30_encoding.md R60 to R68: running the expansion of a Stream word by word from reset gives
the byte sequence that Part A describes and the trailer, and an error if some part of the Stream has no encoding. -/
def Obligations.EncoderProducesTheFormat : Prop :=
  ∀ stream : Sys2Proof.Machine.Stream, (compile stream).length < 2 ^ 64 →
    match streamBytes stream with
    | some bytes => encodeStream stream = some (.ok bytes)
    | none => ∃ k, encodeStream stream = some (.error k)

/-! ### A bounded output, several instances -/

/-- 20_memory.md R51, 92_eei_decisions.md D27: without a bound the bounded unit is the unit; with one it makes the same steps
while the bytes fit, and is stuck, with nothing written, where a step would append beyond the bound. -/
def Obligations.BoundedOutputIsStuckNotWrong : Prop :=
  ∀ (s t : State) (n : Nat),
    stepWithCap none s = step s ∧
    (step s = .next t → t.buf.out.length ≤ n → stepWithCap (some n) s = .next t) ∧
    (step s = .next t → s.buf.out.length ≤ n → n < t.buf.out.length → stepWithCap (some n) s = .fault .outputFull) ∧
    (stepWithCap (some n) s = .next t → step s = .next t ∧ (s.buf.out.length ≤ n → t.buf.out.length ≤ n))

/-- 60_exceptions.md R215: a step of one instance is the unit's own step on it and a reset its own reset, each leaves every other
instance as it is, and depends on no other. An instance whose step has no next state stays as it is. -/
def Obligations.InstancesAreIndependent : Prop :=
  ∀ (k : Nat) (xs ys : List State),
    (stepInstance k xs).length = xs.length ∧ (resetInstance k xs).length = xs.length ∧
    (∀ s, xs[k]? = some s →
      (∀ t, step s = .next t → (stepInstance k xs)[k]? = some t) ∧
      ((∀ t, step s ≠ .next t) → (stepInstance k xs)[k]? = some s) ∧
      (resetInstance k xs)[k]? = some State.reset) ∧
    (∀ j, j ≠ k → (stepInstance k xs)[j]? = xs[j]? ∧ (resetInstance k xs)[j]? = xs[j]?) ∧
    (xs[k]? = ys[k]? → (stepInstance k xs)[k]? = (stepInstance k ys)[k]? ∧
      (resetInstance k xs)[k]? = (resetInstance k ys)[k]?)

/-! ### The constant tables -/

/-- 10_state.md R28, R29: the counts of extra bits, code by code. -/
def Obligations.ExtraBitCounts : Prop :=
  (List.range 29).map (fun k => lext (257 + k)) =
    [0, 0, 0, 0, 0, 0, 0, 0, 1, 1, 1, 1, 2, 2, 2, 2, 3, 3, 3, 3, 4, 4, 4, 4, 5, 5, 5, 5, 0] ∧
  (List.range 30).map dext =
    [0, 0, 0, 0, 1, 1, 2, 2, 3, 3, 4, 4, 5, 5, 6, 6, 7, 7, 8, 8, 9, 9, 10, 10, 11, 11, 12, 12, 13, 13]

/-- 10_state.md R30, R31, 44_dynamic_preamble.md R151: the transmission order, which is a permutation of 0 to 18, and the counts
of extra bits of the code-length-alphabet symbols. The order and the counts 2 and 3 are the spec's from general knowledge (log
entry 8). -/
def Obligations.CodeLengthOrderAndCounts : Prop :=
  clOrder = [16, 17, 18, 0, 8, 7, 9, 6, 10, 5, 11, 4, 12, 3, 13, 2, 14, 1, 15] ∧
  clOrder.Perm (List.range 19) ∧
  (List.range 19).map clx = [0, 0, 0, 0, 0, 0, 0, 0, 0, 0, 0, 0, 0, 0, 0, 0, 2, 3, 7]
end

