-- ==== Sys2Proof/Laws/BitBuffer.lean ====
section
/-!
SUPPORT. What the BitBuffer operations do to the bit sequence and to the invariant (40_bitbuffer.md R90 to R95, 10_state.md
R14), and that the cells of `OUT` are always in canonical form.
-/
namespace Sys2Proof.Machine

/-! ### The bit sequence of a byte sequence -/

/-- The bits of two byte sequences one after the other. -/
theorem bytesBits_append (xs ys : List Byte) : bytesBits (xs ++ ys) = bytesBits xs ++ bytesBits ys := by
  simp [bytesBits]

/-- The bits of one byte. -/
theorem bytesBits_singleton (x : Byte) : bytesBits [x] = byteBits x := by
  simp [bytesBits]

/-! ### `push_bit` -/

/-- The accumulator after one more bit. -/
theorem acc_push_getLsbD {b : BitBuffer} (h : b.Inv) (bit : Bool) {i : Nat} (hi : i ≤ b.nbits.toNat) :
    (b.acc ||| ((BitVec.ofBool bit).setWidth 8 <<< b.nbits.toNat)).getLsbD i =
      if i = b.nbits.toNat then bit else b.acc.getLsbD i := by
  have hn : b.nbits.toNat < 8 := b.nbits.isLt
  by_cases he : i = b.nbits.toNat
  · have hz : b.acc.getLsbD b.nbits.toNat = false := by
      rw [BitVec.getLsbD]
      exact Nat.testBit_lt_two_pow h
    rw [he, BitVec.getLsbD_or, hz]
    simp [hn]
  · have hlt : i < b.nbits.toNat := by omega
    simp [he, hlt]

/-- `push_bit` appends its bit to the bit sequence. -/
theorem pushBit_bits {b : BitBuffer} (h : b.Inv) (bit : Bool) : (b.pushBit bit).bits = b.bits ++ [bit] := by
  have key : ∀ n, n ≤ b.nbits.toNat + 1 →
      (List.range n).map (b.acc ||| ((BitVec.ofBool bit).setWidth 8 <<< b.nbits.toNat)).getLsbD =
      (List.range n).map (fun i => if i = b.nbits.toNat then bit else b.acc.getLsbD i) := by
    intro n hn
    refine List.map_congr_left fun i hi => acc_push_getLsbD h bit ?_
    have := List.mem_range.mp hi
    omega
  have tail : (List.range (b.nbits.toNat + 1)).map (fun i => if i = b.nbits.toNat then bit else b.acc.getLsbD i) =
      (List.range b.nbits.toNat).map b.acc.getLsbD ++ [bit] := by
    rw [List.range_succ, List.map_append]
    congr 1
    · refine List.map_congr_left fun i hi => ?_
      have := List.mem_range.mp hi
      simp [Nat.ne_of_lt this]
    · simp
  by_cases h7 : b.nbits = 7#3
  · have h7n : b.nbits.toNat = 7 := by simp [h7]
    have e := key 8 (by omega)
    rw [h7n] at tail e
    have hp : b.pushBit bit =
        { out := b.out ++ [b.acc ||| ((BitVec.ofBool bit).setWidth 8 <<< 7)], acc := 0, nbits := 0 } := by
      simp [BitBuffer.pushBit, h7, BitBuffer.memAppend]
    rw [hp, BitBuffer.bits, BitBuffer.bits, h7n, bytesBits_append, bytesBits_singleton, byteBits, List.append_assoc,
      List.append_assoc, ← tail, ← e]
    simp
  · have hlt : b.nbits.toNat < 7 := by
      have h1 : b.nbits.toNat < 8 := b.nbits.isLt
      have h2 : b.nbits.toNat ≠ 7 := fun hh => h7 (BitVec.eq_of_toNat_eq (by simpa using hh))
      omega
    have hs : (b.nbits + 1).toNat = b.nbits.toNat + 1 := by
      simp [BitVec.toNat_add]
      omega
    simp only [BitBuffer.pushBit, h7, BitBuffer.bits, if_false]
    rw [hs, key _ (le_refl _), tail, List.append_assoc]

/-- `push_bit` keeps the BitBuffer invariant (R90). -/
theorem pushBit_inv {b : BitBuffer} (h : b.Inv) (bit : Bool) : (b.pushBit bit).Inv := by
  by_cases h7 : b.nbits = 7#3
  · simp [BitBuffer.pushBit, h7, BitBuffer.Inv]
  · have hlt : b.nbits.toNat < 7 := by
      have h1 : b.nbits.toNat < 8 := b.nbits.isLt
      have h2 : b.nbits.toNat ≠ 7 := fun hh => h7 (BitVec.eq_of_toNat_eq (by simpa using hh))
      omega
    have hs : (b.nbits + 1).toNat = b.nbits.toNat + 1 := by
      simp [BitVec.toNat_add]
      omega
    simp only [BitBuffer.pushBit, h7, if_false, BitBuffer.Inv, hs]
    refine Nat.lt_pow_two_of_testBit _ fun i hi => ?_
    have hi' : b.nbits.toNat < i := by omega
    have hz : b.acc.toNat.testBit i = false :=
      Nat.testBit_lt_two_pow (lt_of_lt_of_le h (Nat.pow_le_pow_right (by omega) (by omega)))
    have hb : (BitVec.ofBool bit).toNat.testBit (i - b.nbits.toNat) = false := by
      refine Nat.testBit_lt_two_pow (lt_of_lt_of_le (BitVec.ofBool bit).isLt ?_)
      exact Nat.pow_le_pow_right (by omega) (by omega)
    rw [← BitVec.getLsbD] at hz hb ⊢
    simp only [BitVec.getLsbD_or, hz, Bool.false_or, BitVec.getLsbD_shiftLeft, BitVec.getLsbD_setWidth, hb]
    simp

/-- `push_bit` adds one to the number of bits appended, whatever the buffer holds. -/
theorem pushBit_bitCount (b : BitBuffer) (bit : Bool) : (b.pushBit bit).bitCount = b.bitCount + 1 := by
  by_cases h7 : b.nbits = 7#3
  · simp [BitBuffer.pushBit, h7, BitBuffer.bitCount, BitBuffer.memAppend]
    omega
  · have hlt : b.nbits.toNat < 7 := by
      have h1 : b.nbits.toNat < 8 := b.nbits.isLt
      have h2 : b.nbits.toNat ≠ 7 := fun hh => h7 (BitVec.eq_of_toNat_eq (by simpa using hh))
      omega
    simp [BitBuffer.pushBit, h7, BitBuffer.bitCount, BitVec.toNat_add]
    omega

/-- `push_bit` only appends to `OUT` (20_memory.md R41). -/
theorem pushBit_out (b : BitBuffer) (bit : Bool) : b.out <+: (b.pushBit bit).out := by
  by_cases h7 : b.nbits = 7#3
  · simp [BitBuffer.pushBit, h7, BitBuffer.memAppend]
  · simp [BitBuffer.pushBit, h7]

/-! ### The appends -/

/-- `put_lsb` appends its field LSB-first and keeps the invariant (R91). -/
theorem putLsb_bits {b : BitBuffer} (h : b.Inv) (v n : Nat) :
    (b.putLsb v n).Inv ∧ (b.putLsb v n).bits = b.bits ++ lsbBits v n := by
  induction n with
  | zero => simp [BitBuffer.putLsb, lsbBits, h]
  | succ n ih =>
    refine ⟨pushBit_inv ih.1 _, ?_⟩
    simp only [BitBuffer.putLsb]
    rw [pushBit_bits ih.1, ih.2]
    simp [lsbBits, List.range_succ]

/-- `put_msb` appends its field MSB-first and keeps the invariant (R92). -/
theorem putMsb_bits {b : BitBuffer} (h : b.Inv) (v n : Nat) :
    (b.putMsb v n).Inv ∧ (b.putMsb v n).bits = b.bits ++ msbBits v n := by
  induction n generalizing b with
  | zero => simp [BitBuffer.putMsb, msbBits, h]
  | succ n ih =>
    simp only [BitBuffer.putMsb]
    have hi := ih (pushBit_inv h (v.testBit n))
    refine ⟨hi.1, ?_⟩
    rw [hi.2, pushBit_bits h]
    simp only [msbBits, List.range_succ_eq_map, List.map_cons, List.map_map, List.append_assoc, List.singleton_append]
    congr 2
    refine List.map_congr_left fun i _ => ?_
    simp only [Function.comp, Nat.succ_eq_add_one]
    congr 1
    omega

/-- `n` zero bits. -/
theorem putZeros_bits {b : BitBuffer} (h : b.Inv) (n : Nat) :
    (BitBuffer.putZeros n b).Inv ∧ (BitBuffer.putZeros n b).bits = b.bits ++ List.replicate n false := by
  induction n generalizing b with
  | zero => simp [BitBuffer.putZeros, h]
  | succ n ih =>
    have hi := ih (pushBit_inv h false)
    refine ⟨hi.1, ?_⟩
    simp only [BitBuffer.putZeros]
    rw [hi.2, pushBit_bits h, List.append_assoc]
    simp [List.replicate_succ]

/-- `align()` appends the padding of its position (R95). -/
theorem align_bits {b : BitBuffer} (h : b.Inv) :
    b.align.Inv ∧ b.align.bits = b.bits ++ padBits b.nbits.toNat := by
  have hp : b.padding = (8 - b.nbits.toNat % 8) % 8 := by
    have hn : b.nbits.toNat < 8 := b.nbits.isLt
    unfold BitBuffer.padding
    split
    · rename_i h0; simp [h0]
    · rename_i h0
      have : b.nbits.toNat ≠ 0 := fun hh => h0 (BitVec.eq_of_toNat_eq (by simpa using hh))
      omega
  simpa [BitBuffer.align, padBits, hp] using putZeros_bits h b.padding

/-! ### The memory -/

/-- The cells of `OUT` are in canonical form, whatever the buffer holds: addresses strictly rising. Every operation over the
memory therefore keeps it. -/
theorem cells_wf (b : BitBuffer) : Memory.wf b.cells := by
  unfold Memory.wf BitBuffer.cells
  simp only [List.map_map]
  rw [show ((fun c : Host.Cell => c.1) ∘ fun x : Byte × Nat => (x.2, x.1)) = Prod.snd from rfl, List.zipIdx_map_snd]
  exact List.pairwise_lt_range'

/-- The cells after a byte is appended: the old ones, and the byte at address `|OUT|` (20_memory.md R41). -/
theorem cells_memAppend (b : BitBuffer) (byte : Byte) :
    (b.memAppend byte).cells = b.cells ++ [(b.out.length, byte)] := by
  simp [BitBuffer.cells, BitBuffer.memAppend, List.zipIdx_append]

/-- The memory of the reset state lists nothing. -/
theorem reset_cells : State.reset.buf.cells = [] := rfl

end Sys2Proof.Machine
end

