-- ==== Sys2Proof/Laws/Encoding.lean ====
section
/-!
SUPPORT. Fields of command words: a field of what `place` puts into a word, bit by bit and whole. The encoder and the decoder
meet only through these.
-/
namespace Sys2Proof

/-- The bits of a placed field. -/
theorem getLsbD_place {k : Nat} (lo : Nat) (x : BitVec k) (i : Nat) :
    (place lo x).getLsbD i = (decide (i < 64) && (decide (lo ≤ i) && x.getLsbD (i - lo))) := by
  simp only [place, BitVec.getLsbD_shiftLeft, BitVec.getLsbD_setWidth]
  by_cases h1 : i < 64 <;> by_cases h2 : lo ≤ i <;> (simp [h1, h2, show i < lo ↔ ¬ lo ≤ i by omega]; try omega)

/-- The bits of a field. -/
theorem getLsbD_field (w : Word) (lo k i : Nat) : (field w lo k).getLsbD i = (decide (i < k) && w.getLsbD (lo + i)) := by
  simp [field]

/-- A field of a word put together from two. -/
theorem field_or (a b : Word) (lo k : Nat) : field (a ||| b) lo k = field a lo k ||| field b lo k := by
  simp [field, BitVec.extractLsb'_or]

/-- The field that was placed is what is read back. -/
theorem field_place_same {k : Nat} (lo : Nat) (x : BitVec k) (h : lo + k ≤ 64) : field (place lo x) lo k = x := by
  refine BitVec.eq_of_getLsbD_eq fun i hi => ?_
  have h64 : lo + i < 64 := by omega
  simp only [getLsbD_field, getLsbD_place, hi, h64, Nat.le_add_right, Nat.add_sub_cancel_left, decide_true, Bool.true_and]

/-- A field that does not meet the placed one is zero. -/
theorem field_place_other {j k : Nat} (lo lo' : Nat) (x : BitVec j) (h : lo' + k ≤ lo ∨ lo + j ≤ lo') :
    field (place lo x) lo' k = 0#k := by
  refine BitVec.eq_of_getLsbD_eq fun i hi => ?_
  rw [getLsbD_field, getLsbD_place, BitVec.getLsbD_zero]
  rcases h with h | h
  · have : ¬ lo ≤ lo' + i := by omega
    simp [this]
  · have : x.getLsbD (lo' + i - lo) = false := BitVec.getLsbD_of_ge _ _ (by omega)
    simp [this]

end Sys2Proof
end

