-- ==== Sys2Proof/Laws/PerInstr.lean ====
section
/-!
SUPPORT. Statements about every command as syntax, one lemma for each constructor: the encoder gives a command the opcode of
the opcode map (30_encoding.md R82) and zeros in every must-be-zero field of its format (R72 to R81).
-/
namespace Sys2Proof.Laws.EncodesFormat

/-- The opcode of a command (30_encoding.md R82). -/
def opcodeOf : Instr → BitVec 8
  | .putLsb _ _ => 0x01
  | .putMsb _ _ => 0x02
  | .align => 0x03
  | .finish => 0x04
  | .tblLoadLL _ _ _ => 0x10
  | .tblLoadD _ _ _ => 0x10
  | .tblLoadCL _ _ _ => 0x10
  | .cllSet _ _ => 0x11
  | .blkHdr _ _ => 0x20
  | .stLen _ _ => 0x21
  | .raw _ => 0x22
  | .dynHdr _ _ _ => 0x23
  | .clsym _ _ => 0x24
  | .tok _ => 0x25

/-- The must-be-zero fields of a command's format, each as its lowest bit and its width (R72 to R81). -/
def mbzOf : Instr → List (Nat × Nat)
  | .putLsb _ _ => [(32, 18)]
  | .putMsb _ _ => [(32, 18)]
  | .align => [(0, 56)]
  | .finish => [(0, 56)]
  | .tblLoadLL _ _ _ => []
  | .tblLoadD _ _ _ => []
  | .tblLoadCL _ _ _ => []
  | .cllSet _ _ => [(13, 43), (3, 5)]
  | .blkHdr _ _ => [(3, 53)]
  | .stLen _ _ => [(32, 24)]
  | .raw _ => [(8, 48)]
  | .dynHdr _ _ _ => [(14, 42)]
  | .clsym _ _ => [(13, 43), (7, 1)]
  | .tok _ => [(16, 40)]

/-- The encoding of a command has its opcode and zeros where its format says so. -/
def Statement (i : Instr) : Prop :=
  field (encode i) 56 8 = opcodeOf i ∧ ∀ f ∈ mbzOf i, field (encode i) f.1 f.2 = 0

theorem putLsb (n : BitVec 6) (value : BitVec 32) : Statement (.putLsb n value) := by
  simp [Statement, encode, opcodeOf, mbzOf, field_or, field_place_same, field_place_other]

theorem putMsb (n : BitVec 6) (value : BitVec 32) : Statement (.putMsb n value) := by
  simp [Statement, encode, opcodeOf, mbzOf, field_or, field_place_same, field_place_other]

theorem align : Statement .align := by
  simp [Statement, encode, opcodeOf, mbzOf, field_place_same, field_place_other]

theorem finish : Statement .finish := by
  simp [Statement, encode, opcodeOf, mbzOf, field_place_same, field_place_other]

theorem tblLoadLL (sym : BitVec 16) (code : BitVec 32) (len : BitVec 6) : Statement (.tblLoadLL sym code len) := by
  simp [Statement, encode, opcodeOf, mbzOf, field_or, field_place_same, field_place_other]

theorem tblLoadD (sym : BitVec 16) (code : BitVec 32) (len : BitVec 6) : Statement (.tblLoadD sym code len) := by
  simp [Statement, encode, opcodeOf, mbzOf, field_or, field_place_same, field_place_other]

theorem tblLoadCL (sym : BitVec 16) (code : BitVec 32) (len : BitVec 6) : Statement (.tblLoadCL sym code len) := by
  simp [Statement, encode, opcodeOf, mbzOf, field_or, field_place_same, field_place_other]

theorem cllSet (sym : BitVec 5) (len3 : BitVec 3) : Statement (.cllSet sym len3) := by
  simp [Statement, encode, opcodeOf, mbzOf, field_or, field_place_same, field_place_other]

theorem blkHdr (bfinal : BitVec 1) (btype : BitVec 2) : Statement (.blkHdr bfinal btype) := by
  simp [Statement, encode, opcodeOf, mbzOf, field_or, field_place_same, field_place_other]

theorem stLen (len nlen : BitVec 16) : Statement (.stLen len nlen) := by
  simp [Statement, encode, opcodeOf, mbzOf, field_or, field_place_same, field_place_other]

theorem raw (byte : BitVec 8) : Statement (.raw byte) := by
  simp [Statement, encode, opcodeOf, mbzOf, field_or, field_place_same, field_place_other]

theorem dynHdr (hlit hdist : BitVec 5) (hclen : BitVec 4) : Statement (.dynHdr hlit hdist hclen) := by
  simp [Statement, encode, opcodeOf, mbzOf, field_or, field_place_same, field_place_other]

theorem clsym (sym : BitVec 5) (extra : BitVec 7) : Statement (.clsym sym extra) := by
  simp [Statement, encode, opcodeOf, mbzOf, field_or, field_place_same, field_place_other]

theorem tok (v : Token) : Statement (.tok v) := by
  simp [Statement, encode, opcodeOf, mbzOf, field_or, field_place_same, field_place_other]

end Sys2Proof.Laws.EncodesFormat
end

