-- ==== Sys2Proof/Laws/State.lean ====
section
/-!
SUPPORT. One lemma for each field after each named update of the state, so that no proof unfolds a record update; and the
same for error entry.
-/
namespace Sys2Proof.Machine

/-! ### `setBuf` -/

@[simp] theorem setBuf_buf (s : State) (b : BitBuffer) : (s.setBuf b).buf = b := rfl
@[simp] theorem setBuf_phase (s : State) (b : BitBuffer) : (s.setBuf b).phase = s.phase := rfl
@[simp] theorem setBuf_group (s : State) (b : BitBuffer) : (s.setBuf b).group = s.group := rfl
@[simp] theorem setBuf_pc (s : State) (b : BitBuffer) : (s.setBuf b).pc = s.pc := rfl
@[simp] theorem setBuf_err (s : State) (b : BitBuffer) : (s.setBuf b).err = s.err := rfl
@[simp] theorem setBuf_errPc (s : State) (b : BitBuffer) : (s.setBuf b).errPc = s.errPc := rfl
@[simp] theorem setBuf_tables (s : State) (b : BitBuffer) : (s.setBuf b).tables = s.tables := rfl
@[simp] theorem setBuf_input (s : State) (b : BitBuffer) : (s.setBuf b).input = s.input := rfl

/-! ### `setPhase` -/

@[simp] theorem setPhase_buf (s : State) (p : Phase) : (s.setPhase p).buf = s.buf := rfl
@[simp] theorem setPhase_phase (s : State) (p : Phase) : (s.setPhase p).phase = p := rfl
@[simp] theorem setPhase_group (s : State) (p : Phase) : (s.setPhase p).group = s.group := rfl
@[simp] theorem setPhase_pc (s : State) (p : Phase) : (s.setPhase p).pc = s.pc := rfl
@[simp] theorem setPhase_err (s : State) (p : Phase) : (s.setPhase p).err = s.err := rfl
@[simp] theorem setPhase_errPc (s : State) (p : Phase) : (s.setPhase p).errPc = s.errPc := rfl
@[simp] theorem setPhase_tables (s : State) (p : Phase) : (s.setPhase p).tables = s.tables := rfl
@[simp] theorem setPhase_input (s : State) (p : Phase) : (s.setPhase p).input = s.input := rfl

/-! ### `setGroup` -/

@[simp] theorem setGroup_buf (s : State) (g : LdGroup) : (s.setGroup g).buf = s.buf := rfl
@[simp] theorem setGroup_phase (s : State) (g : LdGroup) : (s.setGroup g).phase = s.phase := rfl
@[simp] theorem setGroup_group (s : State) (g : LdGroup) : (s.setGroup g).group = g := rfl
@[simp] theorem setGroup_pc (s : State) (g : LdGroup) : (s.setGroup g).pc = s.pc := rfl
@[simp] theorem setGroup_err (s : State) (g : LdGroup) : (s.setGroup g).err = s.err := rfl
@[simp] theorem setGroup_errPc (s : State) (g : LdGroup) : (s.setGroup g).errPc = s.errPc := rfl
@[simp] theorem setGroup_tables (s : State) (g : LdGroup) : (s.setGroup g).tables = s.tables := rfl
@[simp] theorem setGroup_input (s : State) (g : LdGroup) : (s.setGroup g).input = s.input := rfl

/-! ### `setPc` -/

@[simp] theorem setPc_buf (s : State) (v : BitVec 64) : (s.setPc v).buf = s.buf := rfl
@[simp] theorem setPc_phase (s : State) (v : BitVec 64) : (s.setPc v).phase = s.phase := rfl
@[simp] theorem setPc_group (s : State) (v : BitVec 64) : (s.setPc v).group = s.group := rfl
@[simp] theorem setPc_pc (s : State) (v : BitVec 64) : (s.setPc v).pc = v := rfl
@[simp] theorem setPc_err (s : State) (v : BitVec 64) : (s.setPc v).err = s.err := rfl
@[simp] theorem setPc_errPc (s : State) (v : BitVec 64) : (s.setPc v).errPc = s.errPc := rfl
@[simp] theorem setPc_tables (s : State) (v : BitVec 64) : (s.setPc v).tables = s.tables := rfl
@[simp] theorem setPc_input (s : State) (v : BitVec 64) : (s.setPc v).input = s.input := rfl

/-! ### `setErr` -/

@[simp] theorem setErr_buf (s : State) (k : ErrKind) : (s.setErr k).buf = s.buf := rfl
@[simp] theorem setErr_phase (s : State) (k : ErrKind) : (s.setErr k).phase = s.phase := rfl
@[simp] theorem setErr_group (s : State) (k : ErrKind) : (s.setErr k).group = s.group := rfl
@[simp] theorem setErr_pc (s : State) (k : ErrKind) : (s.setErr k).pc = s.pc := rfl
@[simp] theorem setErr_err (s : State) (k : ErrKind) : (s.setErr k).err = some k := rfl
@[simp] theorem setErr_errPc (s : State) (k : ErrKind) : (s.setErr k).errPc = s.errPc := rfl
@[simp] theorem setErr_tables (s : State) (k : ErrKind) : (s.setErr k).tables = s.tables := rfl
@[simp] theorem setErr_input (s : State) (k : ErrKind) : (s.setErr k).input = s.input := rfl

/-! ### `setErrPc` -/

@[simp] theorem setErrPc_buf (s : State) (v : BitVec 64) : (s.setErrPc v).buf = s.buf := rfl
@[simp] theorem setErrPc_phase (s : State) (v : BitVec 64) : (s.setErrPc v).phase = s.phase := rfl
@[simp] theorem setErrPc_group (s : State) (v : BitVec 64) : (s.setErrPc v).group = s.group := rfl
@[simp] theorem setErrPc_pc (s : State) (v : BitVec 64) : (s.setErrPc v).pc = s.pc := rfl
@[simp] theorem setErrPc_err (s : State) (v : BitVec 64) : (s.setErrPc v).err = s.err := rfl
@[simp] theorem setErrPc_errPc (s : State) (v : BitVec 64) : (s.setErrPc v).errPc = v := rfl
@[simp] theorem setErrPc_tables (s : State) (v : BitVec 64) : (s.setErrPc v).tables = s.tables := rfl
@[simp] theorem setErrPc_input (s : State) (v : BitVec 64) : (s.setErrPc v).input = s.input := rfl

/-! ### `setTables` -/

@[simp] theorem setTables_buf (s : State) (t : Tables) : (s.setTables t).buf = s.buf := rfl
@[simp] theorem setTables_phase (s : State) (t : Tables) : (s.setTables t).phase = s.phase := rfl
@[simp] theorem setTables_group (s : State) (t : Tables) : (s.setTables t).group = s.group := rfl
@[simp] theorem setTables_pc (s : State) (t : Tables) : (s.setTables t).pc = s.pc := rfl
@[simp] theorem setTables_err (s : State) (t : Tables) : (s.setTables t).err = s.err := rfl
@[simp] theorem setTables_errPc (s : State) (t : Tables) : (s.setTables t).errPc = s.errPc := rfl
@[simp] theorem setTables_tables (s : State) (t : Tables) : (s.setTables t).tables = t := rfl
@[simp] theorem setTables_input (s : State) (t : Tables) : (s.setTables t).input = s.input := rfl

/-! ### `setInput` -/

@[simp] theorem setInput_buf (s : State) (ws : List Word) : (s.setInput ws).buf = s.buf := rfl
@[simp] theorem setInput_phase (s : State) (ws : List Word) : (s.setInput ws).phase = s.phase := rfl
@[simp] theorem setInput_group (s : State) (ws : List Word) : (s.setInput ws).group = s.group := rfl
@[simp] theorem setInput_pc (s : State) (ws : List Word) : (s.setInput ws).pc = s.pc := rfl
@[simp] theorem setInput_err (s : State) (ws : List Word) : (s.setInput ws).err = s.err := rfl
@[simp] theorem setInput_errPc (s : State) (ws : List Word) : (s.setInput ws).errPc = s.errPc := rfl
@[simp] theorem setInput_tables (s : State) (ws : List Word) : (s.setInput ws).tables = s.tables := rfl
@[simp] theorem setInput_input (s : State) (ws : List Word) : (s.setInput ws).input = ws := rfl

/-! ### Error entry (60_exceptions.md R206) -/

@[simp] theorem raise_buf (k : ErrKind) (s : State) : (raise k s).buf = s.buf := rfl
@[simp] theorem raise_phase (k : ErrKind) (s : State) : (raise k s).phase = s.phase := rfl
@[simp] theorem raise_group (k : ErrKind) (s : State) : (raise k s).group = s.group := rfl
@[simp] theorem raise_pc (k : ErrKind) (s : State) : (raise k s).pc = s.pc := rfl
@[simp] theorem raise_err (k : ErrKind) (s : State) : (raise k s).err = some k := rfl
@[simp] theorem raise_errPc (k : ErrKind) (s : State) : (raise k s).errPc = s.pc := rfl
@[simp] theorem raise_tables (k : ErrKind) (s : State) : (raise k s).tables = s.tables := rfl
@[simp] theorem raise_input (k : ErrKind) (s : State) : (raise k s).input = s.input := rfl

/-! ### Two states with equal fields are equal -/

/-- A state is the list of its fields: the way to close a frame claim field by field. -/
theorem state_ext {s t : State} (hb : s.buf = t.buf) (hp : s.phase = t.phase) (hg : s.group = t.group) (hc : s.pc = t.pc)
    (he : s.err = t.err) (hec : s.errPc = t.errPc) (ht : s.tables = t.tables) (hi : s.input = t.input) : s = t := by
  cases s; cases t; simp_all

end Sys2Proof.Machine
end

