-- ==== Sys2Proof/Laws/Sequence.lean ====
section
/-!
SUPPORT. Everything a command can do (60_exceptions.md R201): the inversion lemmas of `complete` and `runCommand`, and that
every arm of `exec` is one run of `runCommand`.
-/
namespace Sys2Proof.Machine

/-- The end of a command answers the next state with `pc` advanced, unless the counter is exhausted. -/
theorem complete_of_ne {s : State} (h : s.pc ≠ lastPc) : complete s = .next (s.setPc (s.pc + 1)) := by
  simp [complete, h]

/-- What `complete` answers when it answers a next state. -/
theorem complete_next_iff {s t : State} :
    complete s = .next t ↔ s.pc ≠ lastPc ∧ t = s.setPc (s.pc + 1) := by
  unfold complete
  split
  · simp_all
  · simp_all [eq_comm]

/-- `complete` never faults. -/
theorem complete_ne_fault (s : State) (f : Fault) : complete s ≠ .fault f := by
  unfold complete; split <;> simp

/-- `complete` refuses exactly at the end of the counter, and then by that name. -/
theorem complete_refused_iff {s : State} {r : Refusal} :
    complete s = .refused r ↔ s.pc = lastPc ∧ r = .pcExhausted := by
  unfold complete
  split
  · simp_all [eq_comm]
  · simp_all

/-- R202: with an error recorded every command is discarded. -/
theorem runCommand_discard {c : Command} {body : Except ErrKind State} {s : State} (h : s.err ≠ none) :
    runCommand c body s = .next s := by
  cases he : s.err with
  | none => exact absurd he h
  | some k => simp [runCommand, he]

/-- R201 steps 3 to 5: a common check that fails raises its kind. -/
theorem runCommand_common {c : Command} {body : Except ErrKind State} {s : State} {k : ErrKind} (h : s.err = none)
    (hk : commonFault c s = some k) : runCommand c body s = .next (raise k s) := by
  simp [runCommand, h, hk]

/-- R201 step 6: an own check that fails raises its kind. -/
theorem runCommand_own {c : Command} {s : State} {k : ErrKind} (h : s.err = none)
    (hk : commonFault c s = none) : runCommand c (.error k) s = .next (raise k s) := by
  simp [runCommand, h, hk]

/-- R201 step 7: a command whose checks all pass makes its writes. -/
theorem runCommand_ok {c : Command} {s t : State} (h : s.err = none)
    (hk : commonFault c s = none) : runCommand c (.ok t) s = complete t := by
  simp [runCommand, h, hk]

/-- Every way a command can answer a next state: discarded, an error of one kind, or completed. -/
theorem runCommand_next_cases {c : Command} {body : Except ErrKind State} {s t : State}
    (h : runCommand c body s = .next t) :
    (s.err ≠ none ∧ t = s) ∨
    (s.err = none ∧ ∃ k, t = raise k s ∧
      (commonFault c s = some k ∨ (commonFault c s = none ∧ body = .error k))) ∨
    (s.err = none ∧ commonFault c s = none ∧
      ∃ u, body = .ok u ∧ u.pc ≠ lastPc ∧ t = u.setPc (u.pc + 1)) := by
  by_cases he : s.err = none
  · cases hc : commonFault c s with
    | some k =>
      rw [runCommand_common he hc] at h
      exact .inr (.inl ⟨he, k, by simpa using h.symm, .inl rfl⟩)
    | none =>
      cases body with
      | error k =>
        rw [runCommand_own he hc] at h
        exact .inr (.inl ⟨he, k, by simpa using h.symm, .inr ⟨rfl, rfl⟩⟩)
      | ok u =>
        rw [runCommand_ok he hc, complete_next_iff] at h
        exact .inr (.inr ⟨he, rfl, u, rfl, h⟩)
  · rw [runCommand_discard he] at h
    exact .inl ⟨he, by simpa using h.symm⟩

/-- A command never faults: every error of the unit is a next state. -/
theorem runCommand_ne_fault (c : Command) (body : Except ErrKind State) (s : State) (f : Fault) :
    runCommand c body s ≠ .fault f := by
  unfold runCommand
  split
  · simp
  · split
    · simp
    · split
      · simp
      · exact complete_ne_fault _ _

/-- A command is refused only where it would complete at the end of the counter. -/
theorem runCommand_refused_cases {c : Command} {body : Except ErrKind State} {s : State} {r : Refusal}
    (h : runCommand c body s = .refused r) :
    r = .pcExhausted ∧ s.err = none ∧ commonFault c s = none ∧
      ∃ u, body = .ok u ∧ u.pc = lastPc := by
  by_cases he : s.err = none
  · cases hc : commonFault c s with
    | some k => simp [runCommand_common he hc] at h
    | none =>
      cases body with
      | error k => simp [runCommand_own he hc] at h
      | ok u =>
        rw [runCommand_ok he hc, complete_refused_iff] at h
        exact ⟨h.2, he, rfl, u, rfl, h.1⟩
  · simp [runCommand_discard he] at h

/-- The common checks of a command that may run: not finished, no group pending unless it is TOK, and a legal phase. -/
theorem commonFault_none_iff {c : Command} {s : State} :
    commonFault c s = none ↔ s.phase ≠ .done ∧ (s.group = .empty ∨ c = .tok) ∧ legal c s.phase = true := by
  unfold commonFault
  split
  · simp_all
  · split
    · simp_all
    · split <;> simp_all; tauto

/-- What a command's own part may write: not `pc`, `err`, `err_pc` or the command stream. -/
def KeepsSequencing (s : State) (body : Except ErrKind State) : Prop :=
  ∀ u, body = .ok u → u.pc = s.pc ∧ u.err = s.err ∧ u.errPc = s.errPc ∧ u.input = s.input

/-- An own part that is an error writes nothing. -/
theorem keeps_error (s : State) (k : ErrKind) : KeepsSequencing s (.error k) := by
  simp [KeepsSequencing]

/-- A head token writes the buffer, the group and the phase at most. -/
theorem tokHead_keeps (v : Token) (s : State) : KeepsSequencing s (tokHead v s) := by
  unfold tokHead
  split
  · split
    · exact keeps_error s _
    · simp [KeepsSequencing]
  · split
    · simp [KeepsSequencing]
    · exact keeps_error s _

/-- A commit writes the buffer and the group at most. -/
theorem tokCommit_keeps (lc le dc de : Token) (s : State) : KeepsSequencing s (tokCommit lc le dc de s) := by
  unfold tokCommit
  split
  · exact keeps_error s _
  · split
    · exact keeps_error s _
    · split
      · exact keeps_error s _
      · simp [KeepsSequencing]

/-- The own part of TOK. -/
theorem tokBody_keeps (v : Token) (s : State) : KeepsSequencing s (tokBody v s) := by
  unfold tokBody
  split
  · exact tokHead_keeps v s
  · simp [KeepsSequencing]
  · simp [KeepsSequencing]
  · exact tokCommit_keeps _ _ _ v s

/-- Every arm of `exec` is one run of `runCommand` under its own mnemonic, on an own part that leaves the sequencing state
alone. -/
theorem exec_eq_runCommand (i : Instr) (s : State) :
    ∃ body, exec i s = runCommand i.command body s ∧ KeepsSequencing s body := by
  cases i <;>
    simp only [exec, Instr.command, execPutLsb, execPutMsb, execAlign, execFinish, execTblLoadLL, execTblLoadD,
      execTblLoadCL, execCllSet, execBlkHdr, execStLen, execRaw, execDynHdr, execClsym, execTok] <;>
    refine ⟨_, rfl, ?_⟩
  case tok v => exact tokBody_keeps v s
  case clsym sym extra =>
    split
    · exact keeps_error s _
    · split
      · exact keeps_error s _
      · simp [KeepsSequencing]
  all_goals first
    | (simp [KeepsSequencing]; done)
    | (split <;> simp [KeepsSequencing])

/-- Every way `exec` can answer a next state: discarded, an error that changes `err` and `err_pc` alone, or completed with
`pc` advanced by one. -/
theorem exec_next_cases {i : Instr} {s t : State} (h : exec i s = .next t) :
    (s.err ≠ none ∧ t = s) ∨
    (s.err = none ∧ ∃ k, t = raise k s) ∨
    (s.err = none ∧ commonFault i.command s = none ∧ s.pc ≠ lastPc ∧
      t.err = none ∧ t.errPc = s.errPc ∧ t.pc = s.pc + 1 ∧ t.input = s.input) := by
  obtain ⟨body, hb, hk⟩ := exec_eq_runCommand i s
  rw [hb] at h
  rcases runCommand_next_cases h with h | ⟨he, k, ht, _⟩ | ⟨he, hc, u, hu, hp, rfl⟩
  · exact .inl h
  · exact .inr (.inl ⟨he, k, ht⟩)
  · obtain ⟨h1, h2, h3, h4⟩ := hk u hu
    exact .inr (.inr ⟨he, hc, h1 ▸ hp, by simp [h2, he], by simp [h3], by simp [h1], by simp [h4]⟩)

end Sys2Proof.Machine
end

