-- ==== Sys2Proof/Laws/Table.lean ====
section
/-!
SUPPORT. The table operations (41_huffman_table.md R110 to R112): a store is read back, leaves every other symbol alone, and
keeps the canonical form; and everything a command can do to the tables.
-/
namespace Sys2Proof.Machine

/-- The last load of a symbol is what its lookup finds. -/
theorem lookup_store_same {α : Type} (t : Table α) (sym : Nat) (x : α) : (t.store sym x).lookup sym = some x := by
  induction t with
  | nil => simp [Table.store, Table.lookup]
  | cons e t ih =>
    simp only [Table.store]
    split
    · simp [Table.lookup]
    · split
      · simp [Table.lookup]
      · simp [Table.lookup, *]

/-- A load leaves every other symbol alone. -/
theorem lookup_store_other {α : Type} (t : Table α) {sym sym' : Nat} (x : α) (h : sym' ≠ sym) :
    (t.store sym x).lookup sym' = t.lookup sym' := by
  induction t with
  | nil => simp [Table.store, Table.lookup, h]
  | cons e t ih =>
    simp only [Table.store]
    split
    · simp [Table.lookup, h]
    · split
      · rename_i h1 h2
        simp [Table.lookup, h, ← h2]
      · simp [Table.lookup, ih]

/-- The entries of a table after a store are the new one and old ones. -/
theorem mem_store {α : Type} {t : Table α} {sym : Nat} {x : α} {e : Nat × α} (h : e ∈ t.store sym x) :
    e = (sym, x) ∨ e ∈ t := by
  induction t with
  | nil => simpa [Table.store] using h
  | cons a t ih =>
    simp only [Table.store] at h
    split at h
    · simpa using h
    · split at h
      · simp only [List.mem_cons] at h ⊢
        tauto
      · simp only [List.mem_cons] at h ⊢
        tauto

/-- A store of a symbol in range keeps the canonical form. -/
theorem store_inv {α : Type} {n : Nat} {t : Table α} {sym : Nat} (x : α) (h : Table.Inv n t) (hs : sym < n) :
    Table.Inv n (t.store sym x) := by
  refine ⟨?_, fun e he => ?_⟩
  · have hp := h.1
    clear h
    induction t with
    | nil => simp [Table.store]
    | cons a t ih =>
      simp only [List.map_cons, List.pairwise_cons] at hp
      simp only [Table.store]
      split
      · rename_i hlt
        simp only [List.map_cons, List.pairwise_cons, List.mem_cons, forall_eq_or_imp]
        exact ⟨⟨hlt, fun k hk => hlt.trans (hp.1 k hk)⟩, hp⟩
      · split
        · rename_i heq
          simp only [List.map_cons, List.pairwise_cons]
          exact ⟨fun k hk => heq ▸ hp.1 k hk, hp.2⟩
        · rename_i hlt hne
          simp only [List.map_cons, List.pairwise_cons]
          refine ⟨fun k hk => ?_, ih hp.2⟩
          obtain ⟨e, he, rfl⟩ := List.mem_map.mp hk
          rcases mem_store he with rfl | he
          · simp only; omega
          · exact hp.1 _ (List.mem_map_of_mem he)
  · rcases mem_store he with rfl | he
    · exact hs
    · exact h.2 e he

/-- No entry is valid in the tables after reset and after BLK_HDR, and they are in canonical form. -/
theorem invalid_inv : Tables.invalid.Inv := by
  simp [Tables.Inv, Table.Inv, Tables.invalid]

/-! ### What a command does to the tables -/

/-- The own part of TOK leaves the tables alone. -/
theorem tokBody_tables {v : Token} {s u : State} (h : tokBody v s = .ok u) : u.tables = s.tables := by
  unfold tokBody tokHead tokCommit at h
  repeat' split at h
  all_goals first
    | (cases h; rfl)
    | cases h

/-- Everything a command can do to the tables: nothing, or, completing, what BLK_HDR, one of the three loads or CLL_SET does. -/
theorem exec_tables_cases {i : Instr} {s t : State} (h : exec i s = .next t) :
    t.tables = s.tables ∨ (t.err = none ∧
      ((∃ bfinal btype, i = .blkHdr bfinal btype ∧ t.tables = Tables.invalid) ∨
        (∃ sym code len, i = .tblLoadLL sym code len ∧
          t.tables = { s.tables with ll := loadEntry s.tables.ll sym code len }) ∨
        (∃ sym code len, i = .tblLoadD sym code len ∧
          t.tables = { s.tables with d := loadEntry s.tables.d sym code len }) ∨
        (∃ sym code len, i = .tblLoadCL sym code len ∧
          t.tables = { s.tables with cl := loadEntry s.tables.cl sym code len }) ∨
        (∃ sym len3, i = .cllSet sym len3 ∧
          t.tables = { s.tables with cllen := s.tables.cllen.store sym.toNat len3 }))) := by
  have key : ∀ {c : Command} {body : Except ErrKind State}, runCommand c body s = .next t →
      t.tables = s.tables ∨ (s.err = none ∧ ∃ u, body = .ok u ∧ t = u.setPc (u.pc + 1)) := by
    intro c body hb
    rcases runCommand_next_cases hb with hb | ⟨_, k, rfl, _⟩ | ⟨he, _, u, hu, _, ht⟩
    · exact .inl (by rw [hb.2])
    · exact .inl rfl
    · exact .inr ⟨he, u, hu, ht⟩
  cases i <;>
    simp only [exec, execPutLsb, execPutMsb, execAlign, execFinish, execTblLoadLL, execTblLoadD, execTblLoadCL,
      execCllSet, execBlkHdr, execStLen, execRaw, execDynHdr, execClsym, execTok] at h <;>
    rcases key h with h | ⟨he, u, hu, rfl⟩ <;>
    first
      | exact .inl h
      | skip
  case tok => exact .inl (show u.tables = s.tables from tokBody_tables hu)
  case dynHdr hlit hdist hclen =>
    generalize gatherLens s.tables.cllen (clOrder.take (hclen.toNat + 4)) = lens at hu
    cases lens <;> cases hu
    exact .inl rfl
  case clsym =>
    repeat' split at hu
    all_goals cases hu
    exact .inl rfl
  case tblLoadLL sym code len =>
    split at hu <;> simp only [Except.ok.injEq, reduceCtorEq] at hu
    exact .inr ⟨by simp [← hu, he], .inr (.inl ⟨sym, code, len, rfl, by simp [← hu]⟩)⟩
  case tblLoadD sym code len =>
    split at hu <;> simp only [Except.ok.injEq, reduceCtorEq] at hu
    exact .inr ⟨by simp [← hu, he], .inr (.inr (.inl ⟨sym, code, len, rfl, by simp [← hu]⟩))⟩
  case tblLoadCL sym code len =>
    split at hu <;> simp only [Except.ok.injEq, reduceCtorEq] at hu
    exact .inr ⟨by simp [← hu, he], .inr (.inr (.inr (.inl ⟨sym, code, len, rfl, by simp [← hu]⟩)))⟩
  case cllSet sym len3 =>
    split at hu <;> simp only [Except.ok.injEq, reduceCtorEq] at hu
    exact .inr ⟨by simp [← hu, he], .inr (.inr (.inr (.inr ⟨sym, len3, rfl, by simp [← hu]⟩)))⟩
  case blkHdr bfinal btype =>
    split at hu <;> simp only [Except.ok.injEq, reduceCtorEq] at hu
    exact .inr ⟨by simp [← hu, he], .inl ⟨bfinal, btype, rfl, by simp [← hu]⟩⟩
  case putLsb | putMsb =>
    split at hu <;> simp only [Except.ok.injEq, reduceCtorEq] at hu
    exact .inl (by simp [← hu])
  all_goals
    simp only [Except.ok.injEq] at hu
    exact .inl (by simp [← hu])

end Sys2Proof.Machine
end

