-- ==== Sys2Proof/Tests/Slice0.lean ====
section
/-!
SUPPORT. The model's own tests: ill-formed terms, command words written out field by field, single steps whose expected result is
a vector of 95_test_vectors.md, and for every statement with hypotheses a state and operands that meet them.
-/
namespace Sys2Proof.Tests

open Sys2Proof Sys2Proof.Machine

/-! ### Helpers -/

/-- The state of an answer, if it is a next state. -/
def nextOf : Outcome → Option State
  | .next t => some t
  | .fault _ => none
  | .refused _ => none

/-- A state in a phase, all else as after reset. -/
def inPhase (p : Phase) : State := { State.reset with phase := p }

/-- The same with a pending group. -/
def pending (g : LdGroup) : State := { State.reset with phase := .huff, group := g }

/-- A state with some bits pending, all else as after reset. -/
def withBuf (s : State) (out : List Byte) (acc : BitVec 8) (nbits : BitVec 3) : State :=
  { s with buf := { out := out, acc := acc, nbits := nbits } }

/-- The tables of vector V22. -/
def tablesV22 : Tables :=
  { Tables.invalid with ll := [(65, { len := 8, code := 0x71 }), (266, { len := 7, code := 0x0A })]
                        d := [(4, { len := 5, code := 4 })] }

/-- The same with lengths no append accepts: symbol 65 of length 0, symbol 266 of length 33, distance 4 of length 33. -/
def tablesBadLen : Tables :=
  { Tables.invalid with ll := [(65, { len := 0, code := 0 }), (257, { len := 7, code := 1 }), (266, { len := 33, code := 0 })]
                        d := [(4, { len := 33, code := 0 })]
                        cl := [(3, { len := 0, code := 0 })] }

/-- The code table of vector V28. -/
def tablesV28 : Tables :=
  { Tables.invalid with cl := [(5, { len := 2, code := 2 }), (16, { len := 3, code := 6 }), (17, { len := 4, code := 0xE }),
      (18, { len := 1, code := 0 })] }

/-- The lengths of vector V25: the four symbols `CL_ORDER` sends first, all of length 0. -/
def tablesV25 : Tables := { Tables.invalid with cllen := [(0, 0), (16, 0), (17, 0), (18, 0)] }

/-! ### Ill-formed terms are refused by WellFormed -/

theorem test_illFormed_putLsb_zero : (Instr.putLsb 0 1).wellFormed = false := by decide
theorem test_illFormed_putLsb_wide : (Instr.putLsb 33 1).wellFormed = false := by decide
theorem test_illFormed_putMsb_wide : (Instr.putMsb 33 1).wellFormed = false := by decide
theorem test_illFormed_tblLoadLL : (Instr.tblLoadLL 288 0 8).wellFormed = false := by decide
theorem test_illFormed_tblLoadD : (Instr.tblLoadD 32 0 5).wellFormed = false := by decide
theorem test_illFormed_tblLoadCL : (Instr.tblLoadCL 19 0 1).wellFormed = false := by decide
theorem test_illFormed_cllSet : (Instr.cllSet 19 0).wellFormed = false := by decide
theorem test_illFormed_blkHdr : (Instr.blkHdr 1 3).wellFormed = false := by decide
theorem test_illFormed_clsym : (Instr.clsym 19 0).wellFormed = false := by decide
theorem test_wellFormed_bounds :
    (Instr.putLsb 1 0).wellFormed ∧ (Instr.putMsb 32 0).wellFormed ∧ (Instr.tblLoadLL 287 0 0).wellFormed ∧
      (Instr.tblLoadD 31 0 63).wellFormed ∧ (Instr.tblLoadCL 18 0 1).wellFormed ∧ (Instr.cllSet 18 7).wellFormed ∧
      (Instr.blkHdr 0 2).wellFormed ∧ (Instr.clsym 18 127).wellFormed ∧ (Instr.tok 65535).wellFormed := by decide

/-! ### Command words written out field by field (R72 to R81), opcode first -/

theorem test_decode_putLsb : decode (0x01#8 ++ 3#6 ++ 0#18 ++ 5#32) = .ok (.putLsb 3 5) := by decide
theorem test_decode_putMsb : decode (0x02#8 ++ 33#6 ++ 0#18 ++ 1#32) = .ok (.putMsb 33 1) := by decide
theorem test_decode_align : decode (0x03#8 ++ 0#56) = .ok .align := by decide
theorem test_decode_finish : decode (0x04#8 ++ 0#56) = .ok .finish := by decide
theorem test_decode_tblLoadLL : decode (0x10#8 ++ 0#2 ++ 8#6 ++ 65#16 ++ 0x71#32) = .ok (.tblLoadLL 65 0x71 8) := by decide
theorem test_decode_tblLoadD : decode (0x10#8 ++ 1#2 ++ 5#6 ++ 4#16 ++ 4#32) = .ok (.tblLoadD 4 4 5) := by decide
theorem test_decode_tblLoadCL : decode (0x10#8 ++ 2#2 ++ 1#6 ++ 18#16 ++ 0#32) = .ok (.tblLoadCL 18 0 1) := by decide
theorem test_decode_cllSet : decode (0x11#8 ++ 0#43 ++ 18#5 ++ 0#5 ++ 1#3) = .ok (.cllSet 18 1) := by decide
theorem test_decode_blkHdr : decode (0x20#8 ++ 0#53 ++ 2#2 ++ 1#1) = .ok (.blkHdr 1 2) := by decide
theorem test_decode_stLen : decode (0x21#8 ++ 0#24 ++ 0xFFFA#16 ++ 5#16) = .ok (.stLen 5 0xFFFA) := by decide
theorem test_decode_raw : decode (0x22#8 ++ 0#48 ++ 0xA5#8) = .ok (.raw 0xA5) := by decide
theorem test_decode_dynHdr : decode (0x23#8 ++ 0#42 ++ 14#4 ++ 2#5 ++ 1#5) = .ok (.dynHdr 1 2 14) := by decide
theorem test_decode_clsym : decode (0x24#8 ++ 0#43 ++ 18#5 ++ 0#1 ++ 86#7) = .ok (.clsym 18 86) := by decide
theorem test_decode_tok : decode (0x25#8 ++ 0#40 ++ 256#16) = .ok (.tok 256) := by decide

/-- Vectors V33, V13 and V30: illegal words, each by its name. -/
theorem test_decode_illegal :
    decode 0x0000000000000000 = .error .reservedOpcode ∧ decode 0xFF00000000000000 = .error .reservedOpcode ∧
      decode 0x0500000000000000 = .error .reservedOpcode ∧ decode 0x0300000000000001 = .error .mbzNotZero ∧
      decode 0x0100000100000000 = .error .mbzNotZero ∧ decode 0x2200000000000100 = .error .mbzNotZero ∧
      decode 0x2500000000010000 = .error .mbzNotZero ∧ decode 0x2000000000000008 = .error .mbzNotZero ∧
      decode 0x24000000000010FF = .error .mbzNotZero ∧ decode 0x10C0000000000000 = .error .reservedTable := by decide

/-- The table's numbering of a word is the word's own, and bits above the row's are zero. -/
theorem test_decodeTableWord :
    decodeTableWord 64 0x2200000000000001 = some (.raw 1) ∧ decodeTableWord 64 0 = none ∧
      decodeTableWord 8 0x2200000000000001 = none := by decide

/-! ### One step of each command -/

/-- V1, second command. -/
theorem test_putLsb_straddles :
    (nextOf (exec (.putLsb 16 0xFFFA) (withBuf State.reset [] 0x05 3))).map (·.buf) =
      some { out := [0xD5, 0xFF], acc := 0x07, nbits := 3 } := by decide

/-- V3, second command. -/
theorem test_putLsb_full_width :
    (nextOf (exec (.putLsb 32 0xDEADBEEF) (withBuf State.reset [] 1 1))).map (·.buf) =
      some { out := [0xDF, 0x7D, 0x5B, 0xBD], acc := 1, nbits := 1 } := by decide

/-- V2. -/
theorem test_putMsb_reverses_in_byte :
    (nextOf (exec (.putMsb 8 0x71) State.reset)).map (·.buf) = some { out := [0x8E], acc := 0, nbits := 0 } := by decide

/-- V5, second command: the high bits of the operand are dropped. -/
theorem test_putMsb_truncates :
    (nextOf (exec (.putMsb 4 0xF1) (withBuf State.reset [] 0x0F 4))).map (·.buf) =
      some { out := [0x8F], acc := 0, nbits := 0 } := by decide

/-- V8, the two ALIGN commands. -/
theorem test_align_pads :
    (nextOf (exec .align (withBuf State.reset [] 0x0D 5))).map (fun t => (t.buf, t.pc)) =
      some ({ out := [0x0D], acc := 0, nbits := 0 }, 1) := by decide
theorem test_align_aligned :
    nextOf (exec .align (withBuf State.reset [0x0D] 0 0)) = some { withBuf State.reset [0x0D] 0 0 with pc := 1 } := by decide

/-- V9: two pending zero bits make a last byte. -/
theorem test_finish_flushes :
    (nextOf (exec .finish (withBuf (inPhase .huff) [0x73, 0x04] 0 2))).map (fun t => (t.buf, t.phase, t.result)) =
      some ({ out := [0x73, 0x04, 0x00], acc := 0, nbits := 0 }, .done, .ok [0x73, 0x04, 0x00]) := by decide

/-- V20, second vector: a stored block without LEN. -/
theorem test_finish_incomplete :
    (nextOf (exec .finish (inPhase .stWait))).map (fun t => (t.err, t.phase)) = some (some .malformedField, .stWait) := by decide

/-- V11, first command, and V12: the last load wins. -/
theorem test_tblLoadLL_replaces :
    (nextOf (exec (.tblLoadLL 0 2 3) { inPhase .huff with tables := { Tables.invalid with ll := [(0, ⟨2, 1⟩)] } })).map
      (fun t => t.tables.ll) = some [(0, { len := 3, code := 2 })] := by decide

/-- V13: symbol 288 is outside `LL`. -/
theorem test_tblLoadLL_range :
    (nextOf (exec (.tblLoadLL 288 0 8) (inPhase .huff))).map (fun t => (t.err, t.tables)) =
      some (some .malformedField, Tables.invalid) := by decide

/-- V11, second command. -/
theorem test_tblLoadD :
    (nextOf (exec (.tblLoadD 4 4 5) (inPhase .huff))).map (fun t => t.tables.d.lookup 4) =
      some (some { len := 5, code := 4 }) := by decide

/-- V13: symbol 32 is outside `D`. -/
theorem test_tblLoadD_range :
    (nextOf (exec (.tblLoadD 32 0 5) (inPhase .huff))).map (·.err) = some (some .malformedField) := by decide

/-- V11, third command. -/
theorem test_tblLoadCL :
    (nextOf (exec (.tblLoadCL 18 0 1) (inPhase .dynWait))).map (fun t => t.tables.cl.lookup 18) =
      some (some { len := 1, code := 0 }) := by decide

/-- V13: symbol 19 is outside `CL`. -/
theorem test_tblLoadCL_range :
    (nextOf (exec (.tblLoadCL 19 0 1) (inPhase .huff))).map (·.err) = some (some .malformedField) := by decide

/-- V11, fourth command. -/
theorem test_cllSet :
    (nextOf (exec (.cllSet 18 1) (inPhase .dynWait))).map (fun t => t.tables.cllen.lookup 18) = some (some 1) := by decide

/-- V13: CLL_SET in phase HUFF. -/
theorem test_cllSet_phase :
    (nextOf (exec (.cllSet 0 0) (inPhase .huff))).map (·.err) = some (some .malformedField) := by decide

/-- V31: a header that is not aligned, and the tables of the block before are gone (V15). -/
theorem test_blkHdr_unaligned :
    (nextOf (exec (.blkHdr 0 2) { withBuf (inPhase .huff) [] 0x02 3 with tables := tablesV22 })).map
      (fun t => (t.buf, t.phase, t.tables)) =
      some ({ out := [], acc := 0x22, nbits := 6 }, .dynWait, Tables.invalid) := by decide

/-- V30: the reserved type. -/
theorem test_blkHdr_reserved :
    nextOf (exec (.blkHdr 1 3) State.reset) = some { State.reset with err := some .malformedField } := by decide

/-- V16 (c), second command. -/
theorem test_stLen_pads :
    (nextOf (exec (.stLen 0x1234 0xEDCB) (withBuf (inPhase .stWait) [] 0x08 6))).map (fun t => (t.buf, t.phase)) =
      some ({ out := [0x08, 0x34, 0x12, 0xCB, 0xED], acc := 0, nbits := 0 }, .stData) := by decide

/-- V16 (b): no padding where the header filled its byte. -/
theorem test_stLen_aligned :
    (nextOf (exec (.stLen 0x1234 0xEDCB) (withBuf (inPhase .stWait) [0x20] 0 0))).map (fun t => t.buf.out) =
      some [0x20, 0x34, 0x12, 0xCB, 0xED] := by decide

/-- V19, fourth command: RAW on a misaligned buffer. -/
theorem test_raw_misaligned :
    (nextOf (exec (.raw 0xA5) (withBuf (inPhase .stData) [] 0x0F 4))).map (·.buf) =
      some { out := [0x5F], acc := 0x0A, nbits := 4 } := by decide

/-- V20, first vector: RAW before ST_LEN. -/
theorem test_raw_phase : (nextOf (exec (.raw 1) (inPhase .stWait))).map (·.err) = some (some .malformedField) := by decide

/-- V25, the DYN_HDR. -/
theorem test_dynHdr_smallest :
    (nextOf (exec (.dynHdr 0 0 0) { withBuf (inPhase .dynWait) [] 0x22 6 with tables := tablesV25 })).map
      (fun t => (t.buf, t.phase)) = some ({ out := [0x22, 0, 0, 0], acc := 0, nbits := 0 }, .dynCl) := by decide

/-- V27: a length that was never set. -/
theorem test_dynHdr_missing :
    (nextOf (exec (.dynHdr 0 0 0)
      { withBuf (inPhase .dynWait) [] 0x05 3 with tables := { Tables.invalid with cllen := [(16, 0), (17, 0), (18, 1)] } })).map
      (fun t => (t.err, t.buf)) = some (some .malformedField, { out := [], acc := 0x05, nbits := 3 }) := by decide

/-- V28, the first CLSYM: two of the seven operand bits. -/
theorem test_clsym_extra :
    (nextOf (exec (.clsym 16 0x7F) { withBuf (inPhase .dynCl) [] 0x00 5 with tables := tablesV28 })).map (·.buf) =
      some { out := [0x60], acc := 0x03, nbits := 2 } := by decide

/-- V28, the third CLSYM: a plain symbol has no extra bits. -/
theorem test_clsym_plain :
    (nextOf (exec (.clsym 5 0x7F) { withBuf (inPhase .dynCl) [] 0x01 1 with tables := tablesV28 })).map (·.buf) =
      some { out := [], acc := 0x03, nbits := 3 } := by decide

/-- V21. -/
theorem test_tok_literal :
    (nextOf (exec (.tok 65) { withBuf (inPhase .huff) [] 0x03 3 with tables := tablesV22 })).map (·.buf) =
      some { out := [0x73], acc := 0x04, nbits := 3 } := by decide

/-- V22, the fourth token. -/
theorem test_tok_commit :
    (nextOf (exec (.tok 1) { withBuf (pending (.lcLeDc 266 1 4)) [] 0x03 3 with tables := tablesV22 })).map
      (fun t => (t.buf, t.group)) = some ({ out := [0x43, 0x25], acc := 0x01, nbits := 1 }, .empty) := by decide

/-! ### One step of the machine -/

/-- P1, first command, fetched as a word. -/
theorem test_step_withFetchWord :
    (nextOf (step (State.reset.withFetchWord 64 0x2000000000000001))).map (fun t => (t.buf, t.phase, t.pc, t.input)) =
      some ({ out := [], acc := 0x01, nbits := 3 }, .stWait, 1, []) := by decide

/-- V34: an undecodable word after FINISH is IllegalCommand, and a decodable one with a bad width is PostFinishWrite. -/
theorem test_step_priority :
    (nextOf (stepWord 0 (inPhase .done))).map (·.err) = some (some .illegalCommand) ∧
      (nextOf (stepWord 0x0100000000000000 (inPhase .done))).map (·.err) = some (some .postFinishWrite) ∧
      (nextOf (stepWord 0x0100000000000000 (pending (.lc 257)))).map (·.err) = some (some .malformedField) := by decide

/-- P6, end state: STATUS, and the result. -/
theorem test_status_P6 :
    let s := { withBuf (pending (.lcLeDc 257 0 0)) [0x4B] 0x04 3 with err := some .unknownSymbol, pc := 7, errPc := 7 }
    s.status = 0x00000DD2 ∧ s.errPcWord = 7 ∧ s.outLen = 1 ∧ s.result = .error .unknownSymbol := by decide

/-- P1, end state: STATUS. -/
theorem test_status_P1 : (inPhase .done).status = 0x00000078 := by decide

/-- The read-back of V1 and V2. -/
theorem test_readBack :
    readLsb [0xD5, 0xFF, 0x07] 0 3 = 5 ∧ readLsb [0xD5, 0xFF, 0x07] 3 16 = 0xFFFA ∧
      readMsb [0x8E] 0 8 = 0x71 ∧ readLsb [0x8E] 0 8 = 0x8E := by decide

/-- V32: the words of ZHDR. -/
theorem test_zhdr_words :
    (pseudoZhdr 8 7 28 0 2).map encode =
      [0x0110000000000008, 0x0110000000000007, 0x011400000000001C, 0x0104000000000000, 0x0108000000000002] := by decide

/-! ### States and operands that meet the hypotheses of the statements

Each theorem is named after its statement. Where a clause has a range, its ends are tried. -/

/-- A state in the middle of a group: HUFF, tables loaded, three tokens latched, three bits pending, one word waiting. -/
def midGroup : State :=
  { withBuf (pending (.lcLeDc 266 1 4)) [0x4B] 0x03 3 with tables := tablesV22, pc := 19, input := [0x2500000000000001] }

/-- The same without a group. -/
def midBlock : State := { midGroup with group := .empty }

/-- The same with an error recorded. -/
def inError : State := { midGroup with err := some .unknownSymbol, errPc := 19 }

theorem midGroup_inv : midGroup.Inv where
  buf := by unfold BitBuffer.Inv; decide
  done := by decide
  group := by decide
  lengthCode := by
    intro l h
    obtain rfl : (266 : Token) = l := by simpa [midGroup, pending, withBuf, LdGroup.ldLc] using h
    decide
  tables := by unfold Tables.Inv Table.Inv; decide
  noTables := by decide
  errPc := by decide

theorem midBlock_inv : midBlock.Inv where
  buf := by unfold BitBuffer.Inv; decide
  done := by decide
  group := by decide
  lengthCode := by
    intro l h
    simp [midBlock, LdGroup.ldLc] at h
  tables := by unfold Tables.Inv Table.Inv; decide
  noTables := by decide
  errPc := by decide

/-- Buffers that meet the BitBuffer invariant: nothing, one, seven bits pending. -/
theorem buffers_inv :
    BitBuffer.Inv { out := [], acc := 0, nbits := 0 } ∧ BitBuffer.Inv { out := [], acc := 1, nbits := 1 } ∧
      BitBuffer.Inv { out := [0x4B], acc := 0x7F, nbits := 7 } := by
  unfold BitBuffer.Inv; decide

theorem witness_EncodeAfterDecode : decode 0x010C000000000005 = .ok (.putLsb 3 5) := by decide

theorem witness_WordDecodesIffInOpcodeTable :
    decode 0 = .error .reservedOpcode ∧ (inPhase .done).err = none ∧ midGroup.err = none := by decide

theorem witness_IllegalWordsByName :
    field (0x10C0000000000000 : Word) 56 8 = 0x10#8 ∧ field (0x10C0000000000000 : Word) 54 2 = 3#2 ∧
      field (0x0500000000000000 : Word) 56 8 ∉ opcodes ∧
      field (0x2500000000010000 : Word) 56 8 ∈ opcodes ∧ field (0x2500000000010000 : Word) 56 8 ≠ 0x10#8 := by decide

theorem witness_StepRunsDecodedCommand :
    midGroup.input = 0x2500000000000001 :: [] ∧ decode 0x2500000000000001 = .ok (.tok 1) := by decide

theorem witness_StepOnIllegalWord :
    ({ midGroup with input := [0x0500000000000000] } : State).input = 0x0500000000000000 :: [] ∧
      decode 0x0500000000000000 = .error .reservedOpcode ∧ midGroup.err = none := by decide

theorem witness_ErrorIsSticky : inError.err ≠ none ∧ inError.input = 0x2500000000000001 :: [] := by decide

theorem witness_IdleUnitKeepsState : ({ midBlock with input := [] } : State).input = [] := by decide

theorem witness_FinishedUnitRejectsEveryCommand : (inPhase .done).err = none ∧ (inPhase .done).phase = .done := by decide

theorem witness_WrongPhaseOrPendingGroupIsMalformed_pending :
    midGroup.err = none ∧ midGroup.phase ≠ .done ∧ midGroup.group ≠ .empty ∧ (Instr.putLsb 0 0).command ≠ .tok := by decide

theorem witness_WrongPhaseOrPendingGroupIsMalformed_phase :
    midBlock.err = none ∧ midBlock.phase ≠ .done ∧ midBlock.group = .empty ∧
      midBlock.phase ∈ malformedIn (Instr.raw 1).command ∧ .idle ∈ malformedIn (Instr.tok 0).command := by decide

theorem witness_ErrorChangesOnlyErrAndErrPc :
    midBlock.err = none ∧ ∃ t, exec (.raw 1) midBlock = .next t ∧ t.err ≠ none := ⟨by decide, _, rfl, by decide⟩

theorem witness_EveryStepIsOneOfThree :
    midGroup.input = 0x2500000000000001 :: [] ∧ midGroup.pc ≠ lastPc ∧ midGroup.err = none ∧
      inError.input = 0x2500000000000001 :: [] ∧ inError.pc ≠ lastPc ∧ inError.err ≠ none := by decide

theorem witness_StopsOnlyAtCounterEnd_refused : exec .align { State.reset with pc := lastPc } = .refused .pcExhausted := rfl

theorem witness_StopsOnlyAtCounterEnd_next :
    ({ State.reset with pc := lastPc } : State).pc = lastPc ∧
      ∃ t, exec (.raw 1) { State.reset with pc := lastPc } = .next t := ⟨rfl, _, rfl⟩

theorem witness_StatusWordsShowTheState :
    midGroup.buf.out.length < 2 ^ 64 ∧ (inPhase .done).phase = .done ∧ (inPhase .done).err = none := by decide

theorem witness_StepKeepsTheInvariant : midGroup.Inv ∧ ∃ t, step midGroup = .next t := ⟨midGroup_inv, _, rfl⟩

theorem witness_PushBitFillsAndFlushes :
    ({ out := [], acc := 0x7F, nbits := 7 } : BitBuffer).nbits = 7#3 ∧
      ({ out := [], acc := 0x3F, nbits := 6 } : BitBuffer).nbits ≠ 7#3 := by decide

/-- The ends of the legal widths, for the statements over `put_lsb` and `put_msb`. -/
theorem witness_PutLsbPushesUpward : 1 ≤ 1 ∧ 1 ≤ 32 ∧ 32 ≤ 32 := by decide
theorem witness_PutMsbPushesDownward : 1 ≤ 1 ∧ 1 ≤ 32 ∧ 32 ≤ 32 := by decide

theorem witness_AppendClosedForm :
    BitBuffer.Inv { out := [0x4B], acc := 0x7F, nbits := 7 } ∧ 1 ≤ 1 ∧ 1 ≤ 32 ∧ 32 ≤ 32 := ⟨buffers_inv.2.2, by decide⟩

theorem witness_ReadBackGivesTheValue :
    BitBuffer.Inv { out := [], acc := 1, nbits := 1 } ∧ 1 ≤ 32 ∧ 32 ≤ 32 ∧ 2 ^ 32 - 1 < 2 ^ 32 ∧ 1 ≤ 1 ∧ 1 < 2 ^ 1 ∧
      (BitBuffer.putLsb 1 1 { out := [], acc := 1, nbits := 1 }).bits <+: bytesBits [0x03] ∧
      (BitBuffer.putMsb 1 1 { out := [], acc := 1, nbits := 1 }).bits <+: bytesBits [0x03] := ⟨buffers_inv.2.1, by decide⟩

theorem witness_PaddingIsZeroBits :
    BitBuffer.Inv { out := [], acc := 1, nbits := 1 } ∧ BitBuffer.Inv { out := [0x4B], acc := 0x7F, nbits := 7 } ∧
      BitBuffer.Inv { out := [], acc := 0, nbits := 0 } ∧
      ∃ t, exec .finish midBlock = .next t ∧ t.err = none :=
  ⟨buffers_inv.2.1, buffers_inv.2.2, buffers_inv.1, _, rfl, by decide⟩

theorem witness_BitsDetermineTheBuffer :
    BitBuffer.Inv { out := [], acc := 1, nbits := 1 } ∧
      BitBuffer.Inv (BitBuffer.putLsb 1 1 { out := [], acc := 0, nbits := 0 }) ∧
      BitBuffer.bits { out := [], acc := 1, nbits := 1 } =
        BitBuffer.bits (BitBuffer.putLsb 1 1 { out := [], acc := 0, nbits := 0 }) := by
  unfold BitBuffer.Inv; decide

theorem witness_PutCommandsResult :
    midBlock.err = none ∧ midBlock.group = .empty ∧ midBlock.phase ≠ .done ∧ midBlock.pc ≠ lastPc ∧
      1 ≤ (1#6).toNat ∧ (1#6).toNat ≤ 32 ∧ 1 ≤ (32#6).toNat ∧ (32#6).toNat ≤ 32 := by decide

theorem witness_PutCommandsResult_badWidth :
    ((0#6).toNat = 0 ∨ 32 < (0#6).toNat) ∧ ((33#6).toNat = 0 ∨ 32 < (33#6).toNat) ∧
      ((63#6).toNat = 0 ∨ 32 < (63#6).toNat) := by decide

theorem witness_AlignAndFinishResult :
    midBlock.err = none ∧ midBlock.group = .empty ∧ midBlock.pc ≠ lastPc ∧ midBlock.phase ≠ .done ∧
      (midBlock.phase = .idle ∨ midBlock.phase = .stData ∨ midBlock.phase = .dynCl ∨ midBlock.phase = .huff) := by decide

theorem witness_TableLoadResult :
    midBlock.err = none ∧ midBlock.group = .empty ∧
      (midBlock.phase = .dynWait ∨ midBlock.phase = .dynCl ∨ midBlock.phase = .huff) ∧ midBlock.pc ≠ lastPc ∧
      (287#16).toNat ≤ 287 ∧ (31#16).toNat ≤ 31 ∧ (18#16).toNat ≤ 18 ∧
      287 < (288#16).toNat ∧ 31 < (32#16).toNat ∧ 18 < (19#16).toNat := by decide

theorem witness_CllSetResult :
    (inPhase .dynWait).err = none ∧ (inPhase .dynWait).group = .empty ∧ (inPhase .dynWait).phase = .dynWait ∧
      (inPhase .dynWait).pc ≠ lastPc ∧ (18#5).toNat ≤ 18 ∧ 18 < (19#5).toNat := by decide

theorem witness_BlockHeaderResult :
    midBlock.err = none ∧ midBlock.group = .empty ∧
      (midBlock.phase = .idle ∨ midBlock.phase = .stData ∨ midBlock.phase = .dynCl ∨ midBlock.phase = .huff) ∧
      midBlock.pc ≠ lastPc ∧ (2 : BitVec 2) ≠ 3#2 := by decide

theorem witness_BlockHeaderInvalidatesTables :
    midBlock.err = none ∧ ∃ t, exec (.blkHdr 0 1) midBlock = .next t ∧ t.err = none := ⟨by decide, _, rfl, by decide⟩

/-- A BLK_HDR that takes an entry away, and a load in each table that gives one, at the last symbol of the table. -/
theorem witness_BlockHeaderInvalidatesTables_changes :
    (∃ t, step { midBlock with input := [encode (.blkHdr 0 1)] } = .next t ∧
      t.tables.ll.lookup 65 ≠ midBlock.tables.ll.lookup 65) ∧
    (∃ t, step { midBlock with input := [encode (.tblLoadLL 287 1 8)] } = .next t ∧
      t.tables.ll.lookup 287 ≠ midBlock.tables.ll.lookup 287) ∧
    (∃ t, step { midBlock with input := [encode (.tblLoadD 31 1 5)] } = .next t ∧
      t.tables.d.lookup 31 ≠ midBlock.tables.d.lookup 31) ∧
    (∃ t, step { midBlock with input := [encode (.tblLoadCL 18 1 5)] } = .next t ∧
      t.tables.cl.lookup 18 ≠ midBlock.tables.cl.lookup 18) ∧
    (∃ t, step { inPhase .dynWait with input := [encode (.cllSet 18 7)] } = .next t ∧
      t.tables.cllen.lookup 18 ≠ (inPhase .dynWait).tables.cllen.lookup 18) :=
  ⟨⟨_, rfl, by decide⟩, ⟨_, rfl, by decide⟩, ⟨_, rfl, by decide⟩, ⟨_, rfl, by decide⟩, ⟨_, rfl, by decide⟩⟩

theorem witness_StoredLengthResult :
    (inPhase .stWait).err = none ∧ (inPhase .stWait).group = .empty ∧ (inPhase .stWait).phase = .stWait ∧
      (inPhase .stWait).pc ≠ lastPc ∧ (inPhase .stWait).buf.Inv := by
  unfold BitBuffer.Inv; decide

theorem witness_RawByteResult :
    (inPhase .stData).err = none ∧ (inPhase .stData).group = .empty ∧ (inPhase .stData).phase = .stData ∧
      (inPhase .stData).pc ≠ lastPc ∧ (inPhase .stData).buf.nbits = 0#3 ∧ (inPhase .stData).buf.acc = 0#8 := by decide

/-- The four symbols sent first have their lengths; the fifth, symbol 8, has not. -/
theorem witness_DynamicHeaderResult :
    let s := { inPhase .dynWait with tables := tablesV25 }
    s.err = none ∧ s.group = .empty ∧ s.phase = .dynWait ∧ s.pc ≠ lastPc ∧
      (∀ k < (0#4).toNat + 4, (clOrder[k]?).bind (fun sym => s.tables.cllen.lookup sym) = some 0#3) ∧
      4 < (1#4).toNat + 4 ∧ clOrder[4]? = some 8 ∧ s.tables.cllen.lookup 8 = none := by decide

theorem witness_CodeLengthSymbolResult :
    let s := { inPhase .dynCl with tables := tablesV28 }
    s.err = none ∧ s.group = .empty ∧ s.phase = .dynCl ∧ s.pc ≠ lastPc ∧
      18 < (19#5).toNat ∧ (0#5).toNat ≤ 18 ∧ s.tables.cl.lookup (0#5).toNat = none ∧
      s.tables.cl.lookup (5#5).toNat = some { len := 2, code := 2 } ∧ (5#5).toNat ≤ 15 ∧
      s.tables.cl.lookup (16#5).toNat = some { len := 3, code := 6 } ∧ (16#5).toNat = 16 ∧
      s.tables.cl.lookup (17#5).toNat = some { len := 4, code := 0xE } ∧ (17#5).toNat = 17 ∧
      s.tables.cl.lookup (18#5).toNat = some { len := 1, code := 0 } ∧ (18#5).toNat = 18 ∧
      tablesBadLen.cl.lookup (3#5).toNat = some { len := 0, code := 0 } := by decide

theorem witness_LiteralTokenResult :
    midBlock.err = none ∧ midBlock.group = .empty ∧ (midBlock.phase = .dynCl ∨ midBlock.phase = .huff) ∧
      midBlock.pc ≠ lastPc ∧ (256 : Token).toNat ≤ 256 ∧ midBlock.tables.ll.lookup (256 : Token).toNat = none ∧
      midBlock.tables.ll.lookup (65 : Token).toNat = some { len := 8, code := 0x71 } ∧
      tablesBadLen.ll.lookup (65 : Token).toNat = some { len := 0, code := 0 } := by decide

theorem witness_HeadTokenOutOfRangeIsMalformed :
    midBlock.err = none ∧ midBlock.group = .empty ∧ (midBlock.phase = .dynCl ∨ midBlock.phase = .huff) ∧
      286 ≤ (286 : Token).toNat ∧ 286 ≤ (65535 : Token).toNat := by decide

theorem witness_LengthCodeOpensGroup :
    midBlock.err = none ∧ midBlock.group = .empty ∧ (midBlock.phase = .dynCl ∨ midBlock.phase = .huff) ∧
      midBlock.pc ≠ lastPc ∧ 257 ≤ (257 : Token).toNat ∧ (257 : Token).toNat ≤ 285 ∧ (285 : Token).toNat ≤ 285 := by decide

theorem witness_GroupTokensAreLatched :
    (pending (.lc 257)).err = none ∧ (pending (.lc 257)).phase = .huff ∧ (pending (.lc 257)).pc ≠ lastPc ∧
      (pending (.lc 257)).group = .lc 257 ∧ (pending (.lcLe 257 0)).group = .lcLe 257 0 := by decide

theorem witness_GroupCommitResult :
    midGroup.err = none ∧ midGroup.phase = .huff ∧ midGroup.group = .lcLeDc 266 1 4 ∧ midGroup.pc ≠ lastPc ∧
      midGroup.tables.ll.lookup (266 : Token).toNat = some { len := 7, code := 0x0A } ∧ (4 : Token).toNat ≤ 29 ∧
      midGroup.tables.d.lookup (4 : Token).toNat = some { len := 5, code := 4 } ∧
      257 ≤ (266 : Token).toNat ∧ (266 : Token).toNat ≤ 285 := by decide

/-- The ends of the range of length codes. -/
theorem witness_GroupCommitResult_ends :
    257 ≤ (257 : Token).toNat ∧ (257 : Token).toNat ≤ 285 ∧ 257 ≤ (285 : Token).toNat ∧ (285 : Token).toNat ≤ 285 := by decide

/-- The failing clauses of the commit: no length code, a bad length of it, a distance code of 30, of 29 without an entry, and
a bad length of the distance code. -/
theorem witness_GroupCommitResult_fails :
    tablesV22.ll.lookup (285 : Token).toNat = none ∧
      tablesBadLen.ll.lookup (266 : Token).toNat = some { len := 33, code := 0 } ∧ 30 ≤ (30 : Token).toNat ∧
      (29 : Token).toNat ≤ 29 ∧ tablesV22.d.lookup (29 : Token).toNat = none ∧
      tablesBadLen.ll.lookup (257 : Token).toNat = some { len := 7, code := 1 } ∧
      tablesBadLen.d.lookup (4 : Token).toNat = some { len := 33, code := 0 } := by decide

theorem witness_CheckCodeOrder :
    tablesV22.ll.lookup 0 = none ∧ tablesBadLen.ll.lookup 65 = some { len := 0, code := 0 } ∧
      tablesBadLen.ll.lookup 266 = some { len := 33, code := 0 } ∧
      tablesV22.ll.lookup 266 = some { len := 7, code := 0x0A } := by decide

theorem witness_OutputBytesNeverChange :
    midGroup.buf.read 0 = some 0x4B ∧ ∃ t, step midGroup = .next t ∧ t.buf ≠ midGroup.buf := ⟨rfl, _, rfl, by decide⟩

/-- The commit of V22 stores the bytes 1 and 2, and neither byte 0 nor byte 3. -/
theorem witness_StoresOnlyTheBytesItFills :
    midGroup.err = none ∧ (∃ t, exec (.tok 1) midGroup = .next t) ∧
      ¬ (midGroup.buf.out.length ≤ 0 ∧
        0 < midGroup.buf.out.length + (midGroup.buf.nbits.toNat + (commandBits (.tok 1) midGroup).length) / 8) ∧
      ¬ (midGroup.buf.out.length ≤ 3 ∧
        3 < midGroup.buf.out.length + (midGroup.buf.nbits.toNat + (commandBits (.tok 1) midGroup).length) / 8) :=
  ⟨by decide, ⟨_, rfl⟩, by decide⟩

theorem witness_CommandsWriteOnlyTheirListedState :
    (∃ t, exec (.tok 1) midGroup = .next t) ∧ (∃ t, exec (.cllSet 18 7) (inPhase .dynWait) = .next t) ∧
      (∃ t, exec (.raw 1) inError = .next t) := ⟨⟨_, rfl⟩, ⟨_, rfl⟩, ⟨_, rfl⟩⟩

/-- The clauses for TOK: a literal, a length code, and the two tokens that are latched. -/
theorem witness_CommandsWriteOnlyTheirListedState_tok :
    (midBlock.group = .empty ∧ (65 : Token).toNat ≤ 256 ∧ ∃ t, exec (.tok 65) midBlock = .next t ∧ t.err = none) ∧
    (257 ≤ (257 : Token).toNat ∧ ∃ t, exec (.tok 257) midBlock = .next t ∧ t.err = none) ∧
    (∃ t, exec (.tok 65535) (pending (.lc 257)) = .next t ∧ t.err = none) ∧
    (∃ t, exec (.tok 65535) (pending (.lcLe 257 0)) = .next t ∧ t.err = none) :=
  ⟨⟨rfl, by decide, _, rfl, by decide⟩, ⟨by decide, _, rfl, by decide⟩, ⟨_, rfl, by decide⟩, ⟨_, rfl, by decide⟩⟩

theorem witness_PhaseChangesByTheTable :
    midBlock.Inv ∧ ∃ t, exec (.blkHdr 0 2) midBlock = .next t ∧ t.err = none ∧ midBlock.phase ≠ .idle :=
  ⟨midBlock_inv, _, rfl, by decide⟩

theorem witness_CommandAppendsItsFields :
    midGroup.buf.Inv ∧ midGroup.err = none ∧ ∃ t, exec (.tok 1) midGroup = .next t ∧ t.err = none :=
  ⟨midGroup_inv.buf, by decide, _, rfl, by decide⟩

theorem witness_MostBitsOneCommandAppends :
    midGroup.err = none ∧ ∃ t, exec (.tok 1) midGroup = .next t ∧ t.err = none := ⟨by decide, _, rfl, by decide⟩

/-- Seven bits pending before the longest commit: length code 284 and distance code 29, both with codes of 32 bits. -/
def longestCommit : State :=
  { withBuf (pending (.lcLeDc 284 31 29)) [] 0x7F 7 with
    tables := { Tables.invalid with ll := [(284, { len := 32, code := 0 })], d := [(29, { len := 32, code := 0 })] } }

theorem witness_OneCommandAppendsAtMostTenBytes : longestCommit.Inv ∧ ∃ t, exec (.tok 0x1FFF) longestCommit = .next t where
  left :=
    { buf := by unfold BitBuffer.Inv; decide
      done := by decide
      group := by decide
      lengthCode := by
        intro l h
        obtain rfl : (284 : Token) = l := by simpa [longestCommit, pending, withBuf, LdGroup.ldLc] using h
        decide
      tables := by unfold Tables.Inv Table.Inv; decide
      noTables := by decide
      errPc := by decide }
  right := ⟨_, rfl⟩

/-- A flat stream with a bit sequence, and one that ends inside a group. -/
theorem witness_SymbolStreamMatchesParse :
    midBlock.Inv ∧ midBlock.err = none ∧ midBlock.phase = .huff ∧ midBlock.group = .empty ∧ (2 : BitVec 2) ≠ 3#2 ∧
      midBlock.pc.toNat + ([65, 266, 1, 4, 1] : List Token).length + 1 < 2 ^ 64 ∧
      (flatBitsIn midBlock.tables [65, 266, 1, 4, 1]).isSome ∧ flatBitsIn midBlock.tables [65, 266] = none :=
  ⟨midBlock_inv, by decide⟩

theorem witness_ParseAndPseudoInstructionsAreInverse :
    parseTokens [65, 266, 1, 4, 1, 256] = some [.literal 65, .lengthDistance 266 1 4 1, .endOfBlock] ∧
      [SymbolToken.literal 65, .lengthDistance 266 1 4 1, .endOfBlock].flatMap SymbolToken.commands =
        ([65, 266, 1, 4, 1, 256] : List Token).map .tok ∧ 257 ≤ (266 : Token).toNat ∧ (266 : Token).toNat ≤ 285 := by decide

theorem witness_StoredBlockEndsOnABoundary :
    midBlock.buf.Inv ∧ midBlock.err = none ∧ midBlock.group = .empty ∧
      (midBlock.phase = .idle ∨ midBlock.phase = .stData ∨ midBlock.phase = .dynCl ∨ midBlock.phase = .huff) ∧
      midBlock.pc.toNat + ([1, 2] : List Byte).length + 2 < 2 ^ 64 := ⟨midBlock_inv.buf, by decide⟩

/-- A Stream with one stored block, with bytes, and one whose only token has no table entry, without. -/
theorem witness_EncoderProducesTheFormat :
    let good : Sys2Proof.Machine.Stream := { envelope := none, blocks := [{ isFinal := true, payload := .stored 1 0xFFFE [0x21] }] }
    let bad : Sys2Proof.Machine.Stream :=
      { envelope := none, blocks := [{ isFinal := true, payload := .fixedHuffman ⟨[], [], [0]⟩ }] }
    (compile good).length < 2 ^ 64 ∧ streamBytes good = some [0x01, 0x01, 0x00, 0xFE, 0xFF, 0x21] ∧
      (compile bad).length < 2 ^ 64 ∧ streamBytes bad = none := by decide

theorem witness_BoundedOutputIsStuckNotWrong :
    (∃ t, step midGroup = .next t ∧ t.buf.out.length ≤ 3 ∧ 2 < t.buf.out.length) ∧ midGroup.buf.out.length ≤ 2 ∧
      (∃ t, stepWithCap (some 3) midGroup = .next t) := ⟨⟨_, rfl, by decide⟩, by decide, ⟨_, rfl⟩⟩

theorem witness_InstancesAreIndependent :
    (1 : Nat) ≠ 0 ∧ [midGroup][0]? = [midGroup, midBlock][0]? ∧ [midGroup][0]? = some midGroup ∧
      ∃ t, step midGroup = .next t := ⟨by decide, by decide, rfl, _, rfl⟩

/-- An instance whose step has no next state. -/
theorem witness_InstancesAreIndependent_stopped :
    [{ midBlock with pc := lastPc, input := [encode .align] }][0]? =
        some { midBlock with pc := lastPc, input := [encode .align] } ∧
      step { midBlock with pc := lastPc, input := [encode .align] } = .refused .pcExhausted := ⟨rfl, rfl⟩

end Sys2Proof.Tests
end

section
/-!
PROOFS. The BitBuffer operations as sequences of pushed bits, the byte boundary `align()` reaches, and that the bit sequence
determines a buffer (40_bitbuffer.md R90 to R95, 10_state.md R12, R14).
-/
namespace Sys2Proof.Machine

/-! ### A buffer reached by pushing bits -/

/-- `c` is `b` after some bits were pushed: the only thing a command does to the buffer (40_bitbuffer.md R90). -/
def BitBuffer.Pushed (b c : BitBuffer) : Prop := ∃ bits : List Bool, c = bits.foldl (fun x bit => x.pushBit bit) b

theorem pushed_refl (b : BitBuffer) : b.Pushed b := ⟨[], rfl⟩

theorem pushed_trans {a b c : BitBuffer} (hab : a.Pushed b) (hbc : b.Pushed c) : a.Pushed c := by
  obtain ⟨xs, rfl⟩ := hab
  obtain ⟨ys, rfl⟩ := hbc
  exact ⟨xs ++ ys, by rw [List.foldl_append]⟩

theorem pushed_pushBit (b : BitBuffer) (bit : Bool) : b.Pushed (b.pushBit bit) := ⟨[bit], rfl⟩

theorem pushed_putLsb (b : BitBuffer) (v n : Nat) : b.Pushed (b.putLsb v n) := by
  induction n with
  | zero => exact pushed_refl b
  | succ n ih => exact pushed_trans ih (pushed_pushBit _ _)

theorem pushed_putMsb (b : BitBuffer) (v n : Nat) : b.Pushed (b.putMsb v n) := by
  induction n generalizing b with
  | zero => exact pushed_refl b
  | succ n ih => exact pushed_trans (pushed_pushBit b _) (ih _)

theorem pushed_putZeros (b : BitBuffer) (n : Nat) : b.Pushed (BitBuffer.putZeros n b) := by
  induction n generalizing b with
  | zero => exact pushed_refl b
  | succ n ih => exact pushed_trans (pushed_pushBit b _) (ih _)

theorem pushed_align (b : BitBuffer) : b.Pushed b.align := pushed_putZeros b _

theorem pushed_putCode (b : BitBuffer) (e : Entry) : b.Pushed (b.putCode e) := pushed_putMsb b _ _

theorem pushed_putExtra (b : BitBuffer) (v c : Nat) : b.Pushed (b.putExtra v c) := by
  unfold BitBuffer.putExtra
  split
  · exact pushed_putLsb b v c
  · exact pushed_refl b

theorem pushed_putLens (b : BitBuffer) (lens : List (BitVec 3)) : b.Pushed (b.putLens lens) := by
  induction lens generalizing b with
  | nil => exact pushed_refl b
  | cons l ls ih => exact pushed_trans (pushed_putLsb b _ _) (ih _)

theorem pushed_putCounts (b : BitBuffer) (hlit hdist : BitVec 5) (hclen : BitVec 4) :
    b.Pushed (b.putCounts hlit hdist hclen) :=
  pushed_trans (pushed_trans (pushed_putLsb b _ _) (pushed_putLsb _ _ _)) (pushed_putLsb _ _ _)

theorem pushed_putGroup (b : BitBuffer) (lcode dcode : Entry) (lc le dc de : Nat) :
    b.Pushed (b.putGroup lcode dcode lc le dc de) :=
  pushed_trans (pushed_trans (pushed_trans (pushed_putCode b _) (pushed_putExtra _ _ _)) (pushed_putCode _ _))
    (pushed_putExtra _ _ _)

/-- Pushing bits keeps the BitBuffer invariant (10_state.md R14). -/
theorem pushed_inv {b c : BitBuffer} (hp : b.Pushed c) (h : b.Inv) : c.Inv := by
  obtain ⟨bits, rfl⟩ := hp
  induction bits generalizing b with
  | nil => exact h
  | cons bit bits ih => exact ih (pushBit_inv h bit)

/-- Pushing bits only appends to `OUT` (20_memory.md R41). -/
theorem pushed_out {b c : BitBuffer} (hp : b.Pushed c) : b.out <+: c.out := by
  obtain ⟨bits, rfl⟩ := hp
  induction bits generalizing b with
  | nil => exact List.prefix_refl _
  | cons bit bits ih => exact (pushBit_out b bit).trans ih

/-- Pushing bits changes no byte of `OUT` (20_memory.md R50). -/
theorem pushed_read {b c : BitBuffer} (hp : b.Pushed c) {a : Nat} {x : Byte} (h : b.read a = some x) :
    c.read a = some x := by
  obtain ⟨ha, rfl⟩ := List.getElem?_eq_some_iff.mp h
  exact List.prefix_iff_getElem?.mp (pushed_out hp) a ha

/-! ### The boundary that `align()` reaches -/

/-- `n` zero bits add `n` to the number of bits appended. -/
theorem putZeros_bitCount (b : BitBuffer) (n : Nat) : (BitBuffer.putZeros n b).bitCount = b.bitCount + n := by
  induction n generalizing b with
  | zero => rfl
  | succ n ih =>
    simp only [BitBuffer.putZeros, ih, pushBit_bitCount]
    omega

/-- `nbits` is the number of bits appended past the last byte boundary (10_state.md R14). -/
theorem bitCount_mod (b : BitBuffer) : b.bitCount % 8 = b.nbits.toNat := by
  have hn : b.nbits.toNat < 8 := b.nbits.isLt
  unfold BitBuffer.bitCount
  omega

/-- The padding brings the pending bits to a whole byte (20_memory.md R49). -/
theorem nbits_add_padding_mod (b : BitBuffer) : (b.nbits.toNat + b.padding) % 8 = 0 := by
  have hn : b.nbits.toNat < 8 := b.nbits.isLt
  unfold BitBuffer.padding
  split
  · next h0 => simp [h0]
  · omega

/-- After `align()` nothing is pending (40_bitbuffer.md R95). -/
theorem align_nbits (b : BitBuffer) : b.align.nbits = 0#3 := by
  have hc : b.align.bitCount = b.bitCount + b.padding := putZeros_bitCount b b.padding
  have hb := bitCount_mod b
  have ha := bitCount_mod b.align
  have hp := nbits_add_padding_mod b
  refine BitVec.eq_of_toNat_eq ?_
  simp only [BitVec.toNat_ofNat, Nat.zero_mod]
  omega

/-- With nothing pending the accumulator is 0 (10_state.md R14). -/
theorem inv_acc_of_nbits_zero {b : BitBuffer} (h : b.Inv) (hn : b.nbits = 0#3) : b.acc = 0#8 := by
  refine BitVec.eq_of_toNat_eq ?_
  simpa [BitBuffer.Inv, hn] using h

/-! ### The bit sequence determines the buffer -/

@[simp] theorem byteBits_length (x : Byte) : (byteBits x).length = 8 := by simp [byteBits]

theorem bytesBits_cons (x : Byte) (xs : List Byte) : bytesBits (x :: xs) = byteBits x ++ bytesBits xs := by
  simp [bytesBits]

theorem bytesBits_length (xs : List Byte) : (bytesBits xs).length = 8 * xs.length := by
  induction xs with
  | nil => rfl
  | cons x xs ih =>
    rw [bytesBits_cons, List.length_append, byteBits_length, ih, List.length_cons]
    omega

/-- The length of the bit sequence is the number of bits appended (10_state.md R14). -/
theorem bits_length (b : BitBuffer) : b.bits.length = b.bitCount := by
  simp [BitBuffer.bits, BitBuffer.bitCount, bytesBits_length]

/-- A list of a vector's low bits fixes each of them. -/
theorem getLsbD_eq_of_map_range {w n : Nat} {x y : BitVec w}
    (h : (List.range n).map x.getLsbD = (List.range n).map y.getLsbD) {i : Nat} (hi : i < n) :
    x.getLsbD i = y.getLsbD i :=
  List.map_inj_left.mp h i (List.mem_range.mpr hi)

theorem byteBits_injective : Function.Injective byteBits := fun _ _ h =>
  BitVec.eq_of_getLsbD_eq fun _ hi => getLsbD_eq_of_map_range h hi

theorem bytesBits_injective : Function.Injective bytesBits := by
  intro xs ys h
  induction xs generalizing ys with
  | nil =>
    have hl := congrArg List.length h
    rw [bytesBits_length, bytesBits_length, List.length_nil] at hl
    exact (List.length_eq_zero_iff.mp (by omega)).symm
  | cons x xs ih =>
    cases ys with
    | nil => simp [bytesBits, byteBits] at h
    | cons y ys =>
      rw [bytesBits_cons, bytesBits_cons] at h
      obtain ⟨hx, hxs⟩ := List.append_inj h (by simp)
      rw [byteBits_injective hx, ih hxs]

/-- Under the invariant the accumulator has no bit at `nbits` or above (10_state.md R14). -/
theorem inv_acc_getLsbD {b : BitBuffer} (h : b.Inv) {i : Nat} (hi : b.nbits.toNat ≤ i) : b.acc.getLsbD i = false :=
  Nat.testBit_lt_two_pow (h.trans_le (Nat.pow_le_pow_right (by omega) hi))

/-- Two accumulators with the same pending bits are equal, for buffers that meet the invariant. -/
theorem inv_acc_eq {b c : BitBuffer} (hb : b.Inv) (hc : c.Inv) (hn : b.nbits = c.nbits)
    (h : (List.range b.nbits.toNat).map b.acc.getLsbD = (List.range b.nbits.toNat).map c.acc.getLsbD) :
    b.acc = c.acc := by
  refine BitVec.eq_of_getLsbD_eq fun i _ => ?_
  by_cases hlt : i < b.nbits.toNat
  · exact getLsbD_eq_of_map_range h hlt
  · rw [inv_acc_getLsbD hb (by omega), inv_acc_getLsbD hc (by rw [← hn]; omega)]

/-- Under the invariant the bit sequence determines the buffer (10_state.md R12, R14). -/
theorem bits_injOn {b c : BitBuffer} (hb : b.Inv) (hc : c.Inv) (h : b.bits = c.bits) : b = c := by
  have hcount : b.bitCount = c.bitCount := by rw [← bits_length, ← bits_length, h]
  have hn : b.nbits = c.nbits := BitVec.eq_of_toNat_eq (by rw [← bitCount_mod, ← bitCount_mod, hcount])
  have hlen : b.out.length = c.out.length := by
    simp only [BitBuffer.bitCount, hn] at hcount
    omega
  obtain ⟨hout, hacc⟩ := List.append_inj h (by rw [bytesBits_length, bytesBits_length, hlen])
  rw [← hn] at hacc
  cases b; cases c
  simp only [BitBuffer.mk.injEq]
  exact ⟨bytesBits_injective hout, inv_acc_eq hb hc hn hacc, hn⟩

end Sys2Proof.Machine
end

section
/-!
PROOFS. Everything a completing command can write: one constructor per way `exec` completes, with the checks that passed, and
the inversion lemma that ties it to `exec`. The claims about steps below are case analyses of it.
-/
namespace Sys2Proof.Machine

/-- The own writes of a command on `s`: the state after all of them but that of `pc`, where its own checks passed
(60_exceptions.md R201 steps 6 and 7). -/
inductive OwnWrites (s : State) : Instr → State → Prop
  | putLsb {n : BitVec 6} {value : BitVec 32} (hn : badWidth n.toNat = false) :
      OwnWrites s (.putLsb n value) (s.setBuf (s.buf.putLsb value.toNat n.toNat))
  | putMsb {n : BitVec 6} {value : BitVec 32} (hn : badWidth n.toNat = false) :
      OwnWrites s (.putMsb n value) (s.setBuf (s.buf.putMsb value.toNat n.toNat))
  | align : OwnWrites s .align (s.setBuf s.buf.align)
  | finish : OwnWrites s .finish ((s.setBuf s.buf.align).setPhase .done)
  | tblLoadLL {sym : BitVec 16} {code : BitVec 32} {len : BitVec 6} (hs : sym.toNat ≤ 287) :
      OwnWrites s (.tblLoadLL sym code len)
        (s.setTables { s.tables with ll := loadEntry s.tables.ll sym code len })
  | tblLoadD {sym : BitVec 16} {code : BitVec 32} {len : BitVec 6} (hs : sym.toNat ≤ 31) :
      OwnWrites s (.tblLoadD sym code len)
        (s.setTables { s.tables with d := loadEntry s.tables.d sym code len })
  | tblLoadCL {sym : BitVec 16} {code : BitVec 32} {len : BitVec 6} (hs : sym.toNat ≤ 18) :
      OwnWrites s (.tblLoadCL sym code len)
        (s.setTables { s.tables with cl := loadEntry s.tables.cl sym code len })
  | cllSet {sym : BitVec 5} {len3 : BitVec 3} (hs : sym.toNat ≤ 18) :
      OwnWrites s (.cllSet sym len3)
        (s.setTables { s.tables with cllen := s.tables.cllen.store sym.toNat len3 })
  | blkHdr {bfinal : BitVec 1} {btype : BitVec 2} {p : Phase} (hp : openedPhase btype = some p) :
      OwnWrites s (.blkHdr bfinal btype)
        (((s.setBuf ((s.buf.putLsb bfinal.toNat 1).putLsb btype.toNat 2)).setTables Tables.invalid).setPhase p)
  | stLen {len nlen : BitVec 16} :
      OwnWrites s (.stLen len nlen)
        ((s.setBuf ((s.buf.align.putLsb len.toNat 16).putLsb nlen.toNat 16)).setPhase .stData)
  | raw {byte : BitVec 8} : OwnWrites s (.raw byte) (s.setBuf (s.buf.putLsb byte.toNat 8))
  | dynHdr {hlit hdist : BitVec 5} {hclen : BitVec 4} {lens : List (BitVec 3)}
      (hl : gatherLens s.tables.cllen (clOrder.take (hclen.toNat + 4)) = some lens) :
      OwnWrites s (.dynHdr hlit hdist hclen)
        ((s.setBuf ((s.buf.putCounts hlit hdist hclen).putLens lens)).setPhase .dynCl)
  | clsym {sym : BitVec 5} {extra : BitVec 7} {e : Entry} (hs : sym.toNat ≤ 18)
      (he : checkCode s.tables.cl sym.toNat = .ok e) :
      OwnWrites s (.clsym sym extra)
        (s.setBuf ((s.buf.putCode e).putExtra extra.toNat (clx sym.toNat)))
  | tokLiteral {v : Token} {e : Entry} (hg : s.group = .empty) (hv : v.toNat ≤ 256)
      (he : checkCode s.tables.ll v.toNat = .ok e) :
      OwnWrites s (.tok v) ((s.setBuf (s.buf.putCode e)).setPhase .huff)
  | tokLengthCode {v : Token} (hg : s.group = .empty) (hlo : 257 ≤ v.toNat) (hhi : v.toNat ≤ 285) :
      OwnWrites s (.tok v) ((s.setGroup (.lc v)).setPhase .huff)
  | tokLengthExtra {v l : Token} (hg : s.group = .lc l) : OwnWrites s (.tok v) (s.setGroup (.lcLe l v))
  | tokDistanceCode {v l e : Token} (hg : s.group = .lcLe l e) :
      OwnWrites s (.tok v) (s.setGroup (.lcLeDc l e v))
  | tokCommit {v l e d : Token} {lcode dcode : Entry} (hg : s.group = .lcLeDc l e d)
      (hl : checkCode s.tables.ll l.toNat = .ok lcode) (hd : d.toNat ≤ 29)
      (hc : checkCode s.tables.d d.toNat = .ok dcode) :
      OwnWrites s (.tok v)
        ((s.setBuf (s.buf.putGroup lcode dcode l.toNat e.toNat d.toNat v.toNat)).setGroup .empty)

/-! ### The own parts -/

/-- A head token that completes is a literal, end-of-block or a length code (43_huffman_symbols.md R131, R133). -/
theorem tokHead_writes {v : Token} {s u : State} (hg : s.group = .empty) (h : tokHead v s = .ok u) :
    OwnWrites s (.tok v) u := by
  unfold tokHead at h
  split at h
  · next hv =>
    split at h
    · cases h
    · next e he => cases h; exact .tokLiteral hg hv he
  · next hlo =>
    split at h
    · next hhi => cases h; exact .tokLengthCode hg (by omega) hhi
    · cases h

/-- A commit that completes passed its checks and clears the group (43_huffman_symbols.md R135, R136). -/
theorem tokCommit_writes {l e d v : Token} {s u : State} (hg : s.group = .lcLeDc l e d)
    (h : tokCommit l e d v s = .ok u) : OwnWrites s (.tok v) u := by
  unfold tokCommit at h
  split at h
  · cases h
  · next lcode hl =>
    split at h
    · cases h
    · next hd =>
      split at h
      · cases h
      · next dcode hc => cases h; exact .tokCommit hg hl (by omega) hc

/-- What TOK writes, by the number of tokens already latched (43_huffman_symbols.md R130). -/
theorem tokBody_writes {v : Token} {s u : State} (h : tokBody v s = .ok u) : OwnWrites s (.tok v) u := by
  unfold tokBody at h
  split at h
  · next hg => exact tokHead_writes hg h
  · next hg => cases h; exact .tokLengthExtra hg
  · next hg => cases h; exact .tokDistanceCode hg
  · next hg => exact tokCommit_writes hg h

/-- Every command is one run of `runCommand` on an own part that completes with the command's own writes only. -/
theorem exec_eq_runCommand_writes (i : Instr) (s : State) :
    ∃ body, exec i s = runCommand i.command body s ∧ ∀ u, body = .ok u → OwnWrites s i u := by
  cases i <;>
    simp only [exec, Instr.command, execPutLsb, execPutMsb, execAlign, execFinish, execTblLoadLL, execTblLoadD,
      execTblLoadCL, execCllSet, execBlkHdr, execStLen, execRaw, execDynHdr, execClsym, execTok] <;>
    refine ⟨_, rfl, fun u h => ?_⟩
  case putLsb n value =>
    split at h
    · cases h
    · next hn => obtain rfl := Except.ok.inj h; exact .putLsb (by simpa using hn)
  case putMsb n value =>
    split at h
    · cases h
    · next hn => obtain rfl := Except.ok.inj h; exact .putMsb (by simpa using hn)
  case align => obtain rfl := Except.ok.inj h; exact .align
  case finish => obtain rfl := Except.ok.inj h; exact .finish
  case tblLoadLL sym code len =>
    split at h
    · cases h
    · obtain rfl := Except.ok.inj h; exact .tblLoadLL (by omega)
  case tblLoadD sym code len =>
    split at h
    · cases h
    · obtain rfl := Except.ok.inj h; exact .tblLoadD (by omega)
  case tblLoadCL sym code len =>
    split at h
    · cases h
    · obtain rfl := Except.ok.inj h; exact .tblLoadCL (by omega)
  case cllSet sym len3 =>
    split at h
    · cases h
    · obtain rfl := Except.ok.inj h; exact .cllSet (by omega)
  case blkHdr bfinal btype =>
    split at h
    · cases h
    · next p hp => obtain rfl := Except.ok.inj h; exact .blkHdr hp
  case stLen len nlen => obtain rfl := Except.ok.inj h; exact .stLen
  case raw byte => obtain rfl := Except.ok.inj h; exact .raw
  case dynHdr hlit hdist hclen =>
    split at h
    · cases h
    · next lens hl => obtain rfl := Except.ok.inj h; exact .dynHdr hl
  case clsym sym extra =>
    split at h
    · cases h
    · split at h
      · cases h
      · next e he => obtain rfl := Except.ok.inj h; exact .clsym (by omega) he
  case tok v => exact tokBody_writes h

/-! ### Inversion -/

/-- The own writes leave the sequencing state alone. -/
theorem ownWrites_sequencing {i : Instr} {s u : State} (h : OwnWrites s i u) :
    u.pc = s.pc ∧ u.err = s.err ∧ u.errPc = s.errPc ∧ u.input = s.input := by
  cases h <;> simp

/-- Every way a command can answer a next state: discarded, an error of one kind, or completed with its own writes and the
counter advanced (60_exceptions.md R201). -/
theorem exec_next_writes {i : Instr} {s t : State} (h : exec i s = .next t) :
    (s.err ≠ none ∧ t = s) ∨
    (s.err = none ∧ ∃ k, t = raise k s) ∨
    (s.err = none ∧ commonFault i.command s = none ∧ s.pc ≠ lastPc ∧
      ∃ u, OwnWrites s i u ∧ t = u.setPc (s.pc + 1)) := by
  obtain ⟨body, hb, hw⟩ := exec_eq_runCommand_writes i s
  rw [hb] at h
  rcases runCommand_next_cases h with h | ⟨he, k, ht, _⟩ | ⟨he, hc, u, hu, hp, ht⟩
  · exact .inl h
  · exact .inr (.inl ⟨he, k, ht⟩)
  · obtain ⟨hpc, -⟩ := ownWrites_sequencing (hw u hu)
    rw [hpc] at hp ht
    exact .inr (.inr ⟨he, hc, hp, u, hw u hu, ht⟩)

/-- Every way a step can answer a next state: idle, a word discarded, an undecodable word, or the command of the word, each
on the state that has consumed it (60_exceptions.md R201 to R203, R214). -/
theorem step_next_cases {s t : State} (h : step s = .next t) :
    t = s ∨
    ∃ w ws, s.input = w :: ws ∧
      ((s.err ≠ none ∧ t = s.setInput ws) ∨
       (s.err = none ∧ t = raise .illegalCommand (s.setInput ws)) ∨
       (∃ i, decode w = .ok i ∧ exec i (s.setInput ws) = .next t)) := by
  cases hin : s.input with
  | nil => exact .inl (by simpa [step, fetch, hin, eq_comm] using h)
  | cons w ws =>
    refine .inr ⟨w, ws, rfl, ?_⟩
    simp only [step, fetch, hin, stepWord] at h
    split at h
    · next he => exact .inl ⟨by simpa [Option.isSome_iff_ne_none] using he, by simpa [eq_comm] using h⟩
    · next he =>
      split at h
      · exact .inr (.inl ⟨by simpa using he, by simpa [eq_comm] using h⟩)
      · next i hd => exact .inr (.inr ⟨i, hd, h⟩)

/-! ### The buffer -/

/-- The own writes of a command push bits and do nothing else to the buffer (20_memory.md R41). -/
theorem ownWrites_pushed {i : Instr} {s u : State} (h : OwnWrites s i u) : s.buf.Pushed u.buf := by
  cases h <;> simp only [setBuf_buf, setPhase_buf, setTables_buf, setGroup_buf]
  case putLsb | raw => exact pushed_putLsb _ _ _
  case putMsb => exact pushed_putMsb _ _ _
  case align | finish => exact pushed_align _
  case tblLoadLL | tblLoadD | tblLoadCL | cllSet => exact pushed_refl _
  case blkHdr => exact pushed_trans (pushed_putLsb _ _ _) (pushed_putLsb _ _ _)
  case stLen => exact pushed_trans (pushed_trans (pushed_align _) (pushed_putLsb _ _ _)) (pushed_putLsb _ _ _)
  case dynHdr => exact pushed_trans (pushed_putCounts _ _ _ _) (pushed_putLens _ _)
  case clsym => exact pushed_trans (pushed_putCode _ _) (pushed_putExtra _ _ _)
  case tokLiteral => exact pushed_putCode _ _
  case tokLengthCode | tokLengthExtra | tokDistanceCode => exact pushed_refl _
  case tokCommit => exact pushed_putGroup _ _ _ _ _ _ _

/-- A command pushes bits and does nothing else to the buffer. -/
theorem exec_pushed {i : Instr} {s t : State} (h : exec i s = .next t) : s.buf.Pushed t.buf := by
  rcases exec_next_writes h with ⟨-, rfl⟩ | ⟨-, k, rfl⟩ | ⟨-, -, -, u, hw, rfl⟩
  · exact pushed_refl _
  · exact pushed_refl _
  · simpa using ownWrites_pushed hw

/-- A step pushes bits and does nothing else to the buffer. -/
theorem step_pushed {s t : State} (h : step s = .next t) : s.buf.Pushed t.buf := by
  rcases step_next_cases h with rfl | ⟨w, ws, -, ⟨-, rfl⟩ | ⟨-, rfl⟩ | ⟨i, -, hx⟩⟩
  · exact pushed_refl _
  · exact pushed_refl _
  · exact pushed_refl _
  · simpa using exec_pushed hx

end Sys2Proof.Machine
end

section
/-!
PROOFS. The state's invariant (10_state.md R14, R17, R18, R22, R24 to R27): a rule per write of the state, then every command.
-/
namespace Sys2Proof.Machine

/-! ### One rule per write -/

/-- A write of the buffer keeps the invariant, before the stream is finished. -/
theorem setBuf_inv {s : State} {b : BitBuffer} (hi : s.Inv) (hd : s.phase ≠ .done) (hb : b.Inv) : (s.setBuf b).Inv where
  buf := hb
  done h := absurd h hd
  group := hi.group
  lengthCode := hi.lengthCode
  tables := hi.tables
  noTables := hi.noTables
  errPc := hi.errPc

/-- A write of the tables keeps the invariant in a phase that may hold entries. -/
theorem setTables_inv {s : State} {t : Tables} (hi : s.Inv) (ht : t.Inv)
    (hp : s.phase = .idle ∨ s.phase = .stWait ∨ s.phase = .stData → t = Tables.invalid) : (s.setTables t).Inv where
  buf := hi.buf
  done := hi.done
  group := hi.group
  lengthCode := hi.lengthCode
  tables := ht
  noTables := hp
  errPc := hi.errPc

/-- A change of phase keeps the invariant if the new phase's own clauses hold. -/
theorem setPhase_inv {s : State} {p : Phase} (hi : s.Inv) (hd : p = .done → s.buf.nbits = 0#3)
    (hg : s.group = .empty ∨ p = .huff)
    (ht : p = .idle ∨ p = .stWait ∨ p = .stData → s.tables = Tables.invalid) : (s.setPhase p).Inv where
  buf := hi.buf
  done h := ⟨hd h, inv_acc_of_nbits_zero hi.buf (hd h)⟩
  group h := hg.resolve_left h
  lengthCode := hi.lengthCode
  tables := hi.tables
  noTables := ht
  errPc := hi.errPc

/-- Entering HUFF keeps the invariant. -/
theorem setPhase_huff_inv {s : State} (hi : s.Inv) : (s.setPhase .huff).Inv :=
  setPhase_inv hi (by simp) (.inr rfl) (by simp)

/-- A write of the group keeps the invariant in HUFF, if its length code is in range. -/
theorem setGroup_inv {s : State} {g : LdGroup} (hi : s.Inv) (hp : s.phase = .huff)
    (hl : ∀ l, g.ldLc = some l → 257 ≤ l.toNat ∧ l.toNat ≤ 285) : (s.setGroup g).Inv where
  buf := hi.buf
  done := hi.done
  group _ := hp
  lengthCode := hl
  tables := hi.tables
  noTables := hi.noTables
  errPc := hi.errPc

/-- The counter advances without an error recorded. -/
theorem setPc_inv {s : State} (v : BitVec 64) (hi : s.Inv) (he : s.err = none) : (s.setPc v).Inv where
  buf := hi.buf
  done := hi.done
  group := hi.group
  lengthCode := hi.lengthCode
  tables := hi.tables
  noTables := hi.noTables
  errPc := by simpa [he] using hi.errPc

/-- Error entry freezes the counter in `err_pc` (10_state.md R22). -/
theorem raise_inv {s : State} (k : ErrKind) (hi : s.Inv) : (raise k s).Inv where
  buf := hi.buf
  done := hi.done
  group := hi.group
  lengthCode := hi.lengthCode
  tables := hi.tables
  noTables := hi.noTables
  errPc := by simp

/-- The command stream is no part of the invariant. -/
theorem setInput_inv {s : State} (ws : List Word) (hi : s.Inv) : (s.setInput ws).Inv where
  buf := hi.buf
  done := hi.done
  group := hi.group
  lengthCode := hi.lengthCode
  tables := hi.tables
  noTables := hi.noTables
  errPc := hi.errPc

/-! ### The tables after a load -/

theorem loadLL_inv {t : Tables} {sym : BitVec 16} (code : BitVec 32) (len : BitVec 6) (h : t.Inv)
    (hs : sym.toNat ≤ 287) : Tables.Inv { t with ll := loadEntry t.ll sym code len } := by
  obtain ⟨hll, hd, hcl, hcllen⟩ := h
  exact ⟨store_inv _ hll (by omega), hd, hcl, hcllen⟩

theorem loadD_inv {t : Tables} {sym : BitVec 16} (code : BitVec 32) (len : BitVec 6) (h : t.Inv)
    (hs : sym.toNat ≤ 31) : Tables.Inv { t with d := loadEntry t.d sym code len } := by
  obtain ⟨hll, hd, hcl, hcllen⟩ := h
  exact ⟨hll, store_inv _ hd (by omega), hcl, hcllen⟩

theorem loadCL_inv {t : Tables} {sym : BitVec 16} (code : BitVec 32) (len : BitVec 6) (h : t.Inv)
    (hs : sym.toNat ≤ 18) : Tables.Inv { t with cl := loadEntry t.cl sym code len } := by
  obtain ⟨hll, hd, hcl, hcllen⟩ := h
  exact ⟨hll, hd, store_inv _ hcl (by omega), hcllen⟩

theorem storeCllen_inv {t : Tables} {sym : BitVec 5} (len3 : BitVec 3) (h : t.Inv)
    (hs : sym.toNat ≤ 18) : Tables.Inv { t with cllen := t.cllen.store sym.toNat len3 } := by
  obtain ⟨hll, hd, hcl, hcllen⟩ := h
  exact ⟨hll, hd, hcl, store_inv _ hcllen (by omega)⟩

/-! ### The phases -/

/-- In a phase in which TBL_LOAD or CLL_SET is legal no clause asks for empty tables (46_stream_assembler.md R184). -/
theorem phase_of_legal_load {c : Command} {p : Phase} (hc : c = .tblLoad ∨ c = .cllSet) (h : legal c p = true) :
    ¬ (p = .idle ∨ p = .stWait ∨ p = .stData) := by
  rcases hc with rfl | rfl <;> cases p <;> simp [legal] at h ⊢

/-- A block header opens a block and never finishes the stream (46_stream_assembler.md R180). -/
theorem openedPhase_ne_done {btype : BitVec 2} {p : Phase} (h : openedPhase btype = some p) : p ≠ .done := by
  rintro rfl
  unfold openedPhase at h
  repeat' split at h
  all_goals simp at h

/-! ### Every command -/

/-- The own writes of a command whose common checks passed keep the invariant. -/
theorem ownWrites_inv {i : Instr} {s u : State} (hi : s.Inv) (hc : commonFault i.command s = none)
    (hw : OwnWrites s i u) : u.Inv := by
  obtain ⟨hd, hge, hl⟩ := commonFault_none_iff.mp hc
  have hbuf : (s.setBuf u.buf).Inv := setBuf_inv hi hd (pushed_inv (ownWrites_pushed hw) hi.buf)
  cases hw <;> simp only [setBuf_buf, setPhase_buf, setTables_buf, setGroup_buf] at hbuf
  case putLsb | putMsb | align | raw | clsym => exact hbuf
  case finish =>
    exact setPhase_inv hbuf (fun _ => align_nbits s.buf) (.inl (by simpa [Instr.command] using hge)) (by simp)
  case tblLoadLL hs =>
    exact setTables_inv hi (loadLL_inv _ _ hi.tables hs) fun h => absurd h (phase_of_legal_load (.inl rfl) hl)
  case tblLoadD hs =>
    exact setTables_inv hi (loadD_inv _ _ hi.tables hs) fun h => absurd h (phase_of_legal_load (.inl rfl) hl)
  case tblLoadCL hs =>
    exact setTables_inv hi (loadCL_inv _ _ hi.tables hs) fun h => absurd h (phase_of_legal_load (.inl rfl) hl)
  case cllSet hs =>
    exact setTables_inv hi (storeCllen_inv _ hi.tables hs) fun h => absurd h (phase_of_legal_load (.inr rfl) hl)
  case blkHdr hp =>
    exact setPhase_inv (setTables_inv hbuf invalid_inv fun _ => rfl) (fun h => absurd h (openedPhase_ne_done hp))
      (.inl (by simpa [Instr.command] using hge)) (fun _ => rfl)
  case stLen =>
    have hp : s.phase = .stWait := by simpa [legal, Instr.command] using hl
    have ht : s.tables = Tables.invalid := hi.noTables (.inr (.inl hp))
    exact setPhase_inv hbuf (by simp) (.inl (by simpa [Instr.command] using hge)) (by simp [ht])
  case dynHdr =>
    exact setPhase_inv hbuf (by simp) (.inl (by simpa [Instr.command] using hge)) (by simp)
  case tokLiteral => exact setPhase_huff_inv hbuf
  case tokLengthCode _ hlo hhi =>
    refine setGroup_inv (setPhase_huff_inv hi) rfl fun l h => ?_
    cases h
    exact ⟨hlo, hhi⟩
  case tokLengthExtra hg =>
    exact setGroup_inv hi (hi.group (by simp [hg])) fun l h => hi.lengthCode l (by simpa [hg, LdGroup.ldLc] using h)
  case tokDistanceCode hg =>
    exact setGroup_inv hi (hi.group (by simp [hg])) fun l h => hi.lengthCode l (by simpa [hg, LdGroup.ldLc] using h)
  case tokCommit hg _ _ _ =>
    exact setGroup_inv hbuf (hi.group (by simp [hg])) (by simp [LdGroup.ldLc])

/-- Every command keeps the invariant. -/
theorem exec_inv {i : Instr} {s t : State} (hi : s.Inv) (h : exec i s = .next t) : t.Inv := by
  rcases exec_next_writes h with ⟨-, rfl⟩ | ⟨-, k, rfl⟩ | ⟨he, hc, -, u, hw, rfl⟩
  · exact hi
  · exact raise_inv k hi
  · obtain ⟨-, herr, -⟩ := ownWrites_sequencing hw
    exact setPc_inv _ (ownWrites_inv hi hc hw) (herr.trans he)

/-- Every step keeps the invariant. -/
theorem step_inv {s t : State} (hi : s.Inv) (h : step s = .next t) : t.Inv := by
  rcases step_next_cases h with rfl | ⟨w, ws, -, ⟨-, rfl⟩ | ⟨-, rfl⟩ | ⟨i, -, hx⟩⟩
  · exact hi
  · exact setInput_inv ws hi
  · exact raise_inv _ (setInput_inv ws hi)
  · exact exec_inv (setInput_inv ws hi) hx

/-- The reset state meets the invariant (10_state.md R34). -/
theorem reset_inv : State.reset.Inv where
  buf := by simp [BitBuffer.Inv, State.reset]
  done := by simp [State.reset]
  group := by simp [State.reset]
  lengthCode := by simp [State.reset, LdGroup.ldLc]
  tables := invalid_inv
  noTables _ := rfl
  errPc := rfl

end Sys2Proof.Machine
end

section
/-!
PROOFS. The counter's end, the reset values and the status words (10_state.md R20, R33, R34).
-/
namespace Sys2Proof.Machine

/-! ### The counter's end -/

/-- No command faults (60_exceptions.md R206). -/
theorem exec_ne_fault (i : Instr) (s : State) (f : Fault) : exec i s ≠ .fault f := by
  obtain ⟨body, hb, -⟩ := exec_eq_runCommand i s
  rw [hb]
  exact runCommand_ne_fault _ _ _ f

/-- A refused command would complete at the end of the counter (10_state.md R20). -/
theorem exec_refused_cases {i : Instr} {s : State} {r : Refusal} (h : exec i s = .refused r) :
    r = .pcExhausted ∧ s.pc = lastPc ∧ s.err = none := by
  obtain ⟨body, hb, hk⟩ := exec_eq_runCommand i s
  obtain ⟨hr, he, -, u, hu, hp⟩ := runCommand_refused_cases (hb ▸ h)
  obtain ⟨hpc, -⟩ := hk u hu
  exact ⟨hr, hpc ▸ hp, he⟩

/-- At the end of the counter a command that answers a next state leaves an error recorded. -/
theorem exec_next_err_of_lastPc {i : Instr} {s t : State} (hp : s.pc = lastPc) (h : exec i s = .next t) :
    t.err ≠ none := by
  rcases exec_next_cases h with ⟨he, rfl⟩ | ⟨-, k, rfl⟩ | ⟨-, -, hne, -⟩
  · exact he
  · simp
  · exact absurd hp hne

/-! ### The codes -/

theorem errCode_eq_zero_iff (e : Option ErrKind) : errCode e = 0#3 ↔ e = none := by
  cases e with
  | none => simp [errCode]
  | some k => cases k <;> simp [errCode, ErrKind.code]

theorem errKind_code_injective : Function.Injective ErrKind.code := by
  intro k l h
  cases k <;> cases l <;> simp [ErrKind.code] at h ⊢

theorem errCode_eq_code_iff (e : Option ErrKind) (k : ErrKind) : errCode e = k.code ↔ e = some k := by
  cases e with
  | none => cases k <;> simp [errCode, ErrKind.code]
  | some l => simp [errCode, errKind_code_injective.eq_iff]

/-! ### The fields of STATUS (10_state.md R33)

Each is found by leaving out the lower fields of the concatenation one by one. -/

open BitVec (extractLsb'_append_eq_of_le extractLsb'_append_eq_right extractLsb'_append_eq_left)

theorem status_errField (s : State) : s.status.extractLsb' 0 3 = errCode s.err :=
  extractLsb'_append_eq_right

theorem status_doneField (s : State) : s.status.extractLsb' 3 1 = BitVec.ofBool s.finished :=
  (extractLsb'_append_eq_of_le (by decide)).trans extractLsb'_append_eq_right

theorem status_phaseField (s : State) : s.status.extractLsb' 4 3 = s.phase.code :=
  (extractLsb'_append_eq_of_le (by decide)).trans <| (extractLsb'_append_eq_of_le (by decide)).trans
    extractLsb'_append_eq_right

theorem status_nbitsField (s : State) : s.status.extractLsb' 7 3 = s.buf.nbits :=
  (extractLsb'_append_eq_of_le (by decide)).trans <| (extractLsb'_append_eq_of_le (by decide)).trans <|
    (extractLsb'_append_eq_of_le (by decide)).trans extractLsb'_append_eq_right

theorem status_ldPhaseField (s : State) : s.status.extractLsb' 10 2 = s.group.ldPhase :=
  (extractLsb'_append_eq_of_le (by decide)).trans <| (extractLsb'_append_eq_of_le (by decide)).trans <|
    (extractLsb'_append_eq_of_le (by decide)).trans <| (extractLsb'_append_eq_of_le (by decide)).trans
      extractLsb'_append_eq_right

theorem status_zeroField (s : State) : s.status.extractLsb' 12 20 = 0#20 :=
  (extractLsb'_append_eq_of_le (by decide)).trans <| (extractLsb'_append_eq_of_le (by decide)).trans <|
    (extractLsb'_append_eq_of_le (by decide)).trans <| (extractLsb'_append_eq_of_le (by decide)).trans
      extractLsb'_append_eq_left

theorem status_done_iff (s : State) : s.status.extractLsb' 3 1 = 1#1 ↔ s.phase = .done := by
  by_cases h : s.phase = .done <;> simp [status_doneField, State.finished, h]

theorem status_notDone_iff (s : State) : s.status.extractLsb' 3 1 = 0#1 ↔ s.phase ≠ .done := by
  by_cases h : s.phase = .done <;> simp [status_doneField, State.finished, h]

theorem status_noError_iff (s : State) : s.status.extractLsb' 0 3 = 0#3 ↔ s.err = none := by
  rw [status_errField, errCode_eq_zero_iff]

theorem status_error_iff (s : State) (k : ErrKind) : s.status.extractLsb' 0 3 = k.code ↔ s.err = some k := by
  rw [status_errField, errCode_eq_code_iff]

/-! ### The result (60_exceptions.md R210) -/

theorem result_ok_iff (s : State) : s.result = .ok s.buf.out ↔ s.phase = .done ∧ s.err = none := by
  cases he : s.err with
  | none => by_cases hd : s.phase = .done <;> simp [State.result, he, hd]
  | some k => simp [State.result, he]

theorem result_error_iff (s : State) (k : ErrKind) : s.result = .error k ↔ s.err = some k := by
  cases he : s.err with
  | none => by_cases hd : s.phase = .done <;> simp [State.result, he, hd]
  | some l => simp [State.result, he]

theorem result_pending_iff (s : State) : s.result = .pending ↔ s.phase ≠ .done ∧ s.err = none := by
  cases he : s.err with
  | none => by_cases hd : s.phase = .done <;> simp [State.result, he, hd]
  | some k => simp [State.result, he]

/-! ### The status words -/

/-- `OUT_LEN` is the length of `OUT` where it fits 64 bits (10_state.md R33). -/
theorem outLen_toNat {s : State} (h : s.buf.out.length < 2 ^ 64) : s.outLen.toNat = s.buf.out.length := by
  simpa [State.outLen] using h

/-- After reset the three status words are 0 (10_state.md R34). -/
theorem reset_statusWords :
    State.reset.status = 0#32 ∧ State.reset.errPcWord = 0#64 ∧ State.reset.outLen = 0#64 := by
  decide

end Sys2Proof.Machine
end

section
/-!
PROOFS. The obligations of the state, settled.
-/
namespace Sys2Proof.Proofs

open Sys2Proof Sys2Proof.Machine

/-- Settles O18: each of the ways a step can answer a next state keeps the invariant, a completing command by a rule per
write. -/
theorem stepKeepsTheInvariant : Obligations.StepKeepsTheInvariant := by
  intro s t hi h
  exact step_inv hi h

/-- Settles O14: only `complete` refuses, and it neither faults nor completes at the counter's end. -/
theorem stopsOnlyAtCounterEnd : Obligations.StopsOnlyAtCounterEnd := by
  intro i s
  exact ⟨exec_ne_fault i s, fun _ => exec_refused_cases, fun _ => exec_next_err_of_lastPc⟩

/-- Settles O28: the length of the bit sequence fixes both lengths, then its bits fix `OUT` and `acc`. -/
theorem bitsDetermineTheBuffer : Obligations.BitsDetermineTheBuffer := by
  intro b c hb hc h
  exact bits_injOn hb hc h

/-- Settles O45: a step only pushes bits, so `OUT` after it begins with `OUT` before it. -/
theorem outputBytesNeverChange : Obligations.OutputBytesNeverChange := by
  intro s t a x h hread
  exact pushed_read (step_pushed h) hread

/-- Settles O15: the fields of `State.reset` read off. -/
theorem resetLeavesTheResetValues : Obligations.ResetLeavesTheResetValues := by
  intro s
  exact ⟨rfl, rfl, rfl, rfl, rfl, rfl, rfl, rfl, rfl, rfl, rfl, fun _ => ⟨rfl, rfl, rfl, rfl⟩, reset_statusWords⟩

/-- Settles O16: the fields of STATUS, and the result by the cases of `err` and `phase`. -/
theorem statusWordsShowTheState : Obligations.StatusWordsShowTheState := by
  intro s
  refine ⟨status_errField s, status_done_iff s, status_phaseField s, status_nbitsField s, status_ldPhaseField s,
    status_zeroField s, rfl, outLen_toNat, ?_, fun k => ?_, ?_, reset_statusWords⟩
  · rw [status_done_iff, status_noError_iff, result_ok_iff]
  · rw [status_error_iff, result_error_iff]
  · rw [status_notDone_iff, status_noError_iff, result_pending_iff]

/-- Settles O17: nothing is pending and no entry is valid after reset. -/
theorem resetMeetsTheInvariant : Obligations.ResetMeetsTheInvariant := reset_inv

/-- Settles O59: the two finite lists, evaluated. -/
theorem extraBitCounts : Obligations.ExtraBitCounts := by
  unfold Obligations.ExtraBitCounts
  decide

/-- Settles O60: the printed list, its permutation and the finite list of counts, evaluated. -/
theorem codeLengthOrderAndCounts : Obligations.CodeLengthOrderAndCounts := by
  unfold Obligations.CodeLengthOrderAndCounts
  decide

end Sys2Proof.Proofs
end

section
/-!
PROOFS. Every append of the unit as the list of the stream bits it pushes, by Part A's fields (40_bitbuffer.md R90 to R95,
30_encoding.md R61 to R66), and what pushing a list of bits does to the buffer.
-/
namespace Sys2Proof.Machine

/-! ### Pushing a list of bits -/

/-- `push_bit` for each bit of a list in order: what `BitBuffer.Pushed` says some list of. -/
def BitBuffer.pushBits (bits : List Bool) (b : BitBuffer) : BitBuffer := bits.foldl (fun x bit => x.pushBit bit) b

@[simp] theorem pushBits_nil (b : BitBuffer) : b.pushBits [] = b := rfl

@[simp] theorem pushBits_cons (bit : Bool) (bits : List Bool) (b : BitBuffer) :
    b.pushBits (bit :: bits) = (b.pushBit bit).pushBits bits := rfl

@[simp] theorem pushBits_append (xs ys : List Bool) (b : BitBuffer) :
    b.pushBits (xs ++ ys) = (b.pushBits xs).pushBits ys := List.foldl_append

theorem pushed_pushBits (b : BitBuffer) (bits : List Bool) : b.Pushed (b.pushBits bits) := ⟨bits, rfl⟩

/-- Pushing bits appends them to the bit sequence (10_state.md R12). -/
theorem pushBits_bits {b : BitBuffer} (h : b.Inv) (bits : List Bool) : (b.pushBits bits).bits = b.bits ++ bits := by
  induction bits generalizing b with
  | nil => simp
  | cons bit bits ih => rw [pushBits_cons, ih (pushBit_inv h bit), pushBit_bits h, List.append_assoc, List.singleton_append]

/-- Pushing bits adds their number to the number of bits appended, whatever the buffer holds. -/
theorem pushBits_bitCount (b : BitBuffer) (bits : List Bool) :
    (b.pushBits bits).bitCount = b.bitCount + bits.length := by
  induction bits generalizing b with
  | nil => rfl
  | cons bit bits ih =>
    rw [pushBits_cons, ih, pushBit_bitCount, List.length_cons]
    omega

/-- Pushing bits appends the whole bytes that they fill together with the pending bits (40_bitbuffer.md R90). -/
theorem pushBits_out_length (b : BitBuffer) (bits : List Bool) :
    (b.pushBits bits).out.length = b.out.length + (b.nbits.toNat + bits.length) / 8 := by
  have hcount := pushBits_bitCount b bits
  have hn : (b.pushBits bits).nbits.toNat < 8 := (b.pushBits bits).nbits.isLt
  simp only [BitBuffer.bitCount] at hcount
  omega

/-- Outside the bytes that the pushed bits fill, `OUT` reads as before (20_memory.md R41). -/
theorem pushBits_read_of_outside (b : BitBuffer) (bits : List Bool) {a : Nat}
    (ha : ¬ (b.out.length ≤ a ∧ a < b.out.length + (b.nbits.toNat + bits.length) / 8)) :
    (b.pushBits bits).read a = b.read a := by
  by_cases hlt : a < b.out.length
  · have hb : b.read a = some b.out[a] := List.getElem?_eq_getElem hlt
    rw [hb, pushed_read (pushed_pushBits b bits) hb]
  · have hlen := pushBits_out_length b bits
    have hb : b.read a = none := List.getElem?_eq_none (by omega)
    have hp : (b.pushBits bits).read a = none := List.getElem?_eq_none (by omega)
    rw [hb, hp]

/-! ### The lists of bits -/

theorem lsbBits_succ (v n : Nat) : lsbBits v (n + 1) = lsbBits v n ++ [v.testBit n] := by
  simp [lsbBits, List.range_succ]

theorem msbBits_succ (v n : Nat) : msbBits v (n + 1) = v.testBit n :: msbBits v n := by
  simp [msbBits, List.range_succ_eq_map, Function.comp_def, Nat.sub_sub, Nat.add_comm]

/-- The number of padding bits as `padBits` counts them. -/
theorem padding_eq (b : BitBuffer) : b.padding = (8 - b.nbits.toNat % 8) % 8 := by
  have hn : b.nbits.toNat < 8 := b.nbits.isLt
  have hmod := nbits_add_padding_mod b
  have hlt : b.padding < 8 := by
    unfold BitBuffer.padding
    split
    · omega
    · next h0 =>
      have hpos : b.nbits.toNat ≠ 0 := fun hz => h0 (BitVec.eq_of_toNat_eq (by simpa using hz))
      omega
  omega

/-- The stream bits of a code that `check_code` hands over (41_huffman_table.md R113). -/
theorem lookupBits_of_checkCode {t : Table Entry} {sym : Nat} {e : Entry} (h : checkCode t sym = .ok e) :
    lookupBits t sym = codeBits e := by
  unfold checkCode at h
  split at h
  · cases h
  · next f hf =>
    split at h
    · cases h
    · obtain rfl := Except.ok.inj h
      simp [lookupBits, hf]

/-! ### The appends -/

theorem putLsb_eq_pushBits (b : BitBuffer) (v n : Nat) : b.putLsb v n = b.pushBits (lsbBits v n) := by
  induction n with
  | zero => rfl
  | succ n ih => simp [BitBuffer.putLsb, lsbBits_succ, ih]

theorem putMsb_eq_pushBits (b : BitBuffer) (v n : Nat) : b.putMsb v n = b.pushBits (msbBits v n) := by
  induction n generalizing b with
  | zero => rfl
  | succ n ih => simp [BitBuffer.putMsb, msbBits_succ, ih]

theorem putZeros_eq_pushBits (b : BitBuffer) (n : Nat) :
    BitBuffer.putZeros n b = b.pushBits (List.replicate n false) := by
  induction n generalizing b with
  | zero => rfl
  | succ n ih => simp [BitBuffer.putZeros, List.replicate_succ, ih]

theorem align_eq_pushBits (b : BitBuffer) : b.align = b.pushBits (padBits b.nbits.toNat) := by
  rw [BitBuffer.align, putZeros_eq_pushBits, padding_eq, padBits]

theorem putCode_eq_pushBits (b : BitBuffer) (e : Entry) : b.putCode e = b.pushBits (codeBits e) :=
  putMsb_eq_pushBits b _ _

theorem putExtra_eq_pushBits (b : BitBuffer) (v c : Nat) : b.putExtra v c = b.pushBits (lsbBits v c) := by
  unfold BitBuffer.putExtra
  split
  · exact putLsb_eq_pushBits b v c
  · next hc =>
    obtain rfl : c = 0 := by omega
    rfl

theorem putLens_eq_pushBits (b : BitBuffer) (lens : List (BitVec 3)) :
    b.putLens lens = b.pushBits (lens.flatMap fun l => lsbBits l.toNat 3) := by
  induction lens generalizing b with
  | nil => rfl
  | cons l ls ih => simp [BitBuffer.putLens, ih, putLsb_eq_pushBits]

/-- A completing command pushes exactly the bits that Part A gives it (30_encoding.md R61 to R66). -/
theorem ownWrites_buf {i : Instr} {s u : State} (h : OwnWrites s i u) : u.buf = s.buf.pushBits (commandBits i s) := by
  cases h <;> simp only [setBuf_buf, setPhase_buf, setTables_buf, setGroup_buf, commandBits]
  case putLsb | raw => exact putLsb_eq_pushBits _ _ _
  case putMsb => exact putMsb_eq_pushBits _ _ _
  case align | finish => exact align_eq_pushBits _
  case tblLoadLL | tblLoadD | tblLoadCL | cllSet => rfl
  case blkHdr => simp [headerBits, putLsb_eq_pushBits]
  case stLen => simp [align_eq_pushBits, putLsb_eq_pushBits]
  case dynHdr hl => simp [hl, preambleBits, BitBuffer.putCounts, putLsb_eq_pushBits, putLens_eq_pushBits]
  case clsym he => simp [lookupBits_of_checkCode he, putCode_eq_pushBits, putExtra_eq_pushBits]
  case tokLiteral hg hv he => simp [tokBits, hg, hv, lookupBits_of_checkCode he, putCode_eq_pushBits]
  case tokLengthCode hg hlo _ => simp [tokBits, hg, Nat.not_le.mpr hlo]
  case tokLengthExtra hg | tokDistanceCode hg => simp [tokBits, hg]
  case tokCommit hg hl _ hc =>
    simp [tokBits, hg, lookupBits_of_checkCode hl, lookupBits_of_checkCode hc, BitBuffer.putGroup, putCode_eq_pushBits,
      putExtra_eq_pushBits]

/-- A command that completes pushes exactly its bits. -/
theorem exec_buf_of_noError {i : Instr} {s t : State} (h : exec i s = .next t) (ht : t.err = none) :
    t.buf = s.buf.pushBits (commandBits i s) := by
  rcases exec_next_writes h with ⟨he, rfl⟩ | ⟨-, k, rfl⟩ | ⟨-, -, -, u, hw, rfl⟩
  · exact absurd ht he
  · simp at ht
  · exact (setPc_buf u _).trans (ownWrites_buf hw)

/-- A command that leaves an error recorded leaves the buffer (60_exceptions.md R202, R206). -/
theorem exec_buf_of_error {i : Instr} {s t : State} (h : exec i s = .next t) (ht : t.err ≠ none) : t.buf = s.buf := by
  rcases exec_next_writes h with ⟨-, rfl⟩ | ⟨-, k, rfl⟩ | ⟨he, -, -, u, hw, rfl⟩
  · rfl
  · rfl
  · obtain ⟨-, herr, -⟩ := ownWrites_sequencing hw
    exact absurd (herr.trans he) ht

end Sys2Proof.Machine
end

section
/-!
PROOFS. Whole bytes of `OUT` in terms of stream bits: the padded byte, and the aligned 8-bit and 16-bit fields
(20_memory.md R45, R46, R49).
-/
namespace Sys2Proof.Machine

/-- A buffer with nothing pending and an empty accumulator meets the invariant. -/
theorem aligned_inv (out : List Byte) : BitBuffer.Inv { out := out, acc := 0, nbits := 0 } := by
  simp [BitBuffer.Inv]

/-- The bit sequence of a buffer with nothing pending is that of its bytes. -/
theorem aligned_bits (out : List Byte) : BitBuffer.bits { out := out, acc := 0, nbits := 0 } = bytesBits out := by
  simp [BitBuffer.bits]

/-- A buffer whose bits are those of whole bytes is those bytes with nothing pending. -/
theorem eq_aligned_of_bits {b : BitBuffer} (h : b.Inv) {out : List Byte} (hb : b.bits = bytesBits out) :
    b = { out := out, acc := 0, nbits := 0 } :=
  bits_injOn h (aligned_inv out) (hb.trans (aligned_bits out).symm)

/-! ### The padded byte -/

/-- Under the invariant the accumulator as a byte is its pending bits and zeros above (10_state.md R14). -/
theorem byteBits_acc {b : BitBuffer} (h : b.Inv) :
    byteBits b.acc = (List.range b.nbits.toNat).map b.acc.getLsbD ++ List.replicate (8 - b.nbits.toNat) false := by
  have hn : b.nbits.toNat < 8 := b.nbits.isLt
  refine List.ext_getElem (by simp; omega) fun i _ _ => ?_
  by_cases hi : i < b.nbits.toNat
  · simp [byteBits, hi]
  · simp [byteBits, List.getElem_append, hi, inv_acc_getLsbD h (Nat.le_of_not_lt hi)]

/-- With nothing pending there is no padding (20_memory.md R49). -/
theorem align_of_nbits_zero {b : BitBuffer} (hn : b.nbits = 0#3) : b.align = b := by
  simp [BitBuffer.align, BitBuffer.padding, hn, BitBuffer.putZeros]

/-- After pending bits the padding is `8 - nbits` zero bits (20_memory.md R49). -/
theorem align_bits_of_nbits_ne_zero {b : BitBuffer} (h : b.Inv) (hn : b.nbits ≠ 0#3) :
    b.align.bits = b.bits ++ List.replicate (8 - b.nbits.toNat) false := by
  have hp : b.padding = 8 - b.nbits.toNat := if_neg hn
  obtain ⟨-, hbits⟩ := putZeros_bits h b.padding
  rw [BitBuffer.align, hbits, hp]

/-- After pending bits `align()` appends the accumulator as a byte (20_memory.md R49). -/
theorem align_of_nbits_ne_zero {b : BitBuffer} (h : b.Inv) (hn : b.nbits ≠ 0#3) :
    b.align = { out := b.out ++ [b.acc], acc := 0, nbits := 0 } := by
  refine eq_aligned_of_bits (pushed_inv (pushed_align b) h) ?_
  rw [align_bits_of_nbits_ne_zero h hn, bytesBits_append, bytesBits_singleton, byteBits_acc h, BitBuffer.bits,
    List.append_assoc]

/-- FINISH that completes leaves the buffer as `align()` does (40_bitbuffer.md R96). -/
theorem execFinish_buf {s t : State} (h : exec .finish s = .next t) (ht : t.err = none) : t.buf = s.buf.align := by
  rw [exec_buf_of_noError h ht, align_eq_pushBits]
  rfl

/-! ### Aligned fields -/

/-- The bits of a 16-bit field LSB-first are those of its low byte and then of its high byte (20_memory.md R45). -/
theorem lsbBits_sixteen (v : BitVec 16) : lsbBits v.toNat 16 = bytesBits [v.extractLsb' 0 8, v.extractLsb' 8 8] := by
  have hlow : byteBits (v.extractLsb' 0 8) = (List.range 8).map v.getLsbD :=
    List.map_congr_left fun i hi => by simp [List.mem_range.mp hi]
  have hhigh : byteBits (v.extractLsb' 8 8) = (List.range 8).map fun i => v.getLsbD (8 + i) :=
    List.map_congr_left fun i hi => by simp [List.mem_range.mp hi]
  rw [bytesBits_cons, bytesBits_singleton, hlow, hhigh]
  rfl

/-- The bits of a byte MSB-first are those of the reversed byte (20_memory.md R46). -/
theorem msbBits_eight (c : BitVec 8) : msbBits c.toNat 8 = bytesBits [c.reverse] := by
  rw [bytesBits_singleton]
  refine List.map_congr_left fun i hi => ?_
  have hi8 : i < 8 := List.mem_range.mp hi
  rw [BitVec.getLsbD_reverse, BitVec.getMsbD_eq_getLsbD]
  simp [hi8, BitVec.getLsbD]

/-- Whole bytes pushed onto an aligned buffer are appended to `OUT`. -/
theorem pushBits_bytesBits (out bytes : List Byte) :
    BitBuffer.pushBits (bytesBits bytes) { out := out, acc := 0, nbits := 0 } =
      { out := out ++ bytes, acc := 0, nbits := 0 } := by
  refine eq_aligned_of_bits (pushed_inv (pushed_pushBits _ _) (aligned_inv out)) ?_
  rw [pushBits_bits (aligned_inv out), aligned_bits, bytesBits_append]

end Sys2Proof.Machine
end

section
/-!
PROOFS. The unit with a bound on `OUT` (20_memory.md R51).
-/
namespace Sys2Proof.Machine

/-- Without a bound the step is the unit's own. -/
theorem stepWithCap_none (s : State) : stepWithCap none s = step s := by
  unfold stepWithCap
  split <;> simp [*]

/-- With a bound a step is stuck iff it appends a byte beyond the bound, and the unit's own otherwise. -/
theorem stepWithCap_of_next {s t : State} (h : step s = .next t) (n : Nat) :
    stepWithCap (some n) s =
      if s.buf.out.length < t.buf.out.length ∧ n < t.buf.out.length then .fault .outputFull else .next t := by
  simp [stepWithCap, h]

/-- A step of the unit with a bound is a step of the unit that appends no byte beyond the bound. -/
theorem stepWithCap_next_iff {s t : State} {n : Nat} :
    stepWithCap (some n) s = .next t ↔
      step s = .next t ∧ ¬ (s.buf.out.length < t.buf.out.length ∧ n < t.buf.out.length) := by
  cases hs : step s with
  | next u =>
    rw [stepWithCap_of_next hs]
    split
    · next hfull =>
      refine ⟨nofun, fun ⟨hst, hfits⟩ => ?_⟩
      obtain rfl := Host.Outcome.next.inj hst
      exact absurd hfull hfits
    · next hfits =>
      simp only [Host.Outcome.next.injEq, iff_self_and]
      rintro rfl
      exact hfits
  | fault r => simp [stepWithCap, hs]
  | refused r => simp [stepWithCap, hs]

end Sys2Proof.Machine
end

section
/-!
PROOFS. The obligations of the memory, settled.
-/
namespace Sys2Proof.Proofs

open Sys2Proof Sys2Proof.Machine

/-- Settles O26: the zeros that complete the pending bits to a byte are the bits of `acc` at `nbits` and above. -/
theorem paddingIsZeroBits : Obligations.PaddingIsZeroBits := by
  refine ⟨fun b hb => ⟨fun hn => ?_, align_of_nbits_zero⟩, fun s t _ h ht => execFinish_buf h ht⟩
  exact ⟨align_bits_of_nbits_ne_zero hb hn, align_of_nbits_ne_zero hb hn⟩

/-- Settles O27: the bits of each field are those of whole bytes, which an aligned buffer takes as they are. -/
theorem alignedFieldsAreLittleEndian : Obligations.AlignedFieldsAreLittleEndian := by
  intro v c out
  constructor
  · rw [putLsb_eq_pushBits, lsbBits_sixteen, pushBits_bytesBits]
  · rw [putMsb_eq_pushBits, msbBits_eight, pushBits_bytesBits]

/-- Settles O46: a command that completes pushes exactly its bits, and one that records an error pushes none. -/
theorem storesOnlyTheBytesItFills : Obligations.StoresOnlyTheBytesItFills := by
  intro i s t _ h a ha
  by_cases ht : t.err = none
  · rw [exec_buf_of_noError h ht]
    exact pushBits_read_of_outside s.buf _ ha
  · rw [exec_buf_of_error h ht]

/-- Settles O57: the bound is tested once, on the bytes after the unit's own step. -/
theorem boundedOutputIsStuckNotWrong : Obligations.BoundedOutputIsStuckNotWrong := by
  intro s t n
  refine ⟨stepWithCap_none s, fun h hfits => ?_, fun h hs hfull => ?_, fun h => ?_⟩
  · exact stepWithCap_next_iff.mpr ⟨h, by omega⟩
  · rw [stepWithCap_of_next h, if_pos ⟨by omega, hfull⟩]
  · obtain ⟨hstep, hfits⟩ := stepWithCap_next_iff.mp h
    exact ⟨hstep, fun hs => by omega⟩

end Sys2Proof.Proofs
end

section
/-!
PROOFS. A command word as a list of fields with their values: the word that such a list makes, and the mask under which a word
that holds the fields is recognised (30_encoding.md R70, R71).
-/
namespace Sys2Proof

/-- A field of a command word and the value it holds. -/
structure FieldValue where
  lo : Nat
  width : Nat
  value : BitVec width

/-- Two fields have no bit in common. -/
def FieldValue.Apart (f g : FieldValue) : Prop := f.lo + f.width ≤ g.lo ∨ g.lo + g.width ≤ f.lo

/-- Fields of one format: inside the word and apart from each other. -/
def Separate (fs : List FieldValue) : Prop := (∀ f ∈ fs, f.lo + f.width ≤ 64) ∧ fs.Pairwise FieldValue.Apart

/-- A word holds the value of each field of a list. -/
def FieldsIn (w : Word) (fs : List FieldValue) : Prop := ∀ f ∈ fs, field w f.lo f.width = f.value

/-- The word with ones in the fields of a list and zeros elsewhere. -/
def maskOf : List FieldValue → Word
  | [] => 0
  | f :: fs => place f.lo (BitVec.allOnes f.width) ||| maskOf fs

/-- The word with the values of a list of fields and zeros elsewhere. -/
def wordOf : List FieldValue → Word
  | [] => 0
  | f :: fs => place f.lo f.value ||| wordOf fs

theorem field_and (a b : Word) (lo k : Nat) : field (a &&& b) lo k = field a lo k &&& field b lo k := by
  simp [field, BitVec.extractLsb'_and]

@[simp] theorem place_zero (lo k : Nat) : place lo 0#k = 0 := by simp [place]

/-- A word under the mask of one field is that field alone. -/
theorem and_place_allOnes (w : Word) (lo k : Nat) : w &&& place lo (BitVec.allOnes k) = place lo (field w lo k) := by
  refine BitVec.eq_of_getLsbD_eq fun b hb => ?_
  rw [BitVec.getLsbD_and, getLsbD_place, getLsbD_place, getLsbD_field, BitVec.getLsbD_allOnes]
  by_cases hlo : lo ≤ b
  · simp [hb, hlo, Nat.add_sub_cancel' hlo, Bool.and_comm]
  · simp [hlo]

theorem field_maskOf {fs : List FieldValue} (hs : Separate fs) {f : FieldValue} (hf : f ∈ fs) :
    field (maskOf fs) f.lo f.width = BitVec.allOnes f.width := by
  obtain ⟨hfit, -⟩ := hs
  induction fs with
  | nil => cases hf
  | cons g gs ih =>
    rw [maskOf, field_or]
    rcases List.mem_cons.mp hf with rfl | hf
    · rw [field_place_same _ _ (hfit f (by simp)), BitVec.allOnes_or]
    · rw [ih hf fun x hx => hfit x (List.mem_cons_of_mem g hx), BitVec.or_allOnes]

/-- A field apart from all of a list is zero in the word of the list. -/
theorem field_wordOf_of_apart {f : FieldValue} {fs : List FieldValue} (h : ∀ g ∈ fs, f.Apart g) :
    field (wordOf fs) f.lo f.width = 0#f.width := by
  induction fs with
  | nil => simp [wordOf, field]
  | cons g gs ih =>
    obtain ⟨hg, hgs⟩ := List.forall_mem_cons.mp h
    rw [wordOf, field_or, field_place_other _ _ _ hg, ih hgs, BitVec.or_self]

/-- The word of a list of fields holds each of them. -/
theorem fieldsIn_wordOf {fs : List FieldValue} (hs : Separate fs) : FieldsIn (wordOf fs) fs := by
  obtain ⟨hfit, hapart⟩ := hs
  intro f hf
  induction fs with
  | nil => cases hf
  | cons g gs ih =>
    obtain ⟨hg, hgs⟩ := List.pairwise_cons.mp hapart
    rw [wordOf, field_or]
    rcases List.mem_cons.mp hf with rfl | hf
    · rw [field_place_same _ _ (hfit f (by simp)), field_wordOf_of_apart hg, BitVec.or_zero]
    · rw [field_place_other _ _ _ (hg f hf).symm, BitVec.zero_or,
        ih (fun x hx => hfit x (List.mem_cons_of_mem g hx)) hgs hf]

/-- A word holds the fields of a list iff under their mask it is the word of the list. -/
theorem and_maskOf_eq_wordOf_iff {fs : List FieldValue} (hs : Separate fs) (w : Word) :
    w &&& maskOf fs = wordOf fs ↔ FieldsIn w fs := by
  constructor
  · intro h f hf
    calc field w f.lo f.width = field (w &&& maskOf fs) f.lo f.width := by
          rw [field_and, field_maskOf hs hf, BitVec.and_allOnes]
      _ = f.value := by rw [h, fieldsIn_wordOf hs f hf]
  · clear hs
    intro h
    induction fs with
    | nil => simp [maskOf, wordOf]
    | cons f fs ih =>
      obtain ⟨hf, hfs⟩ := List.forall_mem_cons.mp h
      rw [maskOf, wordOf, BitVec.and_or_distrib_left, and_place_allOnes, hf, ih hfs]

end Sys2Proof
end

section
/-!
PROOFS. The formats of the commands (30_encoding.md R72 to R81) as lists of fields, to which the encoder, the decoder and the
rows of the opcode table are each tied, and what the decoder answers on every word (R71, R83).
-/
namespace Sys2Proof

open Sys2Proof.Machine
open Sys2Proof.Laws.EncodesFormat (opcodeOf mbzOf)

/-! ### The formats of the commands -/

/-- The table field of the TBL_LOAD format (R74). -/
def tableFieldOf : Instr → List FieldValue
  | .tblLoadLL _ _ _ => [⟨54, 2, 0⟩]
  | .tblLoadD _ _ _ => [⟨54, 2, 1⟩]
  | .tblLoadCL _ _ _ => [⟨54, 2, 2⟩]
  | _ => []

/-- What is fixed in a command's format: the opcode, the table and the must-be-zero fields (R72 to R81). -/
def fixedOf (i : Instr) : List FieldValue :=
  ⟨56, 8, opcodeOf i⟩ :: (tableFieldOf i ++ (mbzOf i).map fun f => ⟨f.1, f.2, 0⟩)

/-- The operand fields of a command's format (R72 to R81). -/
def operandsOf : Instr → List FieldValue
  | .putLsb n value => [⟨50, 6, n⟩, ⟨0, 32, value⟩]
  | .putMsb n value => [⟨50, 6, n⟩, ⟨0, 32, value⟩]
  | .align => []
  | .finish => []
  | .tblLoadLL sym code len => [⟨48, 6, len⟩, ⟨32, 16, sym⟩, ⟨0, 32, code⟩]
  | .tblLoadD sym code len => [⟨48, 6, len⟩, ⟨32, 16, sym⟩, ⟨0, 32, code⟩]
  | .tblLoadCL sym code len => [⟨48, 6, len⟩, ⟨32, 16, sym⟩, ⟨0, 32, code⟩]
  | .cllSet sym len3 => [⟨8, 5, sym⟩, ⟨0, 3, len3⟩]
  | .blkHdr bfinal btype => [⟨1, 2, btype⟩, ⟨0, 1, bfinal⟩]
  | .stLen len nlen => [⟨16, 16, nlen⟩, ⟨0, 16, len⟩]
  | .raw byte => [⟨0, 8, byte⟩]
  | .dynHdr hlit hdist hclen => [⟨10, 4, hclen⟩, ⟨5, 5, hdist⟩, ⟨0, 5, hlit⟩]
  | .clsym sym extra => [⟨8, 5, sym⟩, ⟨0, 7, extra⟩]
  | .tok v => [⟨0, 16, v⟩]

/-- All fields of a command's format. -/
def formatOf (i : Instr) : List FieldValue := fixedOf i ++ operandsOf i

theorem formatOf_separate (i : Instr) : Separate (formatOf i) := by
  cases i <;>
    simp [Separate, FieldValue.Apart, formatOf, fixedOf, operandsOf, tableFieldOf, mbzOf]

theorem fixedOf_separate (i : Instr) : Separate (fixedOf i) := by
  obtain ⟨hfit, hapart⟩ := formatOf_separate i
  exact ⟨fun f hf => hfit f (List.mem_append_left _ hf), (List.pairwise_append.mp hapart).1⟩

/-- The fields of a format cover the word. -/
theorem maskOf_formatOf (i : Instr) : maskOf (formatOf i) = BitVec.allOnes 64 := by
  cases i <;> simp [maskOf, formatOf, fixedOf, operandsOf, tableFieldOf, mbzOf, place]

/-- The encoder places the fields of the command's format. -/
theorem wordOf_formatOf (i : Instr) : wordOf (formatOf i) = encode i := by
  cases i <;>
    simp [wordOf, formatOf, fixedOf, operandsOf, tableFieldOf, mbzOf, opcodeOf, encode, BitVec.or_assoc]

/-- A word holds the fields of a command's format iff it is the command's encoding. -/
theorem fieldsIn_formatOf_iff {w : Word} {i : Instr} : FieldsIn w (formatOf i) ↔ encode i = w := by
  rw [← and_maskOf_eq_wordOf_iff (formatOf_separate i), maskOf_formatOf, wordOf_formatOf, BitVec.and_allOnes, eq_comm]

/-- A command of the same format with its operands read from a word. -/
def readOperands (w : Word) : Instr → Instr
  | .putLsb _ _ => .putLsb (field w 50 6) (field w 0 32)
  | .putMsb _ _ => .putMsb (field w 50 6) (field w 0 32)
  | .align => .align
  | .finish => .finish
  | .tblLoadLL _ _ _ => .tblLoadLL (field w 32 16) (field w 0 32) (field w 48 6)
  | .tblLoadD _ _ _ => .tblLoadD (field w 32 16) (field w 0 32) (field w 48 6)
  | .tblLoadCL _ _ _ => .tblLoadCL (field w 32 16) (field w 0 32) (field w 48 6)
  | .cllSet _ _ => .cllSet (field w 8 5) (field w 0 3)
  | .blkHdr _ _ => .blkHdr (field w 0 1) (field w 1 2)
  | .stLen _ _ => .stLen (field w 0 16) (field w 16 16)
  | .raw _ => .raw (field w 0 8)
  | .dynHdr _ _ _ => .dynHdr (field w 0 5) (field w 5 5) (field w 10 4)
  | .clsym _ _ => .clsym (field w 8 5) (field w 0 7)
  | .tok _ => .tok (field w 0 16)

@[simp] theorem fixedOf_readOperands (w : Word) (i : Instr) : fixedOf (readOperands w i) = fixedOf i := by
  cases i <;> rfl

theorem fieldsIn_operandsOf_readOperands (w : Word) (i : Instr) : FieldsIn w (operandsOf (readOperands w i)) := by
  cases i <;> simp [FieldsIn, operandsOf, readOperands]

/-- Operands that a word holds are those read from it. -/
theorem readOperands_of_fieldsIn {w : Word} {i : Instr} (h : FieldsIn w (operandsOf i)) : readOperands w i = i := by
  cases i <;> simp_all [FieldsIn, operandsOf, readOperands]

theorem fieldsIn_formatOf {w : Word} {i : Instr} :
    FieldsIn w (formatOf i) ↔ FieldsIn w (fixedOf i) ∧ FieldsIn w (operandsOf i) :=
  List.forall_mem_append

/-! ### The decoder -/

/-- A word that holds the fixed fields of a format decodes to a command of that format. -/
theorem decode_of_fixed {w : Word} {i : Instr} (h : FieldsIn w (fixedOf i)) : decode w = .ok (readOperands w i) := by
  cases i <;> simp_all [decode, ifZero, FieldsIn, fixedOf, tableFieldOf, mbzOf, opcodeOf, readOperands]

theorem decode_of_reservedOpcode {w : Word} (h : field w 56 8 ∉ opcodes) : decode w = .error .reservedOpcode := by
  simp_all [decode, opcodes]

theorem decode_of_reservedTable {w : Word} (hop : field w 56 8 = 0x10#8) (ht : field w 54 2 = 3#2) :
    decode w = .error .reservedTable := by
  simp [decode, hop, ht]

theorem decode_of_mbzNotZero {w : Word} {i : Instr} (hop : field w 56 8 = opcodeOf i) (hi : i.command ≠ .tblLoad)
    (h : ¬ FieldsIn w (fixedOf i)) : decode w = .error .mbzNotZero := by
  cases i <;> simp_all [decode, ifZero, FieldsIn, fixedOf, tableFieldOf, mbzOf, opcodeOf, Instr.command]

/-! ### The opcode table -/

/-- One command of each format, in the order of spec/opcode_table.json. -/
def blankCommands : List Instr :=
  [.putLsb 0 0, .putMsb 0 0, .align, .finish, .tblLoadLL 0 0 0, .tblLoadD 0 0 0, .tblLoadCL 0 0 0, .cllSet 0 0,
   .blkHdr 0 0, .stLen 0 0, .raw 0, .dynHdr 0 0 0, .clsym 0 0, .tok 0]

theorem readOperands_zero_mem (i : Instr) : readOperands 0 i ∈ blankCommands := by
  cases i <;> simp [readOperands, blankCommands, field]

theorem opcodeRows_eq : opcodeRows = blankCommands.map fun i => (maskOf (fixedOf i), wordOf (fixedOf i)) := by
  decide

theorem opcodes_subset : opcodes ⊆ blankCommands.map opcodeOf := by
  decide

theorem opcodeOf_eq_tblLoad_iff {i : Instr} : opcodeOf i = 0x10#8 ↔ i.command = .tblLoad := by
  cases i <;> simp [opcodeOf, Instr.command]

/-- A word matches a row of the opcode table iff it holds the fixed fields of a format. -/
theorem exists_row_iff_fixed {w : Word} :
    (∃ row ∈ opcodeRows, w &&& row.1 = row.2) ↔ ∃ i, FieldsIn w (fixedOf i) := by
  constructor
  · rintro ⟨row, hrow, h⟩
    rw [opcodeRows_eq] at hrow
    obtain ⟨i, -, rfl⟩ := List.mem_map.mp hrow
    exact ⟨i, (and_maskOf_eq_wordOf_iff (fixedOf_separate i) w).mp h⟩
  · rintro ⟨i, h⟩
    rw [opcodeRows_eq]
    refine ⟨_, List.mem_map_of_mem (readOperands_zero_mem i), ?_⟩
    simpa using (and_maskOf_eq_wordOf_iff (fixedOf_separate i) w).mpr h

/-- A TBL_LOAD word whose table is not 3 holds the fixed fields of one of the three loads (R74). -/
theorem exists_fixed_of_tblLoad {w : Word} (hop : field w 56 8 = 0x10#8) (ht : field w 54 2 ≠ 3#2) :
    ∃ i, FieldsIn w (fixedOf i) := by
  have htable : ∀ t : BitVec 2, t ≠ 3#2 → t = 0#2 ∨ t = 1#2 ∨ t = 2#2 := by decide
  rcases htable _ ht with h | h | h
  · exact ⟨.tblLoadLL 0 0 0, by simp [FieldsIn, fixedOf, tableFieldOf, mbzOf, opcodeOf, hop, h]⟩
  · exact ⟨.tblLoadD 0 0 0, by simp [FieldsIn, fixedOf, tableFieldOf, mbzOf, opcodeOf, hop, h]⟩
  · exact ⟨.tblLoadCL 0 0 0, by simp [FieldsIn, fixedOf, tableFieldOf, mbzOf, opcodeOf, hop, h]⟩

/-! ### What the decoder answers -/

/-- The decoder reads a command of the format whose fixed fields the word holds, or names one of the three causes of R83. -/
theorem decode_cases (w : Word) :
    (∃ i, FieldsIn w (fixedOf i) ∧ decode w = .ok (readOperands w i)) ∨
    (field w 56 8 ∉ opcodes ∧ decode w = .error .reservedOpcode) ∨
    ((field w 56 8 = 0x10#8 ∧ field w 54 2 = 3#2) ∧ decode w = .error .reservedTable) ∨
    ((field w 56 8 ∈ opcodes ∧ field w 56 8 ≠ 0x10#8) ∧ decode w = .error .mbzNotZero) := by
  by_cases hfix : ∃ i, FieldsIn w (fixedOf i)
  · obtain ⟨i, h⟩ := hfix
    exact .inl ⟨i, h, decode_of_fixed h⟩
  by_cases hop : field w 56 8 ∈ opcodes
  swap
  · exact .inr (.inl ⟨hop, decode_of_reservedOpcode hop⟩)
  by_cases hload : field w 56 8 = 0x10#8
  · have ht : field w 54 2 = 3#2 := by_contra fun ht => hfix (exists_fixed_of_tblLoad hload ht)
    exact .inr (.inr (.inl ⟨⟨hload, ht⟩, decode_of_reservedTable hload ht⟩))
  · obtain ⟨i, -, hi⟩ := List.mem_map.mp (opcodes_subset hop)
    have hne : i.command ≠ .tblLoad := fun hc => hload (hi ▸ opcodeOf_eq_tblLoad_iff.mpr hc)
    exact .inr (.inr (.inr ⟨⟨hop, hload⟩, decode_of_mbzNotZero hi.symm hne fun h => hfix ⟨i, h⟩⟩))

/-- A word decodes to a command iff it is the command's encoding (R70). -/
theorem decode_eq_ok_iff {w : Word} {i : Instr} : decode w = .ok i ↔ encode i = w := by
  constructor
  · intro h
    obtain ⟨j, hj, rfl⟩ : ∃ j, FieldsIn w (fixedOf j) ∧ i = readOperands w j := by simpa [h] using decode_cases w
    rw [← fieldsIn_formatOf_iff, fieldsIn_formatOf, fixedOf_readOperands]
    exact ⟨hj, fieldsIn_operandsOf_readOperands w j⟩
  · intro h
    obtain ⟨hfix, hargs⟩ := fieldsIn_formatOf.mp (fieldsIn_formatOf_iff.mpr h)
    rw [decode_of_fixed hfix, readOperands_of_fieldsIn hargs]

theorem exists_decode_ok_iff_fixed {w : Word} : (∃ i, decode w = .ok i) ↔ ∃ i, FieldsIn w (fixedOf i) := by
  constructor
  · rintro ⟨i, h⟩
    exact ⟨i, (fieldsIn_formatOf.mp (fieldsIn_formatOf_iff.mpr (decode_eq_ok_iff.mp h))).1⟩
  · rintro ⟨i, h⟩
    exact ⟨_, decode_of_fixed h⟩

/-- A word decodes iff it matches a row of the opcode table (R71). -/
theorem exists_decode_ok_iff_row {w : Word} : (∃ i, decode w = .ok i) ↔ ∃ row ∈ opcodeRows, w &&& row.1 = row.2 :=
  exists_decode_ok_iff_fixed.trans exists_row_iff_fixed.symm

theorem decode_eq_reservedOpcode_iff {w : Word} : decode w = .error .reservedOpcode ↔ field w 56 8 ∉ opcodes :=
  ⟨fun h => by simpa [h] using decode_cases w, decode_of_reservedOpcode⟩

theorem decode_eq_reservedTable_iff {w : Word} :
    decode w = .error .reservedTable ↔ field w 56 8 = 0x10#8 ∧ field w 54 2 = 3#2 :=
  ⟨fun h => by simpa [h] using decode_cases w, fun ⟨hop, ht⟩ => decode_of_reservedTable hop ht⟩

theorem decode_eq_mbzNotZero_iff {w : Word} :
    decode w = .error .mbzNotZero ↔
      field w 56 8 ∈ opcodes ∧ field w 56 8 ≠ 0x10#8 ∧ ∀ row ∈ opcodeRows, w &&& row.1 ≠ row.2 := by
  constructor
  · intro h
    obtain ⟨hop, hne⟩ : field w 56 8 ∈ opcodes ∧ field w 56 8 ≠ 0x10#8 := by simpa [h] using decode_cases w
    refine ⟨hop, hne, fun row hmem heq => ?_⟩
    obtain ⟨i, hi⟩ := exists_decode_ok_iff_row.mpr ⟨row, hmem, heq⟩
    simp [h] at hi
  · rintro ⟨hop, hne, hrow⟩
    rcases decode_cases w with ⟨i, hfix, -⟩ | ⟨hnot, -⟩ | ⟨⟨hload, -⟩, -⟩ | ⟨-, hd⟩
    · obtain ⟨row, hmem, heq⟩ := exists_row_iff_fixed.mpr ⟨i, hfix⟩
      exact absurd heq (hrow row hmem)
    · exact absurd hop hnot
    · exact absurd hload hne
    · exact hd

/-- A word that does not decode raises IllegalCommand (60_exceptions.md R203). -/
theorem stepWord_of_decode_error {w : Word} {e : Illegal} {s : State} (h : decode w = .error e) (hs : s.err = none) :
    stepWord w s = .next (raise .illegalCommand s) := by
  simp [stepWord, h, hs]

end Sys2Proof
end

section
/-!
PROOFS. The obligations of the encoding, settled.
-/
namespace Sys2Proof.Proofs

open Sys2Proof Sys2Proof.Machine

/-- Settles O1: the encoding is the one word that holds the fields of the command's format, which is what decodes to it. -/
theorem decodeAfterEncode : Obligations.DecodeAfterEncode := by
  intro i
  exact decode_eq_ok_iff.mpr rfl

/-- Settles O49: a command that completes pushes exactly its bits, and each push keeps the invariant and appends its bit. -/
theorem commandAppendsItsFields : Obligations.CommandAppendsItsFields := by
  intro i s t hs _ h ht
  rw [exec_buf_of_noError h ht]
  exact ⟨pushed_inv (pushed_pushBits s.buf _) hs, pushBits_bits hs _⟩

/-- Settles O2: the fields of a format cover the word, so a word that holds them is the encoding. -/
theorem encodeAfterDecode : Obligations.EncodeAfterDecode := by
  intro w i h
  exact decode_eq_ok_iff.mp h

/-- Settles O3: each row of the opcode table is the mask and the match of a format's fixed fields. -/
theorem wordDecodesIffInOpcodeTable : Obligations.WordDecodesIffInOpcodeTable := by
  refine ⟨fun w => exists_decode_ok_iff_row, fun w e s h hs => ?_⟩
  rw [stepWord_of_decode_error h hs]
  rfl

/-- Settles O4: the decoder's four answers exclude each other. -/
theorem illegalWordsByName : Obligations.IllegalWordsByName := by
  intro w
  exact ⟨decode_eq_reservedOpcode_iff, decode_eq_reservedTable_iff, decode_eq_mbzNotZero_iff⟩

/-- Settles O5: each word is the encoding of its command. -/
theorem specExampleWordsDecode : Obligations.SpecExampleWordsDecode := by
  unfold Obligations.SpecExampleWordsDecode
  simp only [decode_eq_ok_iff]
  decide

end Sys2Proof.Proofs
end

section
/-!
PROOFS. The fields of bits as parts of a number (30_encoding.md R61, R63): how they split, what they ignore, and the bytes and the
number that a run of stream bits makes (40_bitbuffer.md R97 to R99).
-/
namespace Sys2Proof.Machine

/-! ### Splitting a field -/

@[simp] theorem lsbBits_length (v n : Nat) : (lsbBits v n).length = n := by simp [lsbBits]

@[simp] theorem msbBits_length (v n : Nat) : (msbBits v n).length = n := by simp [msbBits]

/-- The low `k` bits of a field LSB-first, then the bits above them (40_bitbuffer.md R99 (a)). -/
theorem lsbBits_add (v k l : Nat) : lsbBits v (k + l) = lsbBits v k ++ lsbBits (v >>> k) l := by
  simp [lsbBits, List.range_add]

/-- The two bit orders of a field are each other's reversal. -/
theorem msbBits_eq_reverse (v n : Nat) : msbBits v n = (lsbBits v n).reverse := by
  induction n with
  | zero => rfl
  | succ n ih => simp [msbBits_succ, lsbBits_succ, ih]

/-- The high `k` bits of a field MSB-first, then the `l` bits below them (40_bitbuffer.md R99 (a)). -/
theorem msbBits_add (v k l : Nat) : msbBits v (k + l) = msbBits (v >>> l) k ++ msbBits v l := by
  rw [Nat.add_comm, msbBits_eq_reverse, lsbBits_add, List.reverse_append, ← msbBits_eq_reverse, ← msbBits_eq_reverse]

/-- A field is fixed by the low `n` bits of its number. -/
theorem lsbBits_congr {v w n : Nat} (h : ∀ i < n, v.testBit i = w.testBit i) : lsbBits v n = lsbBits w n :=
  List.map_congr_left fun i hi => h i (List.mem_range.mp hi)

/-- The bits at `n` and above are ignored (40_bitbuffer.md R91). -/
theorem lsbBits_mod (v n : Nat) : lsbBits (v % 2 ^ n) n = lsbBits v n :=
  lsbBits_congr fun i hi => by simp [Nat.testBit_mod_two_pow, hi]

/-- The bits at `n` and above are ignored (40_bitbuffer.md R92). -/
theorem msbBits_mod (v n : Nat) : msbBits (v % 2 ^ n) n = msbBits v n := by
  rw [msbBits_eq_reverse, lsbBits_mod, msbBits_eq_reverse]

/-- A field MSB-first is the reversed number LSB-first (40_bitbuffer.md R97). -/
theorem msbBits_eq_lsbBits_reverseBits (v n : Nat) : msbBits v n = lsbBits (reverseBits v n) n := by
  induction n with
  | zero => rfl
  | succ n ih =>
    have hlow : (reverseBits v (n + 1)).testBit 0 = v.testBit n := by
      cases h : v.testBit n <;> simp [reverseBits, h]
    have hhigh : reverseBits v (n + 1) >>> 1 = reverseBits v n := by
      have hbit := (v.testBit n).toNat_lt
      simp only [reverseBits, Nat.shiftRight_one]
      omega
    rw [msbBits_succ, ih, Nat.add_comm n 1, lsbBits_add, Nat.add_comm 1 n, hhigh]
    simp [lsbBits, hlow]

/-! ### Bits as bytes -/

/-- The bit sequence of a buffer is that of its bytes and then its pending bits as a field (10_state.md R12). -/
theorem bits_eq (b : BitBuffer) : b.bits = bytesBits b.out ++ lsbBits b.acc.toNat b.nbits.toNat := rfl

/-- The `m` low bytes of a number, lowest first. -/
def lowBytes (c m : Nat) : List Byte := (List.range m).map fun j => BitVec.ofNat 8 (c >>> (8 * j))

theorem byteBits_ofNat (c : Nat) : byteBits (BitVec.ofNat 8 c) = lsbBits c 8 :=
  List.map_congr_left fun i hi => by
    have hi8 : i < 8 := List.mem_range.mp hi
    rw [BitVec.getLsbD_ofNat]
    simp [hi8]

/-- The bits of the low bytes of a number are its low bits. -/
theorem bytesBits_lowBytes (c m : Nat) : bytesBits (lowBytes c m) = lsbBits c (8 * m) := by
  induction m with
  | zero => rfl
  | succ m ih =>
    have hsucc : lowBytes c (m + 1) = lowBytes c m ++ [BitVec.ofNat 8 (c >>> (8 * m))] := by
      simp [lowBytes, List.range_succ]
    rw [hsucc, bytesBits_append, ih, bytesBits_singleton, byteBits_ofNat, ← lsbBits_add, Nat.mul_succ]

/-- The bits above the whole bytes of a number of `t` bits fit the accumulator. -/
theorem shiftRight_wholeBytes_lt {c t : Nat} (hc : c < 2 ^ t) : c >>> (8 * (t / 8)) < 2 ^ (t % 8) := by
  rw [Nat.shiftRight_eq_div_pow, Nat.div_lt_iff_lt_mul (Nat.two_pow_pos _), ← Nat.pow_add, Nat.mod_add_div]
  exact hc

/-- A buffer whose bits are those of some bytes and then a number of `t` bits holds the whole bytes of that number in `OUT` and
the rest of it in `acc` (40_bitbuffer.md R97). -/
theorem fields_of_bits {b : BitBuffer} (h : b.Inv) {out : List Byte} {c t : Nat} (hc : c < 2 ^ t)
    (hb : b.bits = bytesBits out ++ lsbBits c t) :
    b.out = out ++ lowBytes c (t / 8) ∧ b.acc.toNat = c >>> (8 * (t / 8)) ∧ b.nbits.toNat = t % 8 := by
  have hlt := shiftRight_wholeBytes_lt hc
  have hnbits : (BitVec.ofNat 3 (t % 8)).toNat = t % 8 := by simp
  have hacc : (BitVec.ofNat 8 (c >>> (8 * (t / 8)))).toNat = c >>> (8 * (t / 8)) := by
    have hle : 2 ^ (t % 8) ≤ 2 ^ 8 := Nat.pow_le_pow_right (by omega) (by omega)
    rw [BitVec.toNat_ofNat, Nat.mod_eq_of_lt (hlt.trans_le hle)]
  have heq : b = ⟨out ++ lowBytes c (t / 8), BitVec.ofNat 8 (c >>> (8 * (t / 8))), BitVec.ofNat 3 (t % 8)⟩ := by
    refine bits_injOn h ?_ ?_
    · simpa only [BitBuffer.Inv, hacc, hnbits] using hlt
    · rw [hb, bits_eq, hacc, hnbits, bytesBits_append, bytesBits_lowBytes, List.append_assoc, ← lsbBits_add,
        Nat.div_add_mod]
  rw [heq]
  exact ⟨rfl, hacc, hnbits⟩

/-! ### Bits read back -/

/-- `bit(B, k)` is the stream bit at position `k`, and 0 past the end (20_memory.md R47). -/
theorem streamBit_eq_getD (bytes : List Byte) (k : Nat) : streamBit bytes k = (bytesBits bytes).getD k false := by
  induction bytes generalizing k with
  | nil => simp [streamBit, bytesBits]
  | cons x xs ih =>
    rw [bytesBits_cons]
    by_cases hk : k < 8
    · rw [List.getD_append _ _ _ _ (by simpa using hk)]
      simp [streamBit, byteBits, Nat.div_eq_of_lt hk, Nat.mod_eq_of_lt hk, hk]
    · obtain ⟨j, rfl⟩ := Nat.exists_eq_add_of_le' (Nat.le_of_not_lt hk)
      rw [List.getD_append_right _ _ _ _ (by simp), byteBits_length, Nat.add_sub_cancel, ← ih]
      simp [streamBit]

/-- The bit that follows the bits a byte sequence begins with. -/
theorem streamBit_of_prefix {bytes : List Byte} {pre : List Bool} {bit : Bool} (h : pre ++ [bit] <+: bytesBits bytes) :
    streamBit bytes pre.length = bit := by
  obtain ⟨post, hpost⟩ := h
  rw [streamBit_eq_getD, ← hpost]
  simp

/-- `read_lsb` at the position of a field LSB-first gives the field (20_memory.md R47). -/
theorem readLsb_of_prefix {bytes : List Byte} {pre : List Bool} {v n : Nat}
    (h : pre ++ lsbBits v n <+: bytesBits bytes) : readLsb bytes pre.length n = v % 2 ^ n := by
  induction n with
  | zero => simp [readLsb, Nat.mod_one]
  | succ n ih =>
    rw [lsbBits_succ, ← List.append_assoc] at h
    have hbit := streamBit_of_prefix h
    rw [List.length_append, lsbBits_length] at hbit
    rw [readLsb, ih ((List.prefix_append _ _).trans h), hbit, Nat.pow_succ, Nat.mod_mul,
      Nat.toNat_testBit, Nat.mul_comm (2 ^ n)]

/-- `read_msb` at the position of a field MSB-first gives the field (20_memory.md R47). -/
theorem readMsb_of_prefix {bytes : List Byte} {pre : List Bool} {v n : Nat}
    (h : pre ++ msbBits v n <+: bytesBits bytes) : readMsb bytes pre.length n = v % 2 ^ n := by
  induction n generalizing v with
  | zero => simp [readMsb, Nat.mod_one]
  | succ n ih =>
    have hlast : msbBits v (n + 1) = msbBits (v >>> 1) n ++ [v.testBit 0] := msbBits_add v n 1
    rw [hlast, ← List.append_assoc] at h
    have hbit := streamBit_of_prefix h
    rw [List.length_append, msbBits_length] at hbit
    rw [readMsb, ih ((List.prefix_append _ _).trans h), hbit, Nat.shiftRight_one, Nat.pow_succ', Nat.mod_mul,
      Nat.toNat_testBit]
    simp [Nat.add_comm]

end Sys2Proof.Machine
end

section
/-!
PROOFS. The operations of the BitBuffer by their own rules: `push_bit`, the two appends and `align()` (40_bitbuffer.md R90 to R92,
R95, R97 to R99).
-/
namespace Sys2Proof.Machine

/-- `push_bit` short of a full byte (40_bitbuffer.md R90). -/
theorem pushBit_of_not_full {b : BitBuffer} (h : b.nbits ≠ 7#3) (bit : Bool) :
    b.pushBit bit =
      { out := b.out, acc := b.acc ||| ((BitVec.ofBool bit).setWidth 8 <<< b.nbits.toNat), nbits := b.nbits + 1 } :=
  if_neg h

/-- `push_bit` that completes a byte (40_bitbuffer.md R90). -/
theorem pushBit_of_full {b : BitBuffer} (h : b.nbits = 7#3) (bit : Bool) :
    b.pushBit bit = { out := b.out ++ [b.acc ||| ((BitVec.ofBool bit).setWidth 8 <<< 7)], acc := 0, nbits := 0 } := by
  simp [BitBuffer.pushBit, h, BitBuffer.memAppend]

/-- Pushing the bits of a list of positions of a number. -/
theorem foldl_pushBit_testBit (v : Nat) (positions : List Nat) (b : BitBuffer) :
    positions.foldl (fun x i => x.pushBit (v.testBit i)) b = b.pushBits (positions.map v.testBit) :=
  (List.foldl_map (f := v.testBit) (g := fun x bit => BitBuffer.pushBit bit x)).symm

/-- The pending bits, and a field of `n` bits above them (40_bitbuffer.md R97). -/
def pendingWord (b : BitBuffer) (v n : Nat) : Nat := b.acc.toNat ||| ((v % 2 ^ n) <<< b.nbits.toNat)

theorem pendingWord_lt {b : BitBuffer} (h : b.Inv) (v n : Nat) : pendingWord b v n < 2 ^ (b.nbits.toNat + n) := by
  have hle : 2 ^ b.nbits.toNat ≤ 2 ^ (b.nbits.toNat + n) := Nat.pow_le_pow_right (by omega) (by omega)
  refine Nat.or_lt_two_pow (h.trans_le hle) ?_
  rw [Nat.shiftLeft_eq, Nat.add_comm, Nat.pow_add]
  exact Nat.mul_lt_mul_of_pos_right (Nat.mod_lt _ (Nat.two_pow_pos n)) (Nat.two_pow_pos _)

/-- The bits of the pending word are the pending bits and then the field. -/
theorem lsbBits_pendingWord {b : BitBuffer} (h : b.Inv) (v n : Nat) :
    lsbBits (pendingWord b v n) (b.nbits.toNat + n) = lsbBits b.acc.toNat b.nbits.toNat ++ lsbBits v n := by
  have hlow : lsbBits (pendingWord b v n) b.nbits.toNat = lsbBits b.acc.toNat b.nbits.toNat :=
    lsbBits_congr fun i hi => by simp [pendingWord, Nat.testBit_shiftLeft, Nat.not_le.mpr hi]
  have hhigh : pendingWord b v n >>> b.nbits.toNat = v % 2 ^ n := by
    have hacc : b.acc.toNat >>> b.nbits.toNat = 0 := by
      rw [Nat.shiftRight_eq_div_pow, Nat.div_eq_of_lt h]
    rw [pendingWord, Nat.shiftRight_or_distrib, hacc, Nat.zero_or, Nat.shiftLeft_shiftRight]
  rw [lsbBits_add, hlow, hhigh, lsbBits_mod]

/-- The bit sequence after `put_lsb` is that of `OUT` before it and of the pending word. -/
theorem putLsb_bits_eq_pendingWord {b : BitBuffer} (h : b.Inv) (v n : Nat) :
    (b.putLsb v n).bits = bytesBits b.out ++ lsbBits (pendingWord b v n) (b.nbits.toNat + n) := by
  obtain ⟨-, hbits⟩ := putLsb_bits h v n
  rw [hbits, bits_eq, lsbBits_pendingWord h, List.append_assoc]

/-- Any bytes that extend the output after an append hold the field at the position before it (40_bitbuffer.md R98 (a)). -/
theorem readLsb_of_putLsb {b : BitBuffer} (h : b.Inv) {v n : Nat} (hv : v < 2 ^ n) {bytes : List Byte}
    (hp : (b.putLsb v n).bits <+: bytesBits bytes) : readLsb bytes b.bitCount n = v := by
  obtain ⟨-, hbits⟩ := putLsb_bits h v n
  rw [← bits_length, readLsb_of_prefix (hbits ▸ hp), Nat.mod_eq_of_lt hv]

/-- Any bytes that extend the output after an append hold the field at the position before it (40_bitbuffer.md R98 (b)). -/
theorem readMsb_of_putMsb {b : BitBuffer} (h : b.Inv) {v n : Nat} (hv : v < 2 ^ n) {bytes : List Byte}
    (hp : (b.putMsb v n).bits <+: bytesBits bytes) : readMsb bytes b.bitCount n = v := by
  obtain ⟨-, hbits⟩ := putMsb_bits h v n
  rw [← bits_length, readMsb_of_prefix (hbits ▸ hp), Nat.mod_eq_of_lt hv]

theorem align_bitCount (b : BitBuffer) : b.align.bitCount = b.bitCount + (8 - b.nbits.toNat) % 8 := by
  have hn : b.nbits.toNat < 8 := b.nbits.isLt
  rw [align_eq_pushBits, pushBits_bitCount, padBits, List.length_replicate, Nat.mod_eq_of_lt hn]

end Sys2Proof.Machine
end

section
/-!
PROOFS. What a command leaves unchanged: one rule that carries a piece of state over a command that does not write it, and the
pieces that the own writes of each command leave (the "State written" lists of the command rules).
-/
namespace Sys2Proof.Machine

/-- A piece of state that neither error entry nor the counter holds, and that a command's own writes leave, is left by the
command. -/
theorem exec_keeps {α : Type} (f : State → α) {i : Instr} {s t : State} (h : exec i s = .next t)
    (hw : ∀ u, OwnWrites s i u → f u = f s)
    (hraise : ∀ k, f (raise k s) = f s := by exact fun _ => rfl)
    (hpc : ∀ u v, f (State.setPc u v) = f u := by exact fun _ _ => rfl) : f t = f s := by
  rcases exec_next_writes h with ⟨-, rfl⟩ | ⟨-, k, rfl⟩ | ⟨-, -, -, u, hu, rfl⟩
  · rfl
  · exact hraise k
  · exact (hpc u _).trans (hw u hu)

/-! ### The own writes -/

theorem ownWrites_buf_of_load {i : Instr} {s u : State} (hi : i.command = .tblLoad ∨ i.command = .cllSet)
    (hw : OwnWrites s i u) : u.buf = s.buf := by
  cases hw
  case tblLoadLL | tblLoadD | tblLoadCL | cllSet => rfl
  all_goals simp [Instr.command] at hi

theorem ownWrites_phase {i : Instr} {s u : State} (hfinish : i.command ≠ .finish) (hblk : i.command ≠ .blkHdr)
    (hst : i.command ≠ .stLen) (hdyn : i.command ≠ .dynHdr) (htok : i.command ≠ .tok) (hw : OwnWrites s i u) :
    u.phase = s.phase := by
  cases hw
  case finish => exact absurd rfl hfinish
  case blkHdr => exact absurd rfl hblk
  case stLen => exact absurd rfl hst
  case dynHdr => exact absurd rfl hdyn
  case tokLiteral | tokLengthCode => exact absurd rfl htok
  all_goals simp

theorem ownWrites_group {i : Instr} {s u : State} (htok : i.command ≠ .tok) (hw : OwnWrites s i u) :
    u.group = s.group := by
  cases hw
  case tokLengthCode | tokLengthExtra | tokDistanceCode | tokCommit => exact absurd rfl htok
  all_goals simp

/-! ### TOK (43_huffman_symbols.md R131 to R135) -/

/-- With a group pending TOK leaves the phase. -/
theorem ownWrites_tok_phase {v : Token} {s u : State} (hg : s.group ≠ .empty) (hw : OwnWrites s (.tok v) u) :
    u.phase = s.phase := by
  cases hw
  case tokLiteral he _ _ | tokLengthCode he _ _ => exact absurd he hg
  all_goals simp

/-- A literal or end of block leaves the group. -/
theorem ownWrites_tok_group_of_literal {v : Token} {s u : State} (hg : s.group = .empty) (hv : v.toNat ≤ 256)
    (hw : OwnWrites s (.tok v) u) : u.group = s.group := by
  cases hw
  case tokLiteral => rfl
  case tokLengthCode hlo _ => exact absurd hv (Nat.not_le.mpr hlo)
  all_goals simp_all

/-- A token that is no literal and commits no group leaves the buffer. -/
theorem ownWrites_tok_buf {v : Token} {s u : State} (hv : s.group = .empty → 257 ≤ v.toNat)
    (hg : ∀ l e d, s.group ≠ .lcLeDc l e d) (hw : OwnWrites s (.tok v) u) : u.buf = s.buf := by
  cases hw
  case tokLiteral he hlo _ => exact absurd (hv he) (Nat.not_le.mpr (Nat.lt_succ_of_le hlo))
  case tokCommit hc _ _ _ => exact absurd hc (hg _ _ _)
  all_goals simp

/-- A token that is latched leaves the length code latched before. -/
theorem ownWrites_tok_ldLc {v : Token} {s u : State} (he : s.group ≠ .empty)
    (hg : ∀ l e d, s.group ≠ .lcLeDc l e d) (hw : OwnWrites s (.tok v) u) : u.group.ldLc = s.group.ldLc := by
  cases hw
  case tokLiteral | tokLengthCode => contradiction
  case tokCommit hc _ _ _ => exact absurd hc (hg _ _ _)
  case tokLengthExtra hl | tokDistanceCode hl => rw [hl]; rfl

/-- A token that is latched as the distance code leaves the length extra latched before. -/
theorem ownWrites_tok_ldLe {v l e : Token} {s u : State} (hg : s.group = .lcLe l e) (hw : OwnWrites s (.tok v) u) :
    u.group.ldLe = s.group.ldLe := by
  cases hw
  case tokDistanceCode hl => rw [hl]; rfl
  all_goals simp_all

/-- What TOK leaves, by the number of tokens already latched. -/
theorem execTok_keeps {v : Token} {s t : State} (h : exec (.tok v) s = .next t) :
    (s.group ≠ .empty → t.phase = s.phase) ∧
    (s.group = .empty → v.toNat ≤ 256 → t.group = s.group) ∧
    (s.group = .empty → 257 ≤ v.toNat → t.buf = s.buf) ∧
    (∀ lc, s.group = .lc lc → t.buf = s.buf ∧ t.group.ldLc = some lc) ∧
    (∀ lc le, s.group = .lcLe lc le → t.buf = s.buf ∧ t.group.ldLc = some lc ∧ t.group.ldLe = some le) := by
  refine ⟨fun hg => ?_, fun hg hv => ?_, fun hg hv => ?_, fun lc hg => ⟨?_, ?_⟩, fun lc le hg => ⟨?_, ?_, ?_⟩⟩
  · exact exec_keeps State.phase h fun _ => ownWrites_tok_phase hg
  · exact exec_keeps State.group h fun _ => ownWrites_tok_group_of_literal hg hv
  · exact exec_keeps State.buf h fun _ => ownWrites_tok_buf (fun _ => hv) (by simp [hg])
  · exact exec_keeps State.buf h fun _ => ownWrites_tok_buf (by simp [hg]) (by simp [hg])
  · have hlc := exec_keeps (fun s => s.group.ldLc) h fun _ => ownWrites_tok_ldLc (by simp [hg]) (by simp [hg])
    simpa [hg, LdGroup.ldLc] using hlc
  · exact exec_keeps State.buf h fun _ => ownWrites_tok_buf (by simp [hg]) (by simp [hg])
  · have hlc := exec_keeps (fun s => s.group.ldLc) h fun _ => ownWrites_tok_ldLc (by simp [hg]) (by simp [hg])
    simpa [hg, LdGroup.ldLc] using hlc
  · have hle := exec_keeps (fun s => s.group.ldLe) h fun _ => ownWrites_tok_ldLe hg
    simpa [hg, LdGroup.ldLe] using hle

/-! ### The tables -/

/-- A table is left by every command but the load of it and BLK_HDR, and the lengths by every one but CLL_SET and BLK_HDR
(41_huffman_table.md R110, R111, 46_stream_assembler.md R182). -/
theorem exec_keeps_tables {i : Instr} {s t : State} (h : exec i s = .next t) (hblk : i.command ≠ .blkHdr) :
    ((∀ sym code len, i ≠ .tblLoadLL sym code len) → t.tables.ll = s.tables.ll) ∧
    ((∀ sym code len, i ≠ .tblLoadD sym code len) → t.tables.d = s.tables.d) ∧
    ((∀ sym code len, i ≠ .tblLoadCL sym code len) → t.tables.cl = s.tables.cl) ∧
    (i.command ≠ .cllSet → t.tables.cllen = s.tables.cllen) := by
  rcases exec_tables_cases h with ht | ⟨-, ⟨_, _, rfl, -⟩ | ⟨_, _, _, rfl, ht⟩ | ⟨_, _, _, rfl, ht⟩ | ⟨_, _, _, rfl, ht⟩ |
    ⟨_, _, rfl, ht⟩⟩
  · simp [ht]
  · exact absurd rfl hblk
  all_goals simp [ht, Instr.command]

/-! ### The sequencing state -/

/-- `err` and `err_pc` are left, or one error is recorded at the unchanged `pc` (60_exceptions.md R206). -/
theorem exec_err_cases {i : Instr} {s t : State} (h : exec i s = .next t) :
    (t.err = s.err ∧ t.errPc = s.errPc) ∨ (s.err = none ∧ t.err ≠ none ∧ t.errPc = s.pc ∧ t.pc = s.pc) := by
  rcases exec_next_cases h with ⟨-, rfl⟩ | ⟨he, k, rfl⟩ | ⟨he, -, -, hte, htec, -, -⟩
  · exact .inl ⟨rfl, rfl⟩
  · exact .inr ⟨he, by simp, rfl, rfl⟩
  · exact .inl ⟨hte.trans he.symm, htec⟩

/-- `pc` is left, or one more after a command that completes (10_state.md R20). -/
theorem exec_pc_cases {i : Instr} {s t : State} (h : exec i s = .next t) :
    t.pc = s.pc ∨ (s.err = none ∧ t.err = none ∧ t.pc = s.pc + 1) := by
  rcases exec_next_cases h with ⟨-, rfl⟩ | ⟨-, k, rfl⟩ | ⟨he, -, -, hte, -, hpc, -⟩
  · exact .inl rfl
  · exact .inl rfl
  · exact .inr ⟨he, hte, hpc⟩

theorem exec_input {i : Instr} {s t : State} (h : exec i s = .next t) : t.input = s.input :=
  exec_keeps State.input h fun _ hw =>
    have ⟨_, _, _, hinput⟩ := ownWrites_sequencing hw
    hinput

end Sys2Proof.Machine
end

section
/-!
PROOFS. How a command completes whose checks pass, and the check of a bit count that PUT_LSB and PUT_MSB share
(60_exceptions.md R201, 40_bitbuffer.md R93 to R96).
-/
namespace Sys2Proof.Machine

/-- A command whose checks all pass, short of the counter's end, makes its writes and counts (60_exceptions.md R201 step 7). -/
theorem runCommand_completes {c : Command} {s u : State} (h : s.err = none) (hk : commonFault c s = none)
    (hp : u.pc ≠ lastPc) : runCommand c (.ok u) s = .next (u.setPc (u.pc + 1)) := by
  rw [runCommand_ok h hk, complete_of_ne hp]

/-- The common checks pass with no group pending in a legal phase that is not DONE. -/
theorem commonFault_none_of_legal {c : Command} {s : State} (hg : s.group = .empty) (hd : s.phase ≠ .done)
    (hl : legal c s.phase = true) : commonFault c s = none :=
  commonFault_none_iff.mpr ⟨hd, .inl hg, hl⟩

theorem badWidth_eq_false_iff {n : Nat} : badWidth n = false ↔ 1 ≤ n ∧ n ≤ 32 := by
  simp [badWidth, Nat.one_le_iff_ne_zero]

theorem badWidth_eq_true_iff {n : Nat} : badWidth n = true ↔ n = 0 ∨ 32 < n := by
  simp [badWidth]

/-- An append whose width is in 1..32 completes (40_bitbuffer.md R93, R94). -/
theorem runCommand_completes_of_width {c : Command} {n : Nat} {s u : State} (h : s.err = none)
    (hk : commonFault c s = none) (hn : 1 ≤ n ∧ n ≤ 32) (hp : u.pc ≠ lastPc) :
    runCommand c (if badWidth n then .error .invalidBitWidth else .ok u) s = .next (u.setPc (u.pc + 1)) := by
  rw [badWidth_eq_false_iff.mpr hn]
  exact runCommand_completes h hk hp

/-- An append whose width is outside 1..32 raises InvalidBitWidth (40_bitbuffer.md R93, R94). -/
theorem runCommand_raises_of_badWidth {c : Command} {n : Nat} {s u : State} (h : s.err = none)
    (hk : commonFault c s = none) (hn : n = 0 ∨ 32 < n) :
    runCommand c (if badWidth n then .error .invalidBitWidth else .ok u) s = .next (raise .invalidBitWidth s) := by
  rw [badWidth_eq_true_iff.mpr hn]
  exact runCommand_own h hk

end Sys2Proof.Machine
end

section
/-!
PROOFS. The obligations of the BitBuffer, settled.
-/
namespace Sys2Proof.Proofs

open Sys2Proof Sys2Proof.Machine

/-- Settles O20: `put_lsb` pushes the field LSB-first, and the field looks only at the low `n` bits. -/
theorem putLsbPushesUpward : Obligations.PutLsbPushesUpward := by
  intro v n b _ _
  refine ⟨?_, ?_⟩
  · rw [foldl_pushBit_testBit, putLsb_eq_pushBits, lsbBits]
  · rw [putLsb_eq_pushBits, putLsb_eq_pushBits, lsbBits_mod]

/-- Settles O21: `put_msb` pushes the field MSB-first, which is the field LSB-first reversed. -/
theorem putMsbPushesDownward : Obligations.PutMsbPushesDownward := by
  intro v n b _ _
  refine ⟨?_, ?_⟩
  · rw [foldl_pushBit_testBit, putMsb_eq_pushBits, msbBits_eq_reverse, lsbBits, List.map_reverse]
  · rw [putMsb_eq_pushBits, putMsb_eq_pushBits, msbBits_mod]

/-- Settles O22: the bits after the append are those of `OUT` and of the pending word, and the bits determine the buffer. -/
theorem appendClosedForm : Obligations.AppendClosedForm := by
  intro v n b hb _ _
  obtain ⟨hinv, -⟩ := putLsb_bits hb v n
  obtain ⟨hout, hacc, hnbits⟩ :=
    fields_of_bits hinv (pendingWord_lt hb v n) (putLsb_bits_eq_pendingWord hb v n)
  refine ⟨hout, hacc, hnbits, ?_⟩
  rw [putMsb_eq_pushBits, putLsb_eq_pushBits, ← msbBits_eq_lsbBits_reverseBits, msbBits_mod]

/-- Settles O23: the field stands in the bit sequence right after the bits before the append. -/
theorem readBackGivesTheValue : Obligations.ReadBackGivesTheValue := by
  intro v n b hb _ _ hv
  exact ⟨fun _ => readLsb_of_putLsb hb hv, fun _ => readMsb_of_putMsb hb hv, align_bits_of_nbits_ne_zero hb,
    align_of_nbits_zero⟩

/-- Settles O24: each field splits as a list of bits. -/
theorem appendsSplit : Obligations.AppendsSplit := by
  intro v k l b
  simp only [putLsb_eq_pushBits, putMsb_eq_pushBits, lsbBits_add, msbBits_add, pushBits_append, and_self]

/-- Settles O25: each operation pushes bits, as many as its list is long. -/
theorem appendsGrowTheOutput : Obligations.AppendsGrowTheOutput := by
  intro v n b
  refine ⟨?_, ?_, align_bitCount b, pushed_out (pushed_putLsb b v n), pushed_out (pushed_putMsb b v n),
    pushed_out (pushed_align b), align_nbits b, ?_⟩
  · rw [putLsb_eq_pushBits, pushBits_bitCount, lsbBits_length]
  · rw [putMsb_eq_pushBits, pushBits_bitCount, msbBits_length]
  · rw [bitCount_mod, align_nbits]
    rfl

/-- Settles O47: each piece of state is left by error entry, by the counter and by the own writes that do not list it. -/
theorem commandsWriteOnlyTheirListedState : Obligations.CommandsWriteOnlyTheirListedState := by
  intro i s t h
  refine ⟨exec_input h, fun hi => ?_, fun hfinish hblk hst hdyn htok => ?_, fun htok => ?_, ?_,
    fun hload hblk => ?_, fun hload hblk => ?_, fun hload hblk => ?_, fun hset hblk => ?_, exec_err_cases h, exec_pc_cases h⟩
  · exact exec_keeps State.buf h fun _ => ownWrites_buf_of_load hi
  · exact exec_keeps State.phase h fun _ => ownWrites_phase hfinish hblk hst hdyn htok
  · exact exec_keeps State.group h fun _ => ownWrites_group htok
  · rintro v rfl
    exact execTok_keeps h
  all_goals obtain ⟨hll, hd, hcl, hcllen⟩ := exec_keeps_tables h hblk
  · exact hll hload
  · exact hd hload
  · exact hcl hload
  · exact hcllen hset

/-- Settles O19: the two branches of `push_bit`, each of which keeps the invariant. -/
theorem pushBitFillsAndFlushes : Obligations.PushBitFillsAndFlushes := by
  intro bit b
  exact ⟨fun h => pushBit_of_not_full h bit, fun h => pushBit_of_full h bit, fun h => pushBit_inv h bit⟩

/-- Settles O29: outside DONE and with no group pending only the width is checked. -/
theorem putCommandsResult : Obligations.PutCommandsResult := by
  intro n value s he hg hd
  have hlsb : commonFault .putLsb s = none := commonFault_none_of_legal hg hd (by simpa [legal] using hd)
  have hmsb : commonFault .putMsb s = none := commonFault_none_of_legal hg hd (by simpa [legal] using hd)
  refine ⟨fun hlo hhi hp => ?_, fun hbad => ?_⟩
  · have hn : 1 ≤ n.toNat ∧ n.toNat ≤ 32 := ⟨hlo, hhi⟩
    exact ⟨runCommand_completes_of_width he hlsb hn hp, runCommand_completes_of_width he hmsb hn hp⟩
  · exact ⟨runCommand_raises_of_badWidth he hlsb hbad, runCommand_raises_of_badWidth he hmsb hbad⟩

/-- Settles O30: ALIGN and FINISH have no checks of their own. -/
theorem alignAndFinishResult : Obligations.AlignAndFinishResult := by
  intro s he hg hp
  refine ⟨fun hd => ?_, fun hl => ?_⟩
  · exact runCommand_completes he (commonFault_none_of_legal hg hd (by simpa [legal] using hd)) hp
  · have hd : s.phase ≠ .done := by rcases hl with h | h | h | h <;> simp [h]
    exact runCommand_completes he (commonFault_none_of_legal hg hd (by simpa [legal] using hl)) hp

end Sys2Proof.Proofs
end

section
/-!
PROOFS. The check of a symbol's range that the loads share, what a table answers after TBL_LOAD, and what `check_code` answers
(41_huffman_table.md R110 to R113).
-/
namespace Sys2Proof.Machine

/-! ### The loads -/

/-- A command whose only own check is that a symbol is within its table completes for one that is (41_huffman_table.md R110,
R111). -/
theorem runCommand_completes_of_le {c : Command} {bound sym : Nat} {s u : State} (h : s.err = none)
    (hk : commonFault c s = none) (hsym : sym ≤ bound) (hp : u.pc ≠ lastPc) :
    runCommand c (if bound < sym then .error .malformedField else .ok u) s = .next (u.setPc (u.pc + 1)) := by
  rw [if_neg hsym.not_gt]
  exact runCommand_completes h hk hp

/-- Such a command raises MalformedField for a symbol outside its table (41_huffman_table.md R110, R111). -/
theorem runCommand_raises_of_lt {c : Command} {bound sym : Nat} {s u : State} (h : s.err = none)
    (hk : commonFault c s = none) (hsym : bound < sym) :
    runCommand c (if bound < sym then .error .malformedField else .ok u) s = .next (raise .malformedField s) := by
  rw [if_pos hsym]
  exact runCommand_own h hk

/-- The common checks of TBL_LOAD pass in its three phases (46_stream_assembler.md R184). -/
theorem commonFault_tblLoad {s : State} (hg : s.group = .empty)
    (hph : s.phase = .dynWait ∨ s.phase = .dynCl ∨ s.phase = .huff) : commonFault .tblLoad s = none := by
  have hd : s.phase ≠ .done := by rcases hph with h | h | h <;> simp [h]
  exact commonFault_none_of_legal hg hd (by simpa [legal] using hph)

/-- The common checks of CLL_SET pass in DYN_WAIT (46_stream_assembler.md R184). -/
theorem commonFault_cllSet {s : State} (hg : s.group = .empty) (hph : s.phase = .dynWait) :
    commonFault .cllSet s = none :=
  commonFault_none_of_legal hg (by simp [hph]) (by simp [legal, hph])

theorem lookup_loadEntry_same (t : Table Entry) (sym : BitVec 16) (code : BitVec 32) (len : BitVec 6) :
    (loadEntry t sym code len).lookup sym.toNat = some { len := len, code := code } :=
  lookup_store_same t sym.toNat _

theorem lookup_loadEntry_other (t : Table Entry) (sym : BitVec 16) (code : BitVec 32) (len : BitVec 6) {other : Nat}
    (h : other ≠ sym.toNat) : (loadEntry t sym code len).lookup other = t.lookup other :=
  lookup_store_other t _ h

/-! ### The check before a code is written -/

theorem checkCode_of_absent {t : Table Entry} {sym : Nat} (h : t.lookup sym = none) :
    checkCode t sym = .error .unknownSymbol := by
  simp [checkCode, h]

theorem checkCode_of_badWidth {t : Table Entry} {sym : Nat} {e : Entry} (h : t.lookup sym = some e)
    (hw : e.len.toNat = 0 ∨ 32 < e.len.toNat) : checkCode t sym = .error .invalidBitWidth := by
  simp [checkCode, h, badWidth_eq_true_iff.mpr hw]

theorem checkCode_of_width {t : Table Entry} {sym : Nat} {e : Entry} (h : t.lookup sym = some e)
    (hw : 1 ≤ e.len.toNat ∧ e.len.toNat ≤ 32) : checkCode t sym = .ok e := by
  simp [checkCode, h, badWidth_eq_false_iff.mpr hw]

end Sys2Proof.Machine
end

section
/-!
PROOFS. The obligations of the Huffman table index, settled.
-/
namespace Sys2Proof.Proofs

open Sys2Proof Sys2Proof.Machine

/-- Settles O31: each table's load is one store behind the check of its own bound. -/
theorem tableLoadResult : Obligations.TableLoadResult := by
  intro sym code len s he hg hph
  have hk : commonFault .tblLoad s = none := commonFault_tblLoad hg hph
  refine ⟨fun hp => ⟨fun hsym => ?_, fun hsym => ?_, fun hsym => ?_⟩, ?_, ?_, ?_⟩
  · exact ⟨loadEntry s.tables.ll sym code len, runCommand_completes_of_le he hk hsym hp, lookup_loadEntry_same _ _ _ _,
      fun _ => lookup_loadEntry_other _ _ _ _⟩
  · exact ⟨loadEntry s.tables.d sym code len, runCommand_completes_of_le he hk hsym hp, lookup_loadEntry_same _ _ _ _,
      fun _ => lookup_loadEntry_other _ _ _ _⟩
  · exact ⟨loadEntry s.tables.cl sym code len, runCommand_completes_of_le he hk hsym hp, lookup_loadEntry_same _ _ _ _,
      fun _ => lookup_loadEntry_other _ _ _ _⟩
  all_goals exact runCommand_raises_of_lt he hk

/-- Settles O32: CLL_SET is one store behind the check that the symbol is at most 18. -/
theorem cllSetResult : Obligations.CllSetResult := by
  intro sym len3 s he hg hph
  have hk : commonFault .cllSet s = none := commonFault_cllSet hg hph
  refine ⟨fun hsym hp => ?_, runCommand_raises_of_lt he hk⟩
  exact ⟨s.tables.cllen.store sym.toNat len3, runCommand_completes_of_le he hk hsym hp, lookup_store_same _ _ _,
    fun _ => lookup_store_other _ _⟩

/-- Settles O44: the three answers of `check_code` by the entry and its width. -/
theorem checkCodeOrder : Obligations.CheckCodeOrder := by
  intro t sym
  exact ⟨checkCode_of_absent, fun _ h hw => checkCode_of_badWidth h hw, fun _ h hlo hhi => checkCode_of_width h ⟨hlo, hhi⟩⟩

end Sys2Proof.Proofs
end

section
/-!
PROOFS. The stored block: the whole bytes that ST_LEN and RAW append, how its three commands complete, and the state that a
stored block of any number of bytes ends in (42_stored_block.md R120 to R122).
-/
namespace Sys2Proof.Machine

/-! ### The boundary -/

/-- A buffer with nothing pending and an empty accumulator is its bytes alone. -/
theorem eq_aligned {b : BitBuffer} (hn : b.nbits = 0#3) (ha : b.acc = 0#8) :
    b = { out := b.out, acc := 0, nbits := 0 } := by
  cases b; cases hn; cases ha; rfl

theorem aligned_bitCount (out : List Byte) : BitBuffer.bitCount { out := out, acc := 0, nbits := 0 } = 8 * out.length := rfl

/-- Under the invariant a buffer after `align()` is its bytes alone (40_bitbuffer.md R95). -/
theorem align_eq_aligned {b : BitBuffer} (h : b.Inv) : b.align = { out := b.align.out, acc := 0, nbits := 0 } :=
  eq_aligned (align_nbits b) (inv_acc_of_nbits_zero (pushed_inv (pushed_align b) h) (align_nbits b))

/-- `align()` rounds the bits appended up to whole bytes (42_stored_block.md R122). -/
theorem align_out_length (b : BitBuffer) : b.align.out.length = (b.bitCount + 7) / 8 := by
  have hcount := align_bitCount b
  have hmod := bitCount_mod b
  have hn : b.align.nbits.toNat = 0 := by simp [align_nbits]
  rw [BitBuffer.bitCount, hn] at hcount
  omega

/-! ### The bytes -/

/-- LEN and NLEN as bytes, low byte first (20_memory.md R48). -/
def lengthBytes (len nlen : BitVec 16) : List Byte :=
  [len.extractLsb' 0 8, len.extractLsb' 8 8, nlen.extractLsb' 0 8, nlen.extractLsb' 8 8]

@[simp] theorem lengthBytes_length (len nlen : BitVec 16) : (lengthBytes len nlen).length = 4 := rfl

/-- The bits of LEN and NLEN are those of their four bytes (30_encoding.md R62). -/
theorem bytesBits_lengthBytes (len nlen : BitVec 16) :
    bytesBits (lengthBytes len nlen) = lsbBits len.toNat 16 ++ lsbBits nlen.toNat 16 := by
  rw [lsbBits_sixteen, lsbBits_sixteen, ← bytesBits_append]
  rfl

/-- An aligned buffer takes LEN and NLEN as their four bytes. -/
theorem putLengths_aligned (len nlen : BitVec 16) (out : List Byte) :
    (BitBuffer.putLsb len.toNat 16 { out := out, acc := 0, nbits := 0 }).putLsb nlen.toNat 16 =
      { out := out ++ lengthBytes len nlen, acc := 0, nbits := 0 } := by
  rw [putLsb_eq_pushBits, putLsb_eq_pushBits, ← pushBits_append, ← bytesBits_lengthBytes, pushBits_bytesBits]

/-- What ST_LEN appends to a buffer that meets the invariant (42_stored_block.md R120). -/
theorem align_putLengths {b : BitBuffer} (h : b.Inv) (len nlen : BitVec 16) :
    (b.align.putLsb len.toNat 16).putLsb nlen.toNat 16 =
      { out := b.align.out ++ lengthBytes len nlen, acc := 0, nbits := 0 } := by
  rw [align_eq_aligned h, putLengths_aligned]

/-- An aligned buffer takes a byte as it is (42_stored_block.md R121). -/
theorem putByte_aligned (byte : Byte) (out : List Byte) :
    BitBuffer.putLsb byte.toNat 8 { out := out, acc := 0, nbits := 0 } =
      { out := out ++ [byte], acc := 0, nbits := 0 } := by
  have hbits : lsbBits byte.toNat 8 = bytesBits [byte] := (bytesBits_singleton byte).symm
  rw [putLsb_eq_pushBits, hbits, pushBits_bytesBits]

/-! ### The commands

The new buffer is generalized before the states are compared, so that no append is unfolded. -/

/-- The common checks of ST_LEN pass in ST_WAIT (46_stream_assembler.md R184). -/
theorem commonFault_stLen {s : State} (hg : s.group = .empty) (hph : s.phase = .stWait) : commonFault .stLen s = none :=
  commonFault_none_of_legal hg (by simp [hph]) (by simp [legal, hph])

/-- The common checks of RAW pass in ST_DATA (46_stream_assembler.md R184). -/
theorem commonFault_raw {s : State} (hg : s.group = .empty) (hph : s.phase = .stData) : commonFault .raw s = none :=
  commonFault_none_of_legal hg (by simp [hph]) (by simp [legal, hph])

/-- The common checks of BLK_HDR pass in its four phases (46_stream_assembler.md R184). -/
theorem commonFault_blkHdr {s : State} (hg : s.group = .empty)
    (hph : s.phase = .idle ∨ s.phase = .stData ∨ s.phase = .dynCl ∨ s.phase = .huff) : commonFault .blkHdr s = none := by
  have hd : s.phase ≠ .done := by rcases hph with h | h | h | h <;> simp [h]
  exact commonFault_none_of_legal hg hd (by simpa [legal] using hph)

/-- ST_LEN has no checks of its own (42_stored_block.md R120). -/
theorem exec_stLen_completes (len nlen : BitVec 16) {s : State} (he : s.err = none) (hg : s.group = .empty)
    (hph : s.phase = .stWait) (hp : s.pc ≠ lastPc) :
    exec (.stLen len nlen) s = .next { s with
      buf := (s.buf.align.putLsb len.toNat 16).putLsb nlen.toNat 16, phase := .stData, pc := s.pc + 1 } := by
  rw [exec, execStLen]
  generalize (s.buf.align.putLsb len.toNat 16).putLsb nlen.toNat 16 = b
  exact runCommand_completes he (commonFault_stLen hg hph) hp

/-- RAW has no checks of its own (42_stored_block.md R121). -/
theorem exec_raw_completes (byte : Byte) {s : State} (he : s.err = none) (hg : s.group = .empty)
    (hph : s.phase = .stData) (hp : s.pc ≠ lastPc) :
    exec (.raw byte) s = .next { s with buf := s.buf.putLsb byte.toNat 8, pc := s.pc + 1 } := by
  rw [exec, execRaw]
  generalize s.buf.putLsb byte.toNat 8 = b
  exact runCommand_completes he (commonFault_raw hg hph) hp

/-- BLK_HDR completes for every block type but the reserved one (46_stream_assembler.md R180 to R182). -/
theorem exec_blkHdr_completes (bfinal : BitVec 1) {btype : BitVec 2} {p : Phase} (hop : openedPhase btype = some p)
    {s : State} (he : s.err = none) (hg : s.group = .empty)
    (hph : s.phase = .idle ∨ s.phase = .stData ∨ s.phase = .dynCl ∨ s.phase = .huff) (hp : s.pc ≠ lastPc) :
    exec (.blkHdr bfinal btype) s = .next { s with
      buf := (s.buf.putLsb bfinal.toNat 1).putLsb btype.toNat 2, phase := p, tables := Tables.invalid, pc := s.pc + 1 } := by
  rw [exec, execBlkHdr, hop]
  exact runCommand_completes he (commonFault_blkHdr hg hph) hp

/-! ### Commands in order -/

/-- After a command with a next state the rest of the commands run on that state (20_memory.md R53). -/
theorem execAll_cons_of_next {i : Instr} {s t : State} (h : exec i s = .next t) (is : List Instr) :
    execAll (i :: is) s = execAll is t := by
  rw [execAll, h]

/-- A counter with room for a command is not at its end (10_state.md R20). -/
theorem ne_lastPc_of_room {pc : BitVec 64} {n : Nat} (h : pc.toNat + (n + 1) < 2 ^ 64) : pc ≠ lastPc := by
  rintro rfl
  have hlast : lastPc.toNat = 2 ^ 64 - 1 := rfl
  omega

/-- After a command there is room for the commands that are left (10_state.md R20). -/
theorem room_after_command {pc : BitVec 64} {n : Nat} (h : pc.toNat + (n + 1) < 2 ^ 64) :
    (pc + 1).toNat + n < 2 ^ 64 := by
  have hpc : (pc + 1).toNat = pc.toNat + 1 := BitVec.toNat_add_of_lt (show pc.toNat + 1 < 2 ^ 64 by omega)
  omega

/-- RAW commands on an aligned buffer append their bytes (42_stored_block.md R121, R122). -/
theorem execAll_raw (bytes : List Byte) {s : State} {out : List Byte} (he : s.err = none) (hg : s.group = .empty)
    (hph : s.phase = .stData) (hb : s.buf = { out := out, acc := 0, nbits := 0 })
    (hroom : s.pc.toNat + bytes.length < 2 ^ 64) :
    execAll (bytes.map .raw) s = .next { s with
      buf := { out := out ++ bytes, acc := 0, nbits := 0 }, pc := s.pc + BitVec.ofNat 64 bytes.length } := by
  induction bytes generalizing s out with
  | nil =>
    cases s; cases hb
    simp [execAll]
  | cons x xs ih =>
    have hrest := ih (s := { s with buf := { out := out ++ [x], acc := 0, nbits := 0 }, pc := s.pc + 1 }) he hg hph rfl
      (room_after_command hroom)
    rw [List.map_cons, execAll_cons_of_next (exec_raw_completes x he hg hph (ne_lastPc_of_room hroom)), hb,
      putByte_aligned, hrest]
    simp [BitVec.ofNat_add, BitVec.add_assoc, BitVec.add_comm 1#64]

/-- ST_LEN and RAW commands append whole bytes from the next boundary on (42_stored_block.md R120 to R122). -/
theorem execAll_stLen_raw (len nlen : BitVec 16) (bytes : List Byte) {s : State} (hi : s.buf.Inv) (he : s.err = none)
    (hg : s.group = .empty) (hph : s.phase = .stWait) (hroom : s.pc.toNat + (bytes.length + 1) < 2 ^ 64) :
    execAll (.stLen len nlen :: bytes.map .raw) s = .next { s with
      buf := { out := s.buf.align.out ++ lengthBytes len nlen ++ bytes, acc := 0, nbits := 0 }
      phase := .stData
      pc := s.pc + 1 + BitVec.ofNat 64 bytes.length } := by
  rw [execAll_cons_of_next (exec_stLen_completes len nlen he hg hph (ne_lastPc_of_room hroom)), align_putLengths hi]
  exact execAll_raw bytes (s := { s with buf := _, phase := .stData, pc := s.pc + 1 }) he hg rfl rfl
    (room_after_command hroom)

/-- The state that a stored block ends in: the header's three bits padded to whole bytes, then the lengths and the raw bytes,
with nothing pending (42_stored_block.md R122). -/
theorem execAll_pseudoStored (bfinal : BitVec 1) (len nlen : BitVec 16) (bytes : List Byte) {s : State} (hi : s.buf.Inv)
    (he : s.err = none) (hg : s.group = .empty)
    (hph : s.phase = .idle ∨ s.phase = .stData ∨ s.phase = .dynCl ∨ s.phase = .huff)
    (hroom : s.pc.toNat + (bytes.length + 2) < 2 ^ 64) :
    execAll (pseudoStored bfinal len nlen bytes) s = .next { s with
      buf := { out := ((s.buf.putLsb bfinal.toNat 1).putLsb 0 2).align.out ++ lengthBytes len nlen ++ bytes
               acc := 0
               nbits := 0 }
      phase := .stData
      tables := Tables.invalid
      pc := s.pc + 1 + 1 + BitVec.ofNat 64 bytes.length } := by
  have hhdr : ((s.buf.putLsb bfinal.toNat 1).putLsb 0 2).Inv :=
    pushed_inv (pushed_trans (pushed_putLsb _ _ _) (pushed_putLsb _ _ _)) hi
  rw [pseudoStored, execAll_cons_of_next (exec_blkHdr_completes bfinal rfl he hg hph (ne_lastPc_of_room hroom))]
  exact execAll_stLen_raw len nlen bytes
    (s := { s with buf := _, phase := .stWait, tables := Tables.invalid, pc := s.pc + 1 }) hhdr he hg rfl
    (room_after_command hroom)

/-- The header adds its three bits, which `align()` rounds up to whole bytes (42_stored_block.md R122). -/
theorem align_header_out_length (b : BitBuffer) (bfinal btype : Nat) :
    ((b.putLsb bfinal 1).putLsb btype 2).align.out.length = (b.bitCount + 3 + 7) / 8 := by
  simp [align_out_length, putLsb_eq_pushBits, pushBits_bitCount, Nat.add_assoc]

end Sys2Proof.Machine
end

section
/-!
PROOFS. The obligations of the stored block, settled.
-/
namespace Sys2Proof.Proofs

open Sys2Proof Sys2Proof.Machine

/-- Settles O54: the header is padded to a boundary, on which the lengths and every raw byte are whole bytes. -/
theorem storedBlockEndsOnABoundary : Obligations.StoredBlockEndsOnABoundary := by
  intro bfinal len nlen bytes s hi he hg hph hroom
  refine ⟨_, execAll_pseudoStored bfinal len nlen bytes hi he hg hph hroom, he, rfl, rfl, rfl, ?_, _, rfl⟩
  rw [aligned_bitCount, List.length_append, List.length_append, align_header_out_length, lengthBytes_length]
  omega

/-- Settles O35: ST_LEN checks nothing of its own, and the four bytes come whole on the boundary that `align()` reaches. -/
theorem storedLengthResult : Obligations.StoredLengthResult := by
  intro len nlen s he hg hph hp
  exact ⟨exec_stLen_completes len nlen he hg hph hp, fun hi => align_putLengths hi len nlen⟩

/-- Settles O36: RAW checks nothing of its own, and a buffer with nothing pending takes its byte whole. -/
theorem rawByteResult : Obligations.RawByteResult := by
  intro byte s he hg hph hp
  refine ⟨exec_raw_completes byte he hg hph hp, fun hn ha => ?_⟩
  rw [eq_aligned hn ha, putByte_aligned]

end Sys2Proof.Proofs
end

section
/-!
PROOFS. TOK by the number of tokens already latched: how each kind of token completes and which error it raises
(43_huffman_symbols.md R130 to R136).
-/
namespace Sys2Proof.Machine

/-! ### Every token -/

/-- The common checks of TOK pass in its two phases, whatever is latched (46_stream_assembler.md R184). -/
theorem commonFault_tok {s : State} (hph : s.phase = .dynCl ∨ s.phase = .huff) : commonFault .tok s = none := by
  have hd : s.phase ≠ .done := by rcases hph with h | h <;> simp [h]
  exact commonFault_none_iff.mpr ⟨hd, .inr rfl, by simpa [legal] using hph⟩

/-- A token whose own check fails raises its kind (60_exceptions.md R201 step 6). -/
theorem exec_tok_raises {v : Token} {s : State} {k : ErrKind} (he : s.err = none)
    (hph : s.phase = .dynCl ∨ s.phase = .huff) (hb : tokBody v s = .error k) :
    exec (.tok v) s = .next (raise k s) := by
  rw [exec, execTok, hb]
  exact runCommand_own he (commonFault_tok hph)

/-- A token whose checks pass, short of the counter's end, makes its writes and counts (60_exceptions.md R201 step 7). -/
theorem exec_tok_completes {v : Token} {s u : State} (he : s.err = none) (hph : s.phase = .dynCl ∨ s.phase = .huff)
    (hb : tokBody v s = .ok u) (hp : s.pc ≠ lastPc) : exec (.tok v) s = .next (u.setPc (s.pc + 1)) := by
  obtain ⟨hpc, -⟩ := tokBody_keeps v s u hb
  rw [← hpc] at hp ⊢
  rw [exec, execTok, hb]
  exact runCommand_completes he (commonFault_tok hph) hp

/-! ### A head token (R131 to R133) -/

theorem tokBody_of_literal_error {v : Token} {s : State} {k : ErrKind} (hg : s.group = .empty) (hv : v.toNat ≤ 256)
    (hk : checkCode s.tables.ll v.toNat = .error k) : tokBody v s = .error k := by
  simp [tokBody, tokHead, hg, hv, hk]

theorem tokBody_of_literal {v : Token} {s : State} {e : Entry} (hg : s.group = .empty) (hv : v.toNat ≤ 256)
    (he : checkCode s.tables.ll v.toNat = .ok e) :
    tokBody v s = .ok ((s.setBuf (s.buf.putCode e)).setPhase .huff) := by
  simp [tokBody, tokHead, hg, hv, he]

theorem tokBody_of_lengthCode {v : Token} {s : State} (hg : s.group = .empty) (hlo : 257 ≤ v.toNat)
    (hhi : v.toNat ≤ 285) : tokBody v s = .ok ((s.setGroup (.lc v)).setPhase .huff) := by
  simp [tokBody, tokHead, hg, hhi, show ¬ v.toNat ≤ 256 by omega]

theorem tokBody_of_outOfRange {v : Token} {s : State} (hg : s.group = .empty) (hv : 286 ≤ v.toNat) :
    tokBody v s = .error .malformedField := by
  simp [tokBody, tokHead, hg, show ¬ v.toNat ≤ 256 by omega, show ¬ v.toNat ≤ 285 by omega]

/-- A head token of 286 or more raises MalformedField (R132). -/
theorem exec_tok_outOfRange {v : Token} {s : State} (he : s.err = none) (hg : s.group = .empty)
    (hph : s.phase = .dynCl ∨ s.phase = .huff) (hv : 286 ≤ v.toNat) :
    exec (.tok v) s = .next (raise .malformedField s) :=
  exec_tok_raises he hph (tokBody_of_outOfRange hg hv)

/-- A length code opens a group (R133). -/
theorem exec_tok_opensGroup {v : Token} {s : State} (he : s.err = none) (hg : s.group = .empty)
    (hph : s.phase = .dynCl ∨ s.phase = .huff) (hlo : 257 ≤ v.toNat) (hhi : v.toNat ≤ 285) (hp : s.pc ≠ lastPc) :
    exec (.tok v) s = .next { s with group := .lc v, phase := .huff, pc := s.pc + 1 } :=
  exec_tok_completes he hph (tokBody_of_lengthCode hg hlo hhi) hp

/-! ### A token that is latched by position (R134) -/

theorem exec_tok_latchesExtra {v lc : Token} {s : State} (he : s.err = none) (hph : s.phase = .huff)
    (hg : s.group = .lc lc) (hp : s.pc ≠ lastPc) :
    exec (.tok v) s = .next { s with group := .lcLe lc v, pc := s.pc + 1 } :=
  exec_tok_completes (u := s.setGroup (.lcLe lc v)) he (.inr hph) (by simp [tokBody, hg]) hp

theorem exec_tok_latchesDistance {v lc le : Token} {s : State} (he : s.err = none) (hph : s.phase = .huff)
    (hg : s.group = .lcLe lc le) (hp : s.pc ≠ lastPc) :
    exec (.tok v) s = .next { s with group := .lcLeDc lc le v, pc := s.pc + 1 } :=
  exec_tok_completes (u := s.setGroup (.lcLeDc lc le v)) he (.inr hph) (by simp [tokBody, hg]) hp

/-! ### The token that commits the group: the checks in their order (R135, R136) -/

theorem tokBody_of_group {lc le dc de : Token} {s : State} (hg : s.group = .lcLeDc lc le dc) :
    tokBody de s = tokCommit lc le dc de s := by
  simp [tokBody, hg]

theorem tokCommit_lengthCode_error {lc : Token} (le dc de : Token) {s : State} {k : ErrKind}
    (hl : checkCode s.tables.ll lc.toNat = .error k) : tokCommit lc le dc de s = .error k := by
  simp [tokCommit, hl]

theorem tokCommit_distance_outOfRange {lc dc : Token} (le de : Token) {s : State} {lcode : Entry}
    (hl : checkCode s.tables.ll lc.toNat = .ok lcode) (hdc : 30 ≤ dc.toNat) :
    tokCommit lc le dc de s = .error .malformedField := by
  simp [tokCommit, hl, show 29 < dc.toNat by omega]

theorem tokCommit_distanceCode_error {lc dc : Token} (le de : Token) {s : State} {lcode : Entry} {k : ErrKind}
    (hl : checkCode s.tables.ll lc.toNat = .ok lcode) (hdc : dc.toNat ≤ 29)
    (hd : checkCode s.tables.d dc.toNat = .error k) : tokCommit lc le dc de s = .error k := by
  simp [tokCommit, hl, hdc.not_gt, hd]

theorem tokCommit_emits {lc dc : Token} (le de : Token) {s : State} {lcode dcode : Entry}
    (hl : checkCode s.tables.ll lc.toNat = .ok lcode) (hdc : dc.toNat ≤ 29)
    (hd : checkCode s.tables.d dc.toNat = .ok dcode) :
    tokCommit lc le dc de s =
      .ok ((s.setBuf (s.buf.putGroup lcode dcode lc.toNat le.toNat dc.toNat de.toNat)).setGroup .empty) := by
  simp [tokCommit, hl, hdc.not_gt, hd]

/-- An extra-bits field of count 0 appends nothing, so `putExtra` is `put_lsb` for every count (R135). -/
theorem putExtra_eq_putLsb (b : BitBuffer) (v c : Nat) : b.putExtra v c = b.putLsb v c := by
  rw [putExtra_eq_pushBits, putLsb_eq_pushBits]

end Sys2Proof.Machine
end

section
/-!
PROOFS. The flat token list as a list of symbols: an induction over it by what stands at its head, and `parse` in each case
(43_huffman_symbols.md R137).
-/
namespace Sys2Proof.Machine

/-! ### The tokens of a symbol -/

/-- The tokens that `parse` reads as a symbol (R137). -/
def SymbolToken.tokens : SymbolToken → List Token
  | .literal b => [b.setWidth 16]
  | .endOfBlock => [256]
  | .lengthDistance lc le dc de => [lc, le, dc, de]

/-- A symbol the source has: its length code is one of 257 to 285 (R132). -/
def SymbolToken.InRange : SymbolToken → Prop
  | .lengthDistance lc _ _ _ => 257 ≤ lc.toNat ∧ lc.toNat ≤ 285
  | _ => True

theorem inRange_of_lengthCodes {syms : List SymbolToken}
    (h : ∀ lc le dc de, SymbolToken.lengthDistance lc le dc de ∈ syms → 257 ≤ lc.toNat ∧ lc.toNat ≤ 285) :
    ∀ sym ∈ syms, sym.InRange := by
  intro sym hsym
  cases sym with
  | literal b => trivial
  | endOfBlock => trivial
  | lengthDistance lc le dc de => exact h lc le dc de hsym

/-- A byte as a token keeps its value (R131). -/
theorem byteToken_toNat (b : Byte) : (b.setWidth 16 : Token).toNat = b.toNat := BitVec.toNat_setWidth_of_le (by decide)

theorem byteToken_le (b : Byte) : (b.setWidth 16 : Token).toNat ≤ 256 := by
  have hb : b.toNat < 256 := b.isLt
  rw [byteToken_toNat]
  omega

/-- The pseudo-instruction of a symbol is TOK for each of its tokens (30_encoding.md R85). -/
theorem commands_eq_map_tokens (sym : SymbolToken) : sym.commands = sym.tokens.map .tok := by
  cases sym <;> rfl

theorem flatMap_commands (syms : List SymbolToken) :
    syms.flatMap SymbolToken.commands = (syms.flatMap SymbolToken.tokens).map .tok := by
  simp [List.map_flatMap, ← commands_eq_map_tokens]

theorem map_tok_injective : Function.Injective (List.map Instr.tok) :=
  List.map_injective_iff.mpr fun _ _ h => Instr.tok.inj h

/-! ### `parse` by the head of the list -/

theorem parseTokens_symbol_append {sym : SymbolToken} (h : sym.InRange) (rest : List Token) :
    parseTokens (sym.tokens ++ rest) = (parseTokens rest).map (sym :: ·) := by
  cases sym with
  | literal b =>
    have hb : b.toNat < 256 := b.isLt
    have hback : (b.setWidth 16).setWidth 8 = b := BitVec.setWidth_setWidth_of_le b (by decide)
    rw [SymbolToken.tokens, List.singleton_append, parseTokens.eq_def]
    simp only [byteToken_toNat, hback, show b.toNat ≤ 255 by omega, if_true]
  | endOfBlock => rw [SymbolToken.tokens, List.singleton_append, parseTokens.eq_def]; rfl
  | lengthDistance lc le dc de =>
    obtain ⟨hlo, hhi⟩ := h
    simp [SymbolToken.tokens, parseTokens, show ¬ lc.toNat ≤ 255 by omega, show lc.toNat ≠ 256 by omega, hhi]

theorem parseTokens_outOfRange {v : Token} (hv : 286 ≤ v.toNat) (rest : List Token) : parseTokens (v :: rest) = none := by
  unfold parseTokens
  rw [if_neg (by omega), if_neg (by omega), if_neg (by omega)]

theorem parseTokens_shortGroup {v : Token} (hlo : 257 ≤ v.toNat) (hhi : v.toNat ≤ 285) {rest : List Token}
    (hshort : rest.length < 3) : parseTokens (v :: rest) = none := by
  unfold parseTokens
  rw [if_neg (by omega), if_neg (by omega), if_pos hhi]
  split
  · simp at hshort; omega
  · rfl

/-- The induction over a flat token list: it is empty, or it starts with a symbol's tokens, with a value no symbol starts
with, or with a group that the list ends in (R137). -/
theorem tokens_induction {motive : List Token → Prop} (nil : motive [])
    (symbol : ∀ (sym : SymbolToken) (rest : List Token), sym.InRange → motive rest → motive (sym.tokens ++ rest))
    (outOfRange : ∀ (v : Token) (rest : List Token), 286 ≤ v.toNat → motive (v :: rest))
    (shortGroup : ∀ (v : Token) (rest : List Token), 257 ≤ v.toNat → v.toNat ≤ 285 → rest.length < 3 →
      motive (v :: rest)) (toks : List Token) : motive toks := by
  induction toks using parseTokens.induct with
  | case1 => exact nil
  | case2 v rest hv ih =>
    have hback : (v.setWidth 8).setWidth 16 = v := BitVec.eq_of_toNat_eq (by simp; omega)
    simpa [SymbolToken.tokens, hback] using symbol (.literal (v.setWidth 8)) rest trivial ih
  | case3 v rest _ hv ih =>
    obtain rfl : v = 256 := BitVec.eq_of_toNat_eq hv
    exact symbol .endOfBlock rest trivial ih
  | case4 v hlit heob hhi le dc de rest ih =>
    exact symbol (.lengthDistance v le dc de) rest ⟨by omega, hhi⟩ ih
  | case5 v rest hlit heob hhi hshort =>
    refine shortGroup v rest (by omega) hhi ?_
    match rest, hshort with
    | [], _ | [_], _ | [_, _], _ => simp
    | le :: dc :: de :: rest, hshort => exact absurd rfl (hshort le dc de rest)
  | case6 v rest hlit heob hhi => exact outOfRange v rest (by omega)

/-! ### `parse` and the pseudo-instructions -/

/-- The tokens of the symbols that a list parses to are the list (R137). -/
theorem tokens_of_parseTokens {toks : List Token} {syms : List SymbolToken} (h : parseTokens toks = some syms) :
    syms.flatMap SymbolToken.tokens = toks := by
  induction toks using tokens_induction generalizing syms with
  | nil =>
    obtain rfl : [] = syms := by simpa [parseTokens] using h
    rfl
  | symbol sym rest hsym ih =>
    rw [parseTokens_symbol_append hsym] at h
    obtain ⟨tail, htail, rfl⟩ := Option.map_eq_some_iff.mp h
    rw [List.flatMap_cons, ih htail]
  | outOfRange v rest hv => simp [parseTokens_outOfRange hv] at h
  | shortGroup v rest hlo hhi hshort => simp [parseTokens_shortGroup hlo hhi hshort] at h

/-- The tokens of symbols that are in range parse to them (R137). -/
theorem parseTokens_tokens {syms : List SymbolToken} (h : ∀ sym ∈ syms, sym.InRange) :
    parseTokens (syms.flatMap SymbolToken.tokens) = some syms := by
  induction syms with
  | nil => rfl
  | cons sym syms ih =>
    obtain ⟨hsym, hsyms⟩ := List.forall_mem_cons.mp h
    rw [List.flatMap_cons, parseTokens_symbol_append hsym, ih hsyms]
    rfl

end Sys2Proof.Machine
end

section
/-!
PROOFS. Running a flat token list in a Huffman block: each symbol emits its bits or ends in an error, and so does the list
with the command that ends the block (43_huffman_symbols.md R137, R138).
-/
namespace Sys2Proof.Machine

/-! ### The bits of a symbol and the checks of its tokens -/

theorem toOption_eq_some_iff {ε α : Type} {x : Except ε α} {a : α} : x.toOption = some a ↔ x = .ok a := by
  cases x <;> simp [Except.toOption]

theorem toOption_eq_none_iff {ε α : Type} {x : Except ε α} : x.toOption = none ↔ ∃ k, x = .error k := by
  cases x <;> simp [Except.toOption]

/-- Part A's entry of a code is what `check_code` hands over (41_huffman_table.md R113). -/
theorem usable_eq_toOption (t : Table Entry) (sym : Nat) : usable t sym = (checkCode t sym).toOption := by
  cases h : t.lookup sym with
  | none => simp [usable, checkCode, h, Except.toOption]
  | some e =>
    by_cases hw : 1 ≤ e.len.toNat ∧ e.len.toNat ≤ 32
    · simp [usable, checkCode_of_width h hw, h, hw, Except.toOption]
    · simp [usable, checkCode_of_badWidth h (by omega), h, hw, Except.toOption]

/-- The bits of a head token up to 256; none if its lookup or check fails (R131). -/
def literalBits (t : Tables) (v : Token) : Option (List Bool) := (usable t.ll v.toNat).map codeBits

theorem symbolBitsIn_literal (t : Tables) (b : Byte) : symbolBitsIn t (.literal b) = literalBits t (b.setWidth 16) := by
  rw [literalBits, byteToken_toNat]
  rfl

theorem symbolBitsIn_endOfBlock (t : Tables) : symbolBitsIn t .endOfBlock = literalBits t 256 := rfl

/-- A literal or end-of-block token writes its bits, if it has them, and fails otherwise (R131). -/
theorem tokBody_literal_toOption {v : Token} {s : State} (hg : s.group = .empty) (hv : v.toNat ≤ 256) :
    (tokBody v s).toOption =
      (literalBits s.tables v).map fun bits => (s.setBuf (s.buf.pushBits bits)).setPhase .huff := by
  rw [literalBits, usable_eq_toOption]
  cases hc : checkCode s.tables.ll v.toNat with
  | error k => rw [tokBody_of_literal_error hg hv hc]; rfl
  | ok e => rw [tokBody_of_literal hg hv hc, putCode_eq_pushBits]; rfl

theorem putGroup_eq_pushBits (b : BitBuffer) (lcode dcode : Entry) (lc le dc de : Nat) :
    b.putGroup lcode dcode lc le dc de = b.pushBits (groupBits lcode dcode lc le dc de) := by
  simp [BitBuffer.putGroup, groupBits, putCode_eq_pushBits, putExtra_eq_pushBits]

/-- The token that commits a group writes the group's bits, if it has them, and fails otherwise (R135, R136). -/
theorem tokCommit_toOption (lc le dc de : Token) (s : State) :
    (tokCommit lc le dc de s).toOption =
      (symbolBitsIn s.tables (.lengthDistance lc le dc de)).map
        fun bits => (s.setBuf (s.buf.pushBits bits)).setGroup .empty := by
  rw [symbolBitsIn, usable_eq_toOption, usable_eq_toOption]
  cases hl : checkCode s.tables.ll lc.toNat with
  | error k => simp [tokCommit_lengthCode_error le dc de hl, Except.toOption]
  | ok lcode =>
    by_cases hdc : dc.toNat ≤ 29
    · cases hd : checkCode s.tables.d dc.toNat with
      | error k => simp [tokCommit_distanceCode_error le de hl hdc hd, Except.toOption]
      | ok dcode => simp [tokCommit_emits le de hl hdc hd, putGroup_eq_pushBits, hdc, Except.toOption]
    · simp [tokCommit_distance_outOfRange le de hl (Nat.lt_of_not_le hdc), hdc, Except.toOption]

/-! ### Runs that end in an error -/

/-- The commands run to a state with an error recorded. -/
def EndsInError (is : List Instr) (s : State) : Prop := ∃ t, execAll is s = .next t ∧ t.err ≠ none

/-- With an error recorded every command is discarded (60_exceptions.md R202). -/
theorem execAll_of_err {s : State} (h : s.err ≠ none) (is : List Instr) : execAll is s = .next s := by
  induction is with
  | nil => rfl
  | cons i is ih =>
    obtain ⟨body, hb, -⟩ := exec_eq_runCommand i s
    rw [execAll_cons_of_next (hb.trans (runCommand_discard h)), ih]

theorem execAll_append_of_next {is : List Instr} {s t : State} (h : execAll is s = .next t) (js : List Instr) :
    execAll (is ++ js) s = execAll js t := by
  induction is generalizing s with
  | nil =>
    obtain rfl := Host.Outcome.next.inj h
    rfl
  | cons i is ih =>
    cases hx : exec i s with
    | next u =>
      rw [execAll_cons_of_next hx] at h
      rw [List.cons_append, execAll_cons_of_next hx, ih h]
    | fault r => simp [execAll, hx] at h
    | refused r => simp [execAll, hx] at h

theorem endsInError_append {is : List Instr} {s : State} (h : EndsInError is s) (js : List Instr) :
    EndsInError (is ++ js) s := by
  obtain ⟨t, ht, he⟩ := h
  exact ⟨t, (execAll_append_of_next ht js).trans (execAll_of_err he js), he⟩

theorem endsInError_append_of_next {is js : List Instr} {s t : State} (h : execAll is s = .next t)
    (hj : EndsInError js t) : EndsInError (is ++ js) s := by
  obtain ⟨u, hu, he⟩ := hj
  exact ⟨u, (execAll_append_of_next h js).trans hu, he⟩

theorem endsInError_cons_of_next {i : Instr} {is : List Instr} {s t : State} (h : exec i s = .next t)
    (hi : EndsInError is t) : EndsInError (i :: is) s := by
  rwa [EndsInError, execAll_cons_of_next h]

theorem endsInError_cons_of_raise {i : Instr} {s : State} {k : ErrKind} (h : exec i s = .next (raise k s))
    (is : List Instr) : EndsInError (i :: is) s :=
  endsInError_cons_of_next h ⟨_, execAll_of_err (by simp) is, by simp⟩

/-- A command that is no TOK raises an error while a group is pending (60_exceptions.md R205). -/
theorem endsInError_of_pending {i : Instr} (hi : i.command ≠ .tok) {s : State} (he : s.err = none)
    (hg : s.group ≠ .empty) : EndsInError [i] s := by
  obtain ⟨body, hb, -⟩ := exec_eq_runCommand i s
  cases hc : commonFault i.command s with
  | some k => exact endsInError_cons_of_raise (hb.trans (runCommand_common he hc)) []
  | none =>
    obtain ⟨-, hge, -⟩ := commonFault_none_iff.mp hc
    exact absurd hge (not_or.mpr ⟨hg, hi⟩)

/-! ### Between two symbols -/

/-- The unit stands between two symbols of a Huffman block, and the counter has room for `n` more commands. -/
structure AtSymbol (s : State) (n : Nat) : Prop where
  err : s.err = none
  phase : s.phase = .huff
  group : s.group = .empty
  room : s.pc.toNat + n < 2 ^ 64

/-- After `m` commands there is room for the commands that are left (10_state.md R20). -/
theorem room_after_commands {pc : BitVec 64} {m n : Nat} (h : pc.toNat + (m + n) < 2 ^ 64) :
    (pc + BitVec.ofNat 64 m).toNat + n < 2 ^ 64 := by
  rw [BitVec.toNat_add, BitVec.toNat_ofNat]
  omega

/-- The state after symbols of `n` tokens with the given bits. -/
def State.afterSymbols (s : State) (bits : List Bool) (n : Nat) : State :=
  (s.setBuf (s.buf.pushBits bits)).setPc (s.pc + BitVec.ofNat 64 n)

@[simp] theorem afterSymbols_buf (s : State) (bits : List Bool) (n : Nat) :
    (s.afterSymbols bits n).buf = s.buf.pushBits bits := rfl
@[simp] theorem afterSymbols_tables (s : State) (bits : List Bool) (n : Nat) :
    (s.afterSymbols bits n).tables = s.tables := rfl
@[simp] theorem afterSymbols_zero (s : State) : s.afterSymbols [] 0 = s := by
  simp [State.afterSymbols, State.setBuf, State.setPc]
@[simp] theorem afterSymbols_afterSymbols (s : State) (xs ys : List Bool) (m n : Nat) :
    (s.afterSymbols xs m).afterSymbols ys n = s.afterSymbols (xs ++ ys) (m + n) := by
  simp [State.afterSymbols, State.setBuf, State.setPc, BitVec.ofNat_add, BitVec.add_assoc]

theorem AtSymbol.afterSymbols {s : State} {m n : Nat} (h : AtSymbol s (m + n)) (bits : List Bool) :
    AtSymbol (s.afterSymbols bits m) n where
  err := h.err
  phase := h.phase
  group := h.group
  room := room_after_commands h.room

theorem AtSymbol.mono {s : State} {m n : Nat} (h : AtSymbol s n) (hle : m ≤ n) : AtSymbol s m where
  err := h.err
  phase := h.phase
  group := h.group
  room := by
    have hroom := h.room
    omega

theorem AtSymbol.ne_lastPc {s : State} {n : Nat} (h : AtSymbol s (n + 1)) : s.pc ≠ lastPc :=
  ne_lastPc_of_room h.room

/-! ### One symbol -/

/-- A literal or end-of-block token that has bits emits them (R131). -/
theorem exec_literal_emits {v : Token} {s : State} {bits : List Bool} (h : AtSymbol s 1) (hv : v.toNat ≤ 256)
    (hbits : literalBits s.tables v = some bits) : exec (.tok v) s = .next (s.afterSymbols bits 1) := by
  have hb : tokBody v s = .ok ((s.setBuf (s.buf.pushBits bits)).setPhase .huff) :=
    toOption_eq_some_iff.mp (by rw [tokBody_literal_toOption h.group hv, hbits]; rfl)
  rw [exec_tok_completes h.err (.inr h.phase) hb h.ne_lastPc]
  exact congrArg _ (state_ext rfl h.phase.symm rfl rfl rfl rfl rfl rfl)

/-- A literal or end-of-block token that has no bits ends in an error (R131). -/
theorem endsInError_literal {v : Token} {s : State} (h : AtSymbol s 1) (hv : v.toNat ≤ 256)
    (hbits : literalBits s.tables v = none) : EndsInError [.tok v] s := by
  obtain ⟨k, hb⟩ : ∃ k, tokBody v s = .error k :=
    toOption_eq_none_iff.mp (by rw [tokBody_literal_toOption h.group hv, hbits]; rfl)
  exact endsInError_cons_of_raise (exec_tok_raises h.err (.inr h.phase) hb) []

/-- `s` with the group `g` pending after `n` of its tokens. -/
def State.latching (s : State) (g : LdGroup) (n : Nat) : State :=
  (s.setGroup g).setPc (s.pc + BitVec.ofNat 64 n)

theorem latching_next (s : State) (g g' : LdGroup) (n : Nat) :
    { s.latching g n with group := g', pc := (s.latching g n).pc + 1 } = s.latching g' (n + 1) := by
  simp [State.latching, State.setGroup, State.setPc, BitVec.ofNat_add, BitVec.add_assoc]

theorem latching_ne_lastPc {s : State} {n : Nat} (h : AtSymbol s (n + 1)) (g : LdGroup) :
    (s.latching g n).pc ≠ lastPc :=
  ne_lastPc_of_room (n := 0) (room_after_commands h.room)

section

variable {s : State} {lc : Token} (hlo : 257 ≤ lc.toNat) (hhi : lc.toNat ≤ 285)
include hlo hhi

/-- A length code opens a group (R133). -/
theorem execAll_lc (h : AtSymbol s 1) : execAll [.tok lc] s = .next (s.latching (.lc lc) 1) := by
  rw [execAll_cons_of_next (exec_tok_opensGroup h.err h.group (.inr h.phase) hlo hhi h.ne_lastPc), execAll]
  exact congrArg _ (state_ext rfl h.phase.symm rfl rfl rfl rfl rfl rfl)

/-- The second token of a group is latched (R134). -/
theorem execAll_lcLe (le : Token) (h : AtSymbol s 2) :
    execAll [.tok lc, .tok le] s = .next (s.latching (.lcLe lc le) 2) := by
  have hx := exec_tok_latchesExtra (v := le) (s := s.latching (.lc lc) 1) h.err h.phase rfl (latching_ne_lastPc h _)
  rw [latching_next] at hx
  exact (execAll_append_of_next (execAll_lc hlo hhi (h.mono (by omega))) [.tok le]).trans (execAll_cons_of_next hx [])

/-- The third token of a group is latched (R134). -/
theorem execAll_lcLeDc (le dc : Token) (h : AtSymbol s 3) :
    execAll [.tok lc, .tok le, .tok dc] s = .next (s.latching (.lcLeDc lc le dc) 3) := by
  have hx := exec_tok_latchesDistance (v := dc) (s := s.latching (.lcLe lc le) 2) h.err h.phase rfl
    (latching_ne_lastPc h _)
  rw [latching_next] at hx
  exact (execAll_append_of_next (execAll_lcLe hlo hhi le (h.mono (by omega))) [.tok dc]).trans
    (execAll_cons_of_next hx [])

/-- A group that the list ends in is an error of the command that ends the block (R138). -/
theorem endsInError_shortGroup {i : Instr} (hi : i.command ≠ .tok) {rest : List Token} (hshort : rest.length < 3)
    (h : AtSymbol s (rest.length + 1)) : EndsInError ((lc :: rest).map .tok ++ [i]) s := by
  match rest, hshort with
  | [], _ =>
    exact endsInError_append_of_next (execAll_lc hlo hhi h) (endsInError_of_pending hi h.err nofun)
  | [le], _ =>
    exact endsInError_append_of_next (execAll_lcLe hlo hhi le h) (endsInError_of_pending hi h.err nofun)
  | [le, dc], _ =>
    exact endsInError_append_of_next (execAll_lcLeDc hlo hhi le dc h) (endsInError_of_pending hi h.err nofun)

end

/-- The own part of the token that commits a latched group. -/
theorem tokBody_commit_toOption (lc le dc de : Token) (s : State) :
    (tokBody de (s.latching (.lcLeDc lc le dc) 3)).toOption =
      (symbolBitsIn s.tables (.lengthDistance lc le dc de)).map
        fun bits => ((s.latching (.lcLeDc lc le dc) 3).setBuf (s.buf.pushBits bits)).setGroup .empty := by
  rw [tokBody_of_group rfl]
  exact tokCommit_toOption lc le dc de (s.latching (.lcLeDc lc le dc) 3)

/-- The token that commits a group that has bits emits them (R135). -/
theorem exec_commit_emits {lc le dc de : Token} {s : State} {bits : List Bool} (h : AtSymbol s 4)
    (hbits : symbolBitsIn s.tables (.lengthDistance lc le dc de) = some bits) :
    exec (.tok de) (s.latching (.lcLeDc lc le dc) 3) = .next (s.afterSymbols bits 4) := by
  have hb : tokBody de (s.latching (.lcLeDc lc le dc) 3) = .ok _ :=
    toOption_eq_some_iff.mp (by rw [tokBody_commit_toOption, hbits]; rfl)
  rw [exec_tok_completes (s := s.latching (.lcLeDc lc le dc) 3) h.err (.inr h.phase) hb (latching_ne_lastPc h _)]
  exact congrArg _ (state_ext rfl rfl h.group.symm (by simp [State.latching, State.afterSymbols, BitVec.add_assoc])
    rfl rfl rfl rfl)

/-- The token that commits a group that has no bits ends in an error (R135, R136). -/
theorem endsInError_commit {lc le dc de : Token} {s : State} {n : Nat} (h : AtSymbol s n)
    (hbits : symbolBitsIn s.tables (.lengthDistance lc le dc de) = none) :
    EndsInError [.tok de] (s.latching (.lcLeDc lc le dc) 3) := by
  obtain ⟨k, hb⟩ : ∃ k, tokBody de (s.latching (.lcLeDc lc le dc) 3) = .error k :=
    toOption_eq_none_iff.mp (by rw [tokBody_commit_toOption, hbits]; rfl)
  exact endsInError_cons_of_raise (exec_tok_raises (s := s.latching (.lcLeDc lc le dc) 3) h.err (.inr h.phase) hb) []

/-- The tokens of a symbol that has bits emit them (R137). -/
theorem execAll_symbol_emits {sym : SymbolToken} (hsym : sym.InRange) {s : State} {bits : List Bool}
    (h : AtSymbol s sym.tokens.length) (hbits : symbolBitsIn s.tables sym = some bits) :
    execAll (sym.tokens.map .tok) s = .next (s.afterSymbols bits sym.tokens.length) := by
  cases sym with
  | literal b =>
    rw [symbolBitsIn_literal] at hbits
    exact execAll_cons_of_next (exec_literal_emits h (byteToken_le b) hbits) []
  | endOfBlock =>
    rw [symbolBitsIn_endOfBlock] at hbits
    exact execAll_cons_of_next (exec_literal_emits h (by decide) hbits) []
  | lengthDistance lc le dc de =>
    obtain ⟨hlo, hhi⟩ := hsym
    exact (execAll_append_of_next (execAll_lcLeDc hlo hhi le dc (h.mono (Nat.le_succ 3))) [.tok de]).trans
      (execAll_cons_of_next (exec_commit_emits h hbits) [])

/-- The tokens of a symbol that has no bits end in an error (R137). -/
theorem endsInError_symbol {sym : SymbolToken} (hsym : sym.InRange) {s : State} (h : AtSymbol s sym.tokens.length)
    (hbits : symbolBitsIn s.tables sym = none) : EndsInError (sym.tokens.map .tok) s := by
  cases sym with
  | literal b =>
    rw [symbolBitsIn_literal] at hbits
    exact endsInError_literal h (byteToken_le b) hbits
  | endOfBlock =>
    rw [symbolBitsIn_endOfBlock] at hbits
    exact endsInError_literal h (by decide) hbits
  | lengthDistance lc le dc de =>
    obtain ⟨hlo, hhi⟩ := hsym
    exact endsInError_append_of_next (execAll_lcLeDc hlo hhi le dc (h.mono (Nat.le_succ 3))) (endsInError_commit h hbits)

/-! ### The whole list -/

theorem flatBitsIn_nil (t : Tables) : flatBitsIn t [] = some [] := rfl

/-- The bits of a list that starts with a symbol: the symbol's, then the rest's (R137). -/
theorem flatBitsIn_symbol_append (t : Tables) {sym : SymbolToken} (hsym : sym.InRange) (rest : List Token) :
    flatBitsIn t (sym.tokens ++ rest) =
      (symbolBitsIn t sym).bind fun bits => (flatBitsIn t rest).map (bits ++ ·) := by
  rw [flatBitsIn, flatBitsIn, parseTokens_symbol_append hsym]
  cases hp : parseTokens rest with
  | none => cases symbolBitsIn t sym <;> rfl
  | some syms =>
    simp only [Option.map_some, List.map_cons, concatBits]
    cases symbolBitsIn t sym <;> cases concatBits (syms.map (symbolBitsIn t)) <;> rfl

theorem flatBitsIn_of_parse_none (t : Tables) {toks : List Token} (h : parseTokens toks = none) :
    flatBitsIn t toks = none := by
  rw [flatBitsIn, h]

/-- A list that has bits runs without an error and emits them (R137). -/
theorem execAll_tokens_emits {toks : List Token} {s : State} {bits : List Bool} (h : AtSymbol s toks.length)
    (hbits : flatBitsIn s.tables toks = some bits) :
    execAll (toks.map .tok) s = .next (s.afterSymbols bits toks.length) := by
  induction toks using tokens_induction generalizing s bits with
  | nil =>
    obtain rfl : [] = bits := by simpa [flatBitsIn_nil] using hbits
    simp [execAll]
  | symbol sym rest hsym ih =>
    rw [List.length_append] at h
    rw [flatBitsIn_symbol_append _ hsym, Option.bind_eq_some_iff] at hbits
    obtain ⟨first, hfirst, hrest⟩ := hbits
    obtain ⟨tail, htail, rfl⟩ := Option.map_eq_some_iff.mp hrest
    rw [List.map_append, execAll_append_of_next (execAll_symbol_emits hsym (h.mono (by omega)) hfirst),
      ih (h.afterSymbols first) htail, afterSymbols_afterSymbols, List.length_append]
  | outOfRange v rest hv => simp [flatBitsIn_of_parse_none _ (parseTokens_outOfRange hv rest)] at hbits
  | shortGroup v rest hlo hhi hshort =>
    simp [flatBitsIn_of_parse_none _ (parseTokens_shortGroup hlo hhi hshort)] at hbits

/-- A list that has no bits ends in an error, at the latest at the command that ends the block (R137, R138). -/
theorem endsInError_tokens {i : Instr} (hi : i.command ≠ .tok) {toks : List Token} {s : State}
    (h : AtSymbol s toks.length) (hbits : flatBitsIn s.tables toks = none) :
    EndsInError (toks.map .tok ++ [i]) s := by
  induction toks using tokens_induction generalizing s with
  | nil => simp [flatBitsIn_nil] at hbits
  | symbol sym rest hsym ih =>
    rw [List.length_append] at h
    rw [List.map_append, List.append_assoc]
    rw [flatBitsIn_symbol_append _ hsym] at hbits
    have hfirst : AtSymbol s sym.tokens.length := h.mono (by omega)
    cases hb : symbolBitsIn s.tables sym with
    | none => exact endsInError_append (endsInError_symbol hsym hfirst hb) _
    | some first =>
      rw [hb, Option.bind_some, Option.map_eq_none_iff] at hbits
      exact endsInError_append_of_next (execAll_symbol_emits hsym hfirst hb) (ih (h.afterSymbols first) hbits)
  | outOfRange v rest hv =>
    exact endsInError_cons_of_raise (exec_tok_outOfRange h.err h.group (.inr h.phase) hv) _
  | shortGroup v rest hlo hhi hshort => exact endsInError_shortGroup hlo hhi hi hshort h

/-! ### The command that ends the block -/

/-- A command that completes on a buffer that meets the invariant appends its bits. -/
theorem exec_bits {i : Instr} {s t : State} (hb : s.buf.Inv) (h : exec i s = .next t) (ht : t.err = none) :
    t.buf.bits = s.buf.bits ++ commandBits i s := by
  rw [exec_buf_of_noError h ht, pushBits_bits hb]

/-- A list that has bits and the command that ends the block append the bits of both (R137). -/
theorem execAll_tokens_append {i : Instr} {toks : List Token} {s t : State} {bits : List Bool} (hb : s.buf.Inv)
    (h : AtSymbol s toks.length) (hbits : flatBitsIn s.tables toks = some bits)
    (ht : exec i (s.afterSymbols bits toks.length) = .next t) (he : t.err = none) :
    execAll (toks.map .tok ++ [i]) s = .next t ∧
      t.buf.bits = s.buf.bits ++ bits ++ commandBits i (s.afterSymbols bits toks.length) := by
  constructor
  · rw [execAll_append_of_next (execAll_tokens_emits h hbits), execAll_cons_of_next ht, execAll]
  · rw [exec_bits (pushed_inv (pushed_pushBits s.buf bits) hb) ht he, afterSymbols_buf, pushBits_bits hb]

/-- FINISH completes between two symbols (40_bitbuffer.md R96). -/
theorem exec_finish_atSymbol {s : State} (h : AtSymbol s 1) :
    exec .finish s = .next { s with buf := s.buf.align, phase := .done, pc := s.pc + 1 } :=
  runCommand_completes h.err (commonFault_none_of_legal h.group (by simp [h.phase]) (by simp [legal, h.phase])) h.ne_lastPc

/-- Every block type but the reserved one opens a block (46_stream_assembler.md R180). -/
theorem openedPhase_of_ne_reserved {btype : BitVec 2} (h : btype ≠ 3#2) : ∃ p, openedPhase btype = some p := by
  have hsome : ∀ b : BitVec 2, b ≠ 3#2 → (openedPhase b).isSome = true := by decide
  exact Option.isSome_iff_exists.mp (hsome btype h)

/-- The padding depends on the position within a byte only (20_memory.md R49). -/
theorem padBits_bitCount (b : BitBuffer) : padBits b.bitCount = padBits b.nbits.toNat := by
  rw [← bitCount_mod, padBits, padBits, Nat.mod_mod]

end Sys2Proof.Machine
end

section
/-!
PROOFS. The obligations of the packed-symbol writer, settled.
-/
namespace Sys2Proof.Proofs

open Sys2Proof Sys2Proof.Machine

/-- Settles O52: by induction over the list's symbols, each of which runs to its bits or to an error; a list that does not
parse has a head that raises an error, or ends in a group on which the last command does. -/
theorem symbolStreamMatchesParse : Obligations.SymbolStreamMatchesParse := by
  intro toks bfinal btype s hi he hph hg hbt hroom
  have hat : AtSymbol s (toks.length + 1) := ⟨he, hph, hg, hroom⟩
  have htoks : AtSymbol s toks.length := hat.mono (by omega)
  split
  · next bits hbits =>
    have hend : AtSymbol (s.afterSymbols bits toks.length) 1 := hat.afterSymbols bits
    obtain ⟨p, hp⟩ := openedPhase_of_ne_reserved hbt
    have hfinish := exec_finish_atSymbol hend
    have hblk := exec_blkHdr_completes bfinal hp hend.err hend.group (.inr (.inr (.inr hend.phase))) hend.ne_lastPc
    obtain ⟨hrun, hout⟩ := execAll_tokens_append hi.buf htoks hbits hfinish hend.err
    obtain ⟨hrun', hout'⟩ := execAll_tokens_append hi.buf htoks hbits hblk hend.err
    refine ⟨⟨_, hrun, hend.err, rfl, ?_⟩, _, hrun', hend.err, hout'⟩
    rw [hout, commandBits, afterSymbols_buf, ← padBits_bitCount, pushBits_bitCount]
  · next hbits =>
    exact ⟨endsInError_tokens (by simp [Instr.command]) htoks hbits,
      endsInError_tokens (by simp [Instr.command]) htoks hbits⟩

/-- Settles O39: the three answers of `check_code` on the token. -/
theorem literalTokenResult : Obligations.LiteralTokenResult := by
  intro v s he hg hph hv
  refine ⟨fun hl => ?_, fun e hl => ⟨fun hw => ?_, fun hlo hhi hp => ?_⟩⟩
  · exact exec_tok_raises he hph (tokBody_of_literal_error hg hv (checkCode_of_absent hl))
  · exact exec_tok_raises he hph (tokBody_of_literal_error hg hv (checkCode_of_badWidth hl hw))
  · exact exec_tok_completes he hph (tokBody_of_literal hg hv (checkCode_of_width hl ⟨hlo, hhi⟩)) hp

/-- Settles O43: each clause passes the checks before it and ends at its own; a field of count 0 appends nothing. -/
theorem groupCommitResult : Obligations.GroupCommitResult := by
  intro lc le dc de s he hph hg
  have hraise : ∀ {k}, tokCommit lc le dc de s = .error k → exec (.tok de) s = .next (raise k s) := fun h =>
    exec_tok_raises he (.inr hph) ((tokBody_of_group hg).trans h)
  refine ⟨fun hl => ?_, fun l hl => ⟨fun hw => ?_, fun hlo hhi => ?_⟩⟩
  · exact hraise (tokCommit_lengthCode_error le dc de (checkCode_of_absent hl))
  · exact hraise (tokCommit_lengthCode_error le dc de (checkCode_of_badWidth hl hw))
  · have hl := checkCode_of_width hl ⟨hlo, hhi⟩
    refine ⟨fun hdc => ?_, fun hdc hd => ?_, fun d hdc hd => ⟨fun hw => ?_, fun _ _ hdlo hdhi hp => ?_⟩⟩
    · exact hraise (tokCommit_distance_outOfRange le de hl hdc)
    · exact hraise (tokCommit_distanceCode_error le de hl hdc (checkCode_of_absent hd))
    · exact hraise (tokCommit_distanceCode_error le de hl hdc (checkCode_of_badWidth hd hw))
    · have hb := (tokBody_of_group hg).trans (tokCommit_emits le de hl hdc (checkCode_of_width hd ⟨hdlo, hdhi⟩))
      rw [exec_tok_completes he (.inr hph) hb hp, BitBuffer.putGroup, putExtra_eq_putLsb, putExtra_eq_putLsb]
      rfl

/-- Settles O53: `parse` takes the tokens of one symbol at a time, and TOK is injective. -/
theorem parseAndPseudoInstructionsAreInverse : Obligations.ParseAndPseudoInstructionsAreInverse := by
  constructor
  · intro toks syms h
    rw [flatMap_commands, tokens_of_parseTokens h]
  · intro toks syms h hrange
    rw [flatMap_commands] at h
    rw [← map_tok_injective h]
    exact parseTokens_tokens (inRange_of_lengthCodes hrange)

/-- Settles O40: the value is tested before any lookup. -/
theorem headTokenOutOfRangeIsMalformed : Obligations.HeadTokenOutOfRangeIsMalformed := by
  intro v s he hg hph hv
  exact exec_tok_outOfRange he hg hph hv

/-- Settles O41: a length code is latched, and its lookup is left to the commit. -/
theorem lengthCodeOpensGroup : Obligations.LengthCodeOpensGroup := by
  intro v s he hg hph hlo hhi hp
  exact exec_tok_opensGroup he hg hph hlo hhi hp

/-- Settles O42: with one or two tokens latched TOK has no check of its own. -/
theorem groupTokensAreLatched : Obligations.GroupTokensAreLatched := by
  intro v s he hph hp
  exact ⟨fun _ hg => exec_tok_latchesExtra he hph hg hp, fun _ _ hg => exec_tok_latchesDistance he hph hg hp⟩

end Sys2Proof.Proofs
end

section
/-!
PROOFS. The dynamic-block preamble: the lengths in transmission order, and how DYN_HDR and CLSYM complete and which errors they
raise (44_dynamic_preamble.md R150 to R152).
-/
namespace Sys2Proof.Machine

/-! ### The lengths in transmission order (R150) -/

/-- The lengths of symbols that all have one, position by position. -/
theorem gatherLens_of_lookup {t : Table (BitVec 3)} {syms : List Nat} {l : Nat → BitVec 3}
    (h : ∀ k sym, syms[k]? = some sym → t.lookup sym = some (l k)) :
    gatherLens t syms = some ((List.range syms.length).map l) := by
  induction syms generalizing l with
  | nil => rfl
  | cons x xs ih =>
    have hx : t.lookup x = some (l 0) := h 0 x rfl
    have hxs := ih (l := fun k => l (k + 1)) fun k sym hk => h (k + 1) sym hk
    simp [gatherLens, hx, hxs, List.range_succ_eq_map, Function.comp_def]

/-- One symbol without a length is enough for there to be no list of lengths. -/
theorem gatherLens_of_absent {t : Table (BitVec 3)} {syms : List Nat} {sym : Nat} (hmem : sym ∈ syms)
    (h : t.lookup sym = none) : gatherLens t syms = none := by
  induction syms with
  | nil => simp at hmem
  | cons x xs ih =>
    rcases List.mem_cons.mp hmem with rfl | hmem
    · simp [gatherLens, h]
    · simp [gatherLens, ih hmem]

/-- Any `hclen` asks for as many lengths as it says: there are 19 in `CL_ORDER` (R150, 10_state.md R30). -/
theorem length_take_clOrder (hclen : BitVec 4) : (clOrder.take (hclen.toNat + 4)).length = hclen.toNat + 4 := by
  have hlen : clOrder.length = 19 := rfl
  rw [List.length_take, hlen]
  omega

theorem putLens_eq_foldl (lens : List (BitVec 3)) (b : BitBuffer) :
    b.putLens lens = lens.foldl (fun c l => c.putLsb l.toNat 3) b := by
  induction lens generalizing b with
  | nil => rfl
  | cons l ls ih => exact ih (b.putLsb l.toNat 3)

/-! ### DYN_HDR

In this part and the next the new buffer is generalized before the states are compared, so that no append is unfolded. -/

/-- The common checks of DYN_HDR pass in DYN_WAIT (46_stream_assembler.md R184). -/
theorem commonFault_dynHdr {s : State} (hg : s.group = .empty) (hph : s.phase = .dynWait) : commonFault .dynHdr s = none :=
  commonFault_none_of_legal hg (by simp [hph]) (by simp [legal, hph])

/-- DYN_HDR completes when the lengths it asks for are there (R150). -/
theorem exec_dynHdr_completes (hlit hdist : BitVec 5) {hclen : BitVec 4} {s : State} {lens : List (BitVec 3)}
    (he : s.err = none) (hg : s.group = .empty) (hph : s.phase = .dynWait)
    (hl : gatherLens s.tables.cllen (clOrder.take (hclen.toNat + 4)) = some lens) (hp : s.pc ≠ lastPc) :
    exec (.dynHdr hlit hdist hclen) s = .next { s with
      buf := (s.buf.putCounts hlit hdist hclen).putLens lens, phase := .dynCl, pc := s.pc + 1 } := by
  rw [exec, execDynHdr, hl]
  dsimp only
  generalize (s.buf.putCounts hlit hdist hclen).putLens lens = b
  exact runCommand_completes he (commonFault_dynHdr hg hph) hp

/-- DYN_HDR raises MalformedField when a length it asks for is missing (R150). -/
theorem exec_dynHdr_raises (hlit hdist : BitVec 5) {hclen : BitVec 4} {s : State} (he : s.err = none)
    (hg : s.group = .empty) (hph : s.phase = .dynWait)
    (hl : gatherLens s.tables.cllen (clOrder.take (hclen.toNat + 4)) = none) :
    exec (.dynHdr hlit hdist hclen) s = .next (raise .malformedField s) := by
  rw [exec, execDynHdr, hl]
  exact runCommand_own he (commonFault_dynHdr hg hph)

/-! ### CLSYM -/

/-- The common checks of CLSYM pass in DYN_CL (46_stream_assembler.md R184). -/
theorem commonFault_clsym {s : State} (hg : s.group = .empty) (hph : s.phase = .dynCl) : commonFault .clsym s = none :=
  commonFault_none_of_legal hg (by simp [hph]) (by simp [legal, hph])

section
variable {sym : BitVec 5} (extra : BitVec 7) {s : State} (he : s.err = none) (hg : s.group = .empty)
  (hph : s.phase = .dynCl)
include he hg hph

/-- CLSYM tests the symbol before any lookup (R152). -/
theorem exec_clsym_outOfRange (hsym : 18 < sym.toNat) : exec (.clsym sym extra) s = .next (raise .malformedField s) := by
  rw [exec, execClsym, if_pos hsym]
  exact runCommand_own he (commonFault_clsym hg hph)

/-- CLSYM raises what `check_code` raises (R152, 41_huffman_table.md R113). -/
theorem exec_clsym_raises {k : ErrKind} (hsym : sym.toNat ≤ 18) (hk : checkCode s.tables.cl sym.toNat = .error k) :
    exec (.clsym sym extra) s = .next (raise k s) := by
  rw [exec, execClsym, if_neg hsym.not_gt, hk]
  exact runCommand_own he (commonFault_clsym hg hph)

/-- CLSYM writes the code and `CLX[sym]` extra bits (R152). -/
theorem exec_clsym_completes {e : Entry} (hsym : sym.toNat ≤ 18) (hc : checkCode s.tables.cl sym.toNat = .ok e)
    (hp : s.pc ≠ lastPc) :
    exec (.clsym sym extra) s = .next { s with
      buf := (s.buf.putMsb e.code.toNat e.len.toNat).putLsb extra.toNat (clx sym.toNat), pc := s.pc + 1 } := by
  rw [exec, execClsym, if_neg hsym.not_gt, hc, ← putExtra_eq_putLsb, ← BitBuffer.putCode]
  dsimp only
  generalize (s.buf.putCode e).putExtra extra.toNat (clx sym.toNat) = b
  exact runCommand_completes he (commonFault_clsym hg hph) hp

end

/-- A symbol up to 15 is a length of its own and has no extra bits (10_state.md R31). -/
theorem clx_of_le {sym : Nat} (h : sym ≤ 15) : clx sym = 0 := by
  simp [clx, show sym ≠ 16 by omega, show sym ≠ 17 by omega, show sym ≠ 18 by omega]

end Sys2Proof.Machine
end

section
/-!
PROOFS. The obligations of the dynamic preamble, settled.
-/
namespace Sys2Proof.Proofs

open Sys2Proof Sys2Proof.Machine

/-- Settles O37: the lengths are gathered position by position, and one that is missing is an error. -/
theorem dynamicHeaderResult : Obligations.DynamicHeaderResult := by
  intro hlit hdist hclen s he hg hph
  refine ⟨fun l hl hp => ?_, fun ⟨k, sym, hk, hsym, habsent⟩ => ?_⟩
  · have hsent : ∀ k sym, (clOrder.take (hclen.toNat + 4))[k]? = some sym → s.tables.cllen.lookup sym = some (l k) := by
      intro k sym hk
      rw [List.getElem?_take, Option.ite_none_right_eq_some] at hk
      exact hl k sym hk.1 hk.2
    have hlens := gatherLens_of_lookup hsent
    rw [length_take_clOrder] at hlens
    rw [exec_dynHdr_completes hlit hdist he hg hph hlens hp, putLens_eq_foldl, List.foldl_map, BitBuffer.putCounts]
  · have hmem : sym ∈ clOrder.take (hclen.toNat + 4) :=
      List.mem_of_getElem? ((List.getElem?_take_of_lt hk).trans hsym)
    exact exec_dynHdr_raises hlit hdist he hg hph (gatherLens_of_absent hmem habsent)

/-- Settles O38: the bound, the two checks of `check_code`, and the counts of `CLX`. -/
theorem codeLengthSymbolResult : Obligations.CodeLengthSymbolResult := by
  intro sym extra s he hg hph
  refine ⟨exec_clsym_outOfRange extra he hg hph, fun hsym hl => ?_, fun e hsym hl => ⟨fun hw => ?_, fun hlo hhi hp => ?_⟩⟩
  · exact exec_clsym_raises extra he hg hph hsym (checkCode_of_absent hl)
  · exact exec_clsym_raises extra he hg hph hsym (checkCode_of_badWidth hl hw)
  · rw [exec_clsym_completes extra he hg hph hsym (checkCode_of_width hl ⟨hlo, hhi⟩) hp]
    refine ⟨fun h => ?_, fun h => ?_, fun h => ?_, fun h => ?_⟩
    · rw [clx_of_le h, BitBuffer.putLsb]
    all_goals rw [h]; rfl

end Sys2Proof.Proofs
end

section
/-!
PROOFS. PUT_LSB commands in order append their fields one after the other, and the five fields of ZHDR are the bits of two
bytes (40_bitbuffer.md R93, 45_zlib_envelope.md R170).
-/
namespace Sys2Proof.Machine

/-! ### Fields in order -/

/-- The commands that append the fields given as a width and a value each, in order (40_bitbuffer.md R93). -/
def fieldCommands (fields : List (BitVec 6 × BitVec 32)) : List Instr := fields.map fun f => .putLsb f.1 f.2

/-- The bits of those fields, each LSB-first in its own width. -/
def fieldBits (fields : List (BitVec 6 × BitVec 32)) : List Bool := fields.flatMap fun f => lsbBits f.2.toNat f.1.toNat

/-- PUT_LSB commands whose widths are all in 1..32 append their fields outside DONE, and count (40_bitbuffer.md R93). -/
theorem execAll_fieldCommands {fields : List (BitVec 6 × BitVec 32)}
    (hwidth : ∀ f ∈ fields, 1 ≤ f.1.toNat ∧ f.1.toNat ≤ 32) {s : State} (he : s.err = none) (hg : s.group = .empty)
    (hd : s.phase ≠ .done) (hroom : s.pc.toNat + fields.length < 2 ^ 64) :
    execAll (fieldCommands fields) s = .next { s with
      buf := s.buf.pushBits (fieldBits fields), pc := s.pc + BitVec.ofNat 64 fields.length } := by
  induction fields generalizing s with
  | nil => simp [fieldCommands, fieldBits, execAll]
  | cons f fs ih =>
    obtain ⟨⟨hlo, hhi⟩, hrest⟩ := List.forall_mem_cons.mp hwidth
    have hput : exec (.putLsb f.1 f.2) s = .next { s with buf := s.buf.putLsb f.2.toNat f.1.toNat, pc := s.pc + 1 } :=
      ((Proofs.putCommandsResult f.1 f.2 s he hg hd).1 hlo hhi (ne_lastPc_of_room hroom)).1
    have hfs := ih hrest (s := { s with buf := s.buf.putLsb f.2.toNat f.1.toNat, pc := s.pc + 1 }) he hg hd
      (room_after_command hroom)
    rw [fieldCommands, List.map_cons, execAll_cons_of_next hput]
    refine hfs.trans ?_
    simp [fieldBits, putLsb_eq_pushBits, BitVec.ofNat_add, BitVec.add_assoc, BitVec.add_comm 1#64]

/-! ### The two bytes -/

/-- A number made of `k` low bits and what stands above them has the bits of both, the low ones first. -/
theorem lsbBits_join (high low k l : Nat) :
    lsbBits (high * 2 ^ k + low % 2 ^ k) (k + l) = lsbBits low k ++ lsbBits high l := by
  have hlow : lsbBits (high * 2 ^ k + low % 2 ^ k) k = lsbBits low k := by
    rw [← lsbBits_mod, Nat.mul_add_mod_self_right, Nat.mod_mod, lsbBits_mod]
  have hhigh : (high * 2 ^ k + low % 2 ^ k) >>> k = high := by
    rw [Nat.shiftRight_eq_div_pow, Nat.mul_comm, Nat.mul_add_div (Nat.two_pow_pos k),
      Nat.div_eq_of_lt (Nat.mod_lt _ (Nat.two_pow_pos k)), Nat.add_zero]
  rw [lsbBits_add, hlow, hhigh]

/-- The method byte and the flags byte of a zlib header, each value taken modulo its width (45_zlib_envelope.md R170). -/
def zlibHeaderBytes (cm cinfo fcheck fdict flevel : BitVec 32) : List Byte :=
  [BitVec.ofNat 8 (cinfo.toNat % 16 * 16 + cm.toNat % 16),
   BitVec.ofNat 8 (flevel.toNat % 4 * 64 + fdict.toNat % 2 * 32 + fcheck.toNat % 32)]

/-- The five fields of ZHDR, in their order (45_zlib_envelope.md R170). -/
def zlibHeaderFields (cm cinfo fcheck fdict flevel : BitVec 32) : List (BitVec 6 × BitVec 32) :=
  [(4, cm), (4, cinfo), (5, fcheck), (1, fdict), (2, flevel)]

theorem pseudoZhdr_eq_fieldCommands (cm cinfo fcheck fdict flevel : BitVec 32) :
    pseudoZhdr cm cinfo fcheck fdict flevel = fieldCommands (zlibHeaderFields cm cinfo fcheck fdict flevel) := rfl

theorem zlibHeaderFields_width (cm cinfo fcheck fdict flevel : BitVec 32) :
    ∀ f ∈ zlibHeaderFields cm cinfo fcheck fdict flevel, 1 ≤ f.1.toNat ∧ f.1.toNat ≤ 32 := by
  simp [zlibHeaderFields]

/-- The first two fields are the bits of the method byte, the other three those of the flags byte (30_encoding.md R67). -/
theorem fieldBits_zlibHeaderFields (cm cinfo fcheck fdict flevel : BitVec 32) :
    fieldBits (zlibHeaderFields cm cinfo fcheck fdict flevel) =
      bytesBits (zlibHeaderBytes cm cinfo fcheck fdict flevel) := by
  have hmethod : lsbBits (cinfo.toNat % 16 * 16 + cm.toNat % 16) 8 = lsbBits cm.toNat 4 ++ lsbBits cinfo.toNat 4 :=
    (lsbBits_join _ _ 4 4).trans (congrArg _ (lsbBits_mod _ 4))
  have hflags : lsbBits (flevel.toNat % 4 * 64 + fdict.toNat % 2 * 32 + fcheck.toNat % 32) 8 =
      lsbBits fcheck.toNat 5 ++ (lsbBits fdict.toNat 1 ++ lsbBits flevel.toNat 2) := by
    have hsplit : flevel.toNat % 4 * 64 + fdict.toNat % 2 * 32 = (flevel.toNat % 4 * 2 + fdict.toNat % 2) * 32 := by
      omega
    have htail : lsbBits (flevel.toNat % 4 * 2 + fdict.toNat % 2) 3 = lsbBits fdict.toNat 1 ++ lsbBits flevel.toNat 2 :=
      (lsbBits_join _ _ 1 2).trans (congrArg _ (lsbBits_mod _ 2))
    rw [hsplit, ← htail]
    exact lsbBits_join _ _ 5 3
  rw [zlibHeaderBytes, bytesBits_cons, bytesBits_singleton, byteBits_ofNat, byteBits_ofNat, hmethod, hflags]
  simp [fieldBits, zlibHeaderFields]

/-- ZHDR on an aligned buffer outside DONE appends the two header bytes and nothing else (45_zlib_envelope.md R170). -/
theorem execAll_pseudoZhdr (cm cinfo fcheck fdict flevel : BitVec 32) {s : State} {out : List Byte} (he : s.err = none)
    (hg : s.group = .empty) (hd : s.phase ≠ .done) (hb : s.buf = { out := out, acc := 0, nbits := 0 })
    (hroom : s.pc.toNat + 5 < 2 ^ 64) :
    execAll (pseudoZhdr cm cinfo fcheck fdict flevel) s = .next { s with
      buf := { out := out ++ zlibHeaderBytes cm cinfo fcheck fdict flevel, acc := 0, nbits := 0 }
      pc := s.pc + 5 } := by
  rw [pseudoZhdr_eq_fieldCommands,
    execAll_fieldCommands (zlibHeaderFields_width cm cinfo fcheck fdict flevel) he hg hd hroom, hb,
    fieldBits_zlibHeaderFields, pushBits_bytesBits]
  rfl

end Sys2Proof.Machine
end

section
/-!
PROOFS. The obligations of the zlib envelope, settled.
-/
namespace Sys2Proof.Proofs

open Sys2Proof Sys2Proof.Machine

/-- Settles O55: reset leaves an aligned, empty buffer in IDLE, on which the five fields of ZHDR are two whole bytes. -/
theorem zlibHeaderIsTwoBytes : Obligations.ZlibHeaderIsTwoBytes := by
  intro cm cinfo fcheck fdict flevel
  exact execAll_pseudoZhdr cm cinfo fcheck fdict flevel (s := State.reset) (out := []) rfl rfl (by decide) rfl (by decide)

end Sys2Proof.Proofs
end

section
/-!
PROOFS. Stream bits packed into bytes, and the words of a command sequence run one by one as the commands in order
(30_encoding.md R68, R70, 20_memory.md R53).
-/
namespace Sys2Proof.Machine

/-! ### Packed bits -/

/-- The number that a list of bits writes has those bits, and zeros above them. -/
theorem lsbBits_bitsToNat (bits : List Bool) (k : Nat) :
    lsbBits (bitsToNat bits) (bits.length + k) = bits ++ List.replicate k false := by
  induction bits with
  | nil => simp [lsbBits, bitsToNat, List.eq_replicate_iff]
  | cons bit bits ih =>
    have hlow : (bitsToNat (bit :: bits)).testBit 0 = bit := by cases bit <;> simp [bitsToNat]
    have hhigh : bitsToNat (bit :: bits) >>> 1 = bitsToNat bits := by
      have hbit := bit.toNat_lt
      rw [bitsToNat, Nat.shiftRight_one]
      omega
    rw [List.length_cons, show bits.length + 1 + k = 1 + (bits.length + k) by omega, lsbBits_add, hhigh, ih]
    simp [lsbBits, hlow]

/-- The byte of at most eight bits is those bits and zeros above them (R68). -/
theorem byteBits_bitsToNat {bits : List Bool} (h : bits.length ≤ 8) :
    byteBits (BitVec.ofNat 8 (bitsToNat bits)) = bits ++ List.replicate (8 - bits.length) false := by
  rw [byteBits_ofNat, ← lsbBits_bitsToNat, Nat.add_sub_cancel' h]

/-- The packed bytes hold the bits and then the padding (R68). -/
theorem bytesBits_packBytes (bits : List Bool) : bytesBits (packBytes bits) = bits ++ padBits bits.length := by
  induction bits using packBytes.induct with
  | case1 b0 b1 b2 b3 b4 b5 b6 b7 rest ih =>
    have hpad : padBits (rest.length + 8) = padBits rest.length := by simp [padBits]
    rw [packBytes, bytesBits_cons, ih, byteBits_bitsToNat (by simp)]
    simp [hpad]
  | case2 => rfl
  | case3 bits hlong hne =>
    have hpos : 0 < bits.length := List.length_pos_iff.mpr hne
    have hlt : bits.length < 8 := by
      by_contra hge
      match bits, hlong with
      | b0 :: b1 :: b2 :: b3 :: b4 :: b5 :: b6 :: b7 :: rest, hlong => exact hlong _ _ _ _ _ _ _ _ _ rfl
      | [], _ | [_], _ | [_, _], _ | [_, _, _], _ | [_, _, _, _], _ | [_, _, _, _, _], _ | [_, _, _, _, _, _], _
      | [_, _, _, _, _, _, _], _ => simp at hge
    rw [packBytes.eq_3 bits hlong hne, bytesBits_singleton, byteBits_bitsToNat hlt.le, padBits, Nat.mod_eq_of_lt hlt,
      Nat.mod_eq_of_lt (by omega)]

/-! ### The words still to come -/

theorem setInput_setBuf (s : State) (ws : List Word) (b : BitBuffer) :
    (s.setInput ws).setBuf b = (s.setBuf b).setInput ws := rfl
theorem setInput_setPhase (s : State) (ws : List Word) (p : Phase) :
    (s.setInput ws).setPhase p = (s.setPhase p).setInput ws := rfl
theorem setInput_setTables (s : State) (ws : List Word) (t : Tables) :
    (s.setInput ws).setTables t = (s.setTables t).setInput ws := rfl

/-- What a command does is the same whatever words wait behind it (10_state.md R32). -/
theorem runCommand_setInput {c : Command} {body : Except ErrKind State} {s t : State} (h : runCommand c body s = .next t)
    (ws : List Word) :
    runCommand c (body.map (State.setInput · ws)) (s.setInput ws) = .next (t.setInput ws) := by
  rcases runCommand_next_cases h with ⟨he, rfl⟩ | ⟨he, k, rfl, hk | ⟨hk, rfl⟩⟩ | ⟨he, hk, u, rfl, hp, rfl⟩
  · exact runCommand_discard (s := t.setInput ws) he
  · exact runCommand_common (s := s.setInput ws) he hk
  · exact runCommand_own (s := s.setInput ws) he hk
  · exact runCommand_completes (s := s.setInput ws) (u := u.setInput ws) he hk hp

theorem tokBody_setInput (v : Token) (s : State) (ws : List Word) :
    tokBody v (s.setInput ws) = (tokBody v s).map (State.setInput · ws) := by
  cases hg : s.group with
  | empty =>
    simp only [tokBody, setInput_group, hg, tokHead, setInput_tables]
    split
    · split <;> rfl
    · split <;> rfl
  | lc l => simp only [tokBody, setInput_group, hg]; rfl
  | lcLe l e => simp only [tokBody, setInput_group, hg]; rfl
  | lcLeDc l e d =>
    simp only [tokBody, setInput_group, hg, tokCommit, setInput_tables]
    split
    · rfl
    · split
      · rfl
      · split <;> rfl

/-- The own part of a command looks at no word. -/
theorem exec_eq_runCommand_setInput (i : Instr) : ∃ body : State → Except ErrKind State,
    (∀ s, exec i s = runCommand i.command (body s) s) ∧
    ∀ s ws, body (s.setInput ws) = (body s).map (State.setInput · ws) := by
  cases i <;>
    simp only [exec, Instr.command, execPutLsb, execPutMsb, execAlign, execFinish, execTblLoadLL, execTblLoadD,
      execTblLoadCL, execCllSet, execBlkHdr, execStLen, execRaw, execDynHdr, execClsym, execTok] <;>
    refine ⟨_, fun s => rfl, fun s ws => ?_⟩
  case tok v => exact tokBody_setInput v s ws
  case putLsb | putMsb => rw [setInput_setBuf]; split <;> rfl
  case tblLoadLL | tblLoadD | tblLoadCL | cllSet => rw [setInput_setTables]; split <;> rfl
  case align | finish | stLen | raw => simp only [setInput_buf, setInput_setBuf, setInput_setPhase, Except.map]
  case blkHdr =>
    simp only [setInput_setBuf, setInput_setTables, setInput_setPhase, setInput_buf]
    split <;> rfl
  case dynHdr =>
    simp only [setInput_setBuf, setInput_setPhase, setInput_tables, setInput_buf]
    split <;> rfl
  case clsym =>
    simp only [setInput_setBuf, setInput_tables, setInput_buf]
    split
    · rfl
    · split <;> rfl

theorem exec_setInput {i : Instr} {s t : State} (h : exec i s = .next t) (ws : List Word) :
    exec i (s.setInput ws) = .next (t.setInput ws) := by
  obtain ⟨body, hrun, hinput⟩ := exec_eq_runCommand_setInput i
  rw [hrun] at h ⊢
  rw [hinput]
  exact runCommand_setInput h ws

/-- The encoding of a command runs the command, also where an error discards both (60_exceptions.md R201, R202). -/
theorem stepWord_encode (i : Instr) (s : State) : stepWord (encode i) s = exec i s := by
  by_cases he : s.err = none
  · simp [stepWord, he, decode_eq_ok_iff.mpr rfl]
  · obtain ⟨body, hb, -⟩ := exec_eq_runCommand i s
    rw [hb, runCommand_discard he]
    simp [stepWord, Option.isSome_iff_ne_none, he]

/-- The words of commands that are offered run as the commands in order (20_memory.md R53). -/
theorem runSteps_of_execAll {is : List Instr} {s t : State} (h : execAll is s = .next t) :
    runSteps is.length (s.setInput (is.map encode)) = .next (t.setInput []) := by
  induction is generalizing s with
  | nil =>
    obtain rfl := Host.Outcome.next.inj h
    rfl
  | cons i is ih =>
    cases hx : exec i s with
    | next u =>
      rw [execAll_cons_of_next hx] at h
      have hstep : step (s.setInput ((i :: is).map encode)) = .next (u.setInput (is.map encode)) :=
        (stepWord_encode i _).trans (exec_setInput hx _)
      rw [List.length_cons, runSteps, hstep]
      exact ih h
    | fault r => simp [execAll, hx] at h
    | refused r => simp [execAll, hx] at h

end Sys2Proof.Machine
end

section
/-!
PROOFS. Commands that emit given bits or end in an error: the triple in which the parts of a Stream are stated, how triples are
put together, and the triples of single commands (60_exceptions.md R201, 30_encoding.md R61 to R66).
-/
namespace Sys2Proof.Machine

/-! ### Triples -/

/-- From `s` the commands emit the bits and reach a state that meets the postcondition; where there are no bits they end in an
error, at the latest when the commands `after` follow. -/
def Emits (after is : List Instr) (s : State) (post : State → Prop) : Option (List Bool) → Prop
  | some bits => ∃ t, execAll is s = .next t ∧ t.buf = s.buf.pushBits bits ∧ post t
  | none => EndsInError (is ++ after) s

/-- The bits of a part and then those of what follows it, which may depend on them; none if one of the two has none. -/
def joinBits (first : Option (List Bool)) (rest : List Bool → Option (List Bool)) : Option (List Bool) :=
  first.bind fun bits => (rest bits).map (bits ++ ·)

@[simp] theorem joinBits_none (rest : List Bool → Option (List Bool)) : joinBits none rest = none := rfl
@[simp] theorem joinBits_some (bits : List Bool) (rest : List Bool → Option (List Bool)) :
    joinBits (some bits) rest = (rest bits).map (bits ++ ·) := rfl
@[simp] theorem joinBits_none_right (first : Option (List Bool)) : joinBits first (fun _ => none) = none := by
  cases first <;> rfl
@[simp] theorem joinBits_nil_right (first : Option (List Bool)) : joinBits first (fun _ => some []) = first := by
  cases first <;> simp

theorem joinBits_assoc (first second third : Option (List Bool)) :
    joinBits (joinBits first fun _ => second) (fun _ => third) = joinBits first fun _ => joinBits second fun _ => third := by
  cases first <;> cases second <;> cases third <;> simp

theorem concatBits_cons (part : Option (List Bool)) (parts : List (Option (List Bool))) :
    concatBits (part :: parts) = joinBits part fun _ => concatBits parts := by
  cases part with
  | none => rfl
  | some bits => cases h : concatBits parts <;> simp [concatBits, h]

theorem concatBits_singleton (part : Option (List Bool)) : concatBits [part] = part := by
  rw [concatBits_cons, concatBits, joinBits_nil_right]

theorem concatBits_append (xs ys : List (Option (List Bool))) :
    concatBits (xs ++ ys) = joinBits (concatBits xs) fun _ => concatBits ys := by
  induction xs with
  | nil => simp [concatBits]
  | cons x xs ih => rw [List.cons_append, concatBits_cons, concatBits_cons, ih, joinBits_assoc]

theorem concatBits_map_some {α : Type} (bits : α → List Bool) (l : List α) :
    concatBits (l.map fun a => some (bits a)) = some (l.flatMap bits) := by
  induction l with
  | nil => rfl
  | cons a as ih => rw [List.map_cons, concatBits_cons, ih, joinBits_some, Option.map_some, List.flatMap_cons]

/-- Commands that emit nothing. -/
theorem emits_nil (after : List Instr) {s : State} {post : State → Prop} (h : post s) : Emits after [] s post (some []) :=
  ⟨s, rfl, rfl, h⟩

/-- Two parts in order, when what the first needs after it for its error comes next. -/
theorem emits_append {pre is js after : List Instr} {s : State} {mid post : State → Prop} {first : Option (List Bool)}
    {rest : List Bool → Option (List Bool)} (hpre : pre <+: js ++ after) (hfirst : Emits pre is s mid first)
    (hrest : ∀ bits t, t.buf = s.buf.pushBits bits → mid t → Emits after js t post (rest bits)) :
    Emits after (is ++ js) s post (joinBits first rest) := by
  cases first with
  | none =>
    obtain ⟨tail, htail⟩ := hpre
    have herr : EndsInError (is ++ pre ++ tail) s := endsInError_append hfirst tail
    rwa [List.append_assoc, htail, ← List.append_assoc] at herr
  | some bits =>
    obtain ⟨t, hrun, hbuf, hmid⟩ := hfirst
    have hjs := hrest bits t hbuf hmid
    rw [joinBits_some]
    cases hbits : rest bits with
    | none =>
      rw [hbits] at hjs
      rw [Option.map_none, Emits, List.append_assoc]
      exact endsInError_append_of_next hrun hjs
    | some bits' =>
      rw [hbits] at hjs
      obtain ⟨u, hu, hubuf, hpost⟩ := hjs
      exact ⟨u, (execAll_append_of_next hrun js).trans hu, by rw [hubuf, hbuf, pushBits_append], hpost⟩

/-- Two parts in order, when the first ends in an error by itself if it has no bits. -/
theorem emits_append_nil {is js after : List Instr} {s : State} {mid post : State → Prop} {first rest : Option (List Bool)}
    (hfirst : Emits [] is s mid first) (hrest : ∀ t, mid t → Emits after js t post rest) :
    Emits after (is ++ js) s post (joinBits first fun _ => rest) :=
  emits_append List.nil_prefix hfirst fun _ t _ => hrest t

/-- Two parts in order, when the first has bits. -/
theorem emits_append_some {is js after : List Instr} {s : State} {mid post : State → Prop} {bits : List Bool}
    {rest : Option (List Bool)} (hfirst : Emits [] is s mid (some bits))
    (hrest : ∀ t, t.buf = s.buf.pushBits bits → mid t → Emits after js t post rest) :
    Emits after (is ++ js) s post (rest.map (bits ++ ·)) := by
  obtain ⟨t, hrun, hbuf, hmid⟩ := hfirst
  exact emits_append (mid := (· = t)) (first := some bits) (rest := fun _ => rest) List.nil_prefix ⟨t, hrun, hbuf, rfl⟩
    fun _ _ _ hu => hu ▸ hrest t hbuf hmid

/-- One command after the other for the elements of a list, each of which moves on the description `x` of the state and leaves
room for one command less. -/
theorem emits_map {α β : Type} {stand : β → Nat → State → Prop} {cmd : α → Instr} {move : β → α → β}
    {bits : α → Option (List Bool)}
    (hcmd : ∀ a x n s, stand x (n + 1) s → Emits [] [cmd a] s (stand (move x a) n) (bits a)) (l : List α) {x : β} {n : Nat}
    {s : State} (h : stand x (l.length + n) s) :
    Emits [] (l.map cmd) s (stand (l.foldl move x) n) (concatBits (l.map bits)) := by
  induction l generalizing x s with
  | nil => exact emits_nil [] (by simpa using h)
  | cons a as ih =>
    rw [List.map_cons, List.map_cons, concatBits_cons]
    refine emits_append_nil (is := [cmd a]) (hcmd a x (as.length + n) s ?_) fun t ht => ih ht
    rwa [List.length_cons, Nat.add_right_comm] at h

/-- A command that completes emits its bits. -/
theorem emits_of_exec {i : Instr} {s t : State} {post : State → Prop} (h : exec i s = .next t) (ht : t.err = none)
    (hpost : post t) : Emits [] [i] s post (some (commandBits i s)) :=
  ⟨t, execAll_cons_of_next h [], exec_buf_of_noError h ht, hpost⟩

/-- A command that raises an error has no bits. -/
theorem emits_of_raise {i : Instr} {s : State} {k : ErrKind} (post : State → Prop) (h : exec i s = .next (raise k s)) :
    Emits [] [i] s post none :=
  endsInError_cons_of_raise h []

theorem Emits.mono {after is : List Instr} {s : State} {post post' : State → Prop} {bits : Option (List Bool)}
    (h : Emits after is s post bits) (hpost : ∀ t, post t → post' t) : Emits after is s post' bits := by
  cases bits with
  | none => exact h
  | some bits =>
    obtain ⟨t, hrun, hbuf, ht⟩ := h
    exact ⟨t, hrun, hbuf, hpost t ht⟩

/-- Commands from a state with the same buffer whose first command does the same. -/
theorem Emits.of_exec_eq {after is : List Instr} {i : Instr} {s s' : State} {post : State → Prop} {bits : Option (List Bool)}
    (h : Emits after (i :: is) s' post bits) (hx : exec i s = exec i s') (hb : s'.buf = s.buf) :
    Emits after (i :: is) s post bits := by
  have hrun (js : List Instr) : execAll (i :: js) s = execAll (i :: js) s' := by rw [execAll, execAll, hx]
  cases bits with
  | none => rwa [Emits, EndsInError, List.cons_append, hrun]
  | some bits => rwa [Emits, hrun, ← hb]

/-- Commands the first of which raises an error have no bits, if the postcondition rules errors out. -/
theorem Emits.eq_none_of_raise {after is : List Instr} {i : Instr} {s : State} {k : ErrKind} {post : State → Prop}
    {bits : Option (List Bool)} (h : Emits after (i :: is) s post bits) (hx : exec i s = .next (raise k s))
    (hpost : ∀ t, post t → t.err = none) : bits = none := by
  cases bits with
  | none => rfl
  | some bits =>
    obtain ⟨t, hrun, -, ht⟩ := h
    rw [execAll_cons_of_next hx, execAll_of_err (by simp)] at hrun
    obtain rfl := Host.Outcome.next.inj hrun
    exact nomatch hpost _ ht

/-! ### Between two commands -/

/-- The unit stands in a phase with these tables, without an error or a pending group, and the counter has room for `n` more
commands. -/
structure Stands (p : Phase) (tables : Tables) (n : Nat) (s : State) : Prop where
  err : s.err = none
  phase : s.phase = p
  group : s.group = .empty
  tables : s.tables = tables
  room : s.pc.toNat + n < 2 ^ 64

theorem Stands.ne_lastPc {p : Phase} {tables : Tables} {n : Nat} {s : State} (h : Stands p tables (n + 1) s) :
    s.pc ≠ lastPc :=
  ne_lastPc_of_room h.room

theorem Stands.mono {p : Phase} {tables : Tables} {m n : Nat} {s : State} (h : Stands p tables n s) (hle : m ≤ n) :
    Stands p tables m s where
  err := h.err
  phase := h.phase
  group := h.group
  tables := h.tables
  room := by
    have hroom := h.room
    omega

/-- After a command that completes there is room for one less. -/
theorem Stands.next {p p' : Phase} {tables tables' : Tables} {n : Nat} {s : State} (h : Stands p tables (n + 1) s)
    (b : BitBuffer) :
    Stands p' tables' n { s with buf := b, phase := p', tables := tables', pc := s.pc + 1 } where
  err := h.err
  phase := rfl
  group := h.group
  tables := rfl
  room := room_after_command h.room

/-- The unit stands where a block may start or the stream may end (46_stream_assembler.md R184). -/
def AtBoundary (n : Nat) (s : State) : Prop :=
  ∃ p tables, (p = .idle ∨ p = .stData ∨ p = .dynCl ∨ p = .huff) ∧ Stands p tables n s

theorem AtBoundary.of_cons {i : Instr} {is : List Instr} {n : Nat} {s : State} (h : AtBoundary ((i :: is).length + n) s) :
    AtBoundary (is.length + n + 1) s := by
  rwa [List.length_cons, Nat.add_right_comm] at h

/-- The part of a list that is checked and emits nothing. -/
def checkBits (ok : Bool) : Option (List Bool) := if ok then some [] else none

theorem concatBits_map_checkBits {α : Type} (ok : α → Bool) (l : List α) :
    concatBits (l.map fun a => checkBits (ok a)) = checkBits (l.all ok) := by
  induction l with
  | nil => rfl
  | cons a as ih =>
    rw [List.map_cons, concatBits_cons, ih, List.all_cons]
    cases ok a <;> simp [checkBits]

/-! ### Single commands -/

/-- BLK_HDR opens a block (46_stream_assembler.md R180 to R182). -/
theorem emits_blkHdr (bfinal : BitVec 1) {btype : BitVec 2} {p : Phase} (hp : openedPhase btype = some p) {n : Nat}
    {s : State} (h : AtBoundary (n + 1) s) :
    Emits [] [.blkHdr bfinal btype] s (Stands p Tables.invalid n) (some (headerBits bfinal.toNat btype.toNat)) := by
  obtain ⟨q, tables, hq, hs⟩ := h
  obtain rfl := hs.phase
  exact emits_of_exec (exec_blkHdr_completes bfinal hp hs.err hs.group hq hs.ne_lastPc) hs.err (hs.next _)

/-- The stream has ended without an error (40_bitbuffer.md R96). -/
def Finished (s : State) : Prop := s.err = none ∧ s.phase = .done

/-- FINISH pads the stream and ends it (40_bitbuffer.md R96). -/
theorem emits_finish {s : State} (h : AtBoundary 1 s) :
    Emits [] [.finish] s Finished (some (padBits s.buf.bitCount)) := by
  obtain ⟨p, tables, hp, hs⟩ := h
  obtain rfl := hs.phase
  have hx : exec .finish s = .next { s with buf := s.buf.align, phase := .done, pc := s.pc + 1 } :=
    (Proofs.alignAndFinishResult s hs.err hs.group hs.ne_lastPc).2 hp
  rw [padBits_bitCount]
  exact emits_of_exec hx hs.err ⟨hs.err, rfl⟩

/-- A load checks its symbol and stores its entry (41_huffman_table.md R110, R111). -/
theorem emits_load {i : Instr} {c : Command} {bound sym : Nat} {p : Phase} {tables tables' : Tables} {ok : Bool} {n : Nat}
    {s : State} (h : Stands p tables (n + 1) s) (hc : commonFault c s = none) (hok : ok = true ↔ sym ≤ bound)
    (hx : exec i s = runCommand c (if bound < sym then .error .malformedField else .ok (s.setTables tables')) s) :
    Emits [] [i] s (Stands p tables' n) (checkBits ok) := by
  cases ok with
  | false =>
    have hlt : bound < sym := Nat.lt_of_not_le fun hle => Bool.false_ne_true (hok.mpr hle)
    exact emits_of_raise _ (hx.trans (runCommand_raises_of_lt h.err hc hlt))
  | true =>
    have hnext := hx.trans (runCommand_completes_of_le h.err hc (hok.mp rfl) h.ne_lastPc)
    obtain rfl := h.phase
    exact ⟨_, execAll_cons_of_next hnext [], rfl, h.next _⟩

end Sys2Proof.Machine
end

section
/-!
PROOFS. The tables that the loads of a block build, against Part A's per-block index (41_huffman_table.md R110 to R113).
-/
namespace Sys2Proof.Machine

/-! ### The tables of a block -/

/-- A code table after the loads of a list of entries, in order (41_huffman_table.md R110). -/
def loadAll (t : Table Entry) (entries : List HuffmanTableEntry) : Table Entry :=
  entries.foldl (fun t e => loadEntry t e.symbol e.code e.codeBitSize) t

/-- The lengths after CLL_SET for each of a list, in order (41_huffman_table.md R111). -/
def setAll (t : Table (BitVec 3)) (lengths : List (BitVec 5 × BitVec 3)) : Table (BitVec 3) :=
  lengths.foldl (fun t x => t.store x.1.toNat x.2) t

/-- The last element of a list one longer that has a property. -/
theorem getLast?_filter_concat {α : Type} (p : α → Bool) (l : List α) (a : α) :
    ((l ++ [a]).filter p).getLast? = if p a then some a else (l.filter p).getLast? := by
  cases h : p a <;> simp [h]

/-- A store per element, each under the element's own symbol: a symbol reads the last one stored. -/
theorem lookup_foldl_store {α β : Type} (sym : β → Nat) (entry : β → α) (l : List β) (x : Nat) :
    (l.foldl (fun t b => Table.store t (sym b) (entry b)) []).lookup x =
      ((l.filter fun b => sym b = x).getLast?).map entry := by
  induction l using List.reverseRecOn with
  | nil => rfl
  | append_singleton l b ih =>
    rw [List.foldl_append, getLast?_filter_concat]
    by_cases hb : sym b = x
    · simp [hb, lookup_store_same]
    · simp [hb, lookup_store_other _ _ (Ne.symm hb), ih]

/-- The lengths that CLL_SET leaves are Part A's (R111). -/
theorem lookup_setAll (lengths : List (BitVec 5 × BitVec 3)) (sym : Nat) :
    (setAll [] lengths).lookup sym = lengthOf lengths sym :=
  lookup_foldl_store (fun x : BitVec 5 × BitVec 3 => x.1.toNat) (fun x => x.2) lengths sym

/-- The entries that the loads leave usable are Part A's index (R110, R113). -/
theorem usable_loadAll (entries : List HuffmanTableEntry) (sym : Nat) :
    usable (loadAll [] entries) sym = indexed entries sym := by
  have hlookup : (loadAll [] entries).lookup sym = _ :=
    lookup_foldl_store (fun e : HuffmanTableEntry => e.symbol.toNat) (fun e => Entry.mk e.codeBitSize e.code) entries sym
  rw [usable, hlookup, indexed]
  cases (entries.filter fun e => e.symbol.toNat = sym).getLast? <;> rfl

/-! ### Loads -/

theorem flatMap_pseudoEntry (t : TableId) (entries : List HuffmanTableEntry) :
    entries.flatMap (pseudoEntry t) = entries.map fun e => tblLoad t e.symbol e.code e.codeBitSize :=
  List.map_eq_flatMap.symm

/-- The loads of one table, whose place among the four is `put` and whose greatest symbol is `bound`. -/
theorem emits_loads {t : TableId} {bound : Nat} (put : Table Entry → Tables)
    (hload : ∀ (e : HuffmanTableEntry) (table : Table Entry) (s : State), s.tables = put table →
      exec (tblLoad t e.symbol e.code e.codeBitSize) s = runCommand .tblLoad
        (if bound < e.symbol.toNat then .error .malformedField
         else .ok (s.setTables (put (loadEntry table e.symbol e.code e.codeBitSize)))) s)
    {p : Phase} (hp : p = .dynWait ∨ p = .dynCl ∨ p = .huff) (entries : List HuffmanTableEntry) {table : Table Entry}
    {n : Nat} {s : State} (h : Stands p (put table) (entries.length + n) s) :
    Emits [] (entries.flatMap (pseudoEntry t)) s (Stands p (put (loadAll table entries)) n)
      (checkBits (inRange entries (bound + 1))) := by
  rw [inRange, ← concatBits_map_checkBits, flatMap_pseudoEntry]
  refine emits_map (stand := fun table => Stands p (put table)) (fun e table n s hs => ?_) entries h
  exact emits_load hs (commonFault_tblLoad hs.group (hs.phase ▸ hp)) (by simp) (hload e table s hs.tables)

section
variable {p : Phase} (hp : p = .dynWait ∨ p = .dynCl ∨ p = .huff) {tables : Tables} {n : Nat} {s : State}
  (entries : List HuffmanTableEntry) (h : Stands p tables (entries.length + n) s)
include hp h

theorem emits_loadLL :
    Emits [] (entries.flatMap (pseudoEntry .ll)) s (Stands p { tables with ll := loadAll tables.ll entries } n)
      (checkBits (inRange entries 288)) :=
  emits_loads (fun t => { tables with ll := t }) (fun e t s hs => by rw [tblLoad, exec, execTblLoadLL, hs]) hp entries h

theorem emits_loadD :
    Emits [] (entries.flatMap (pseudoEntry .d)) s (Stands p { tables with d := loadAll tables.d entries } n)
      (checkBits (inRange entries 32)) :=
  emits_loads (fun t => { tables with d := t }) (fun e t s hs => by rw [tblLoad, exec, execTblLoadD, hs]) hp entries h

theorem emits_loadCL :
    Emits [] (entries.flatMap (pseudoEntry .cl)) s (Stands p { tables with cl := loadAll tables.cl entries } n)
      (checkBits (inRange entries 19)) :=
  emits_loads (fun t => { tables with cl := t }) (fun e t s hs => by rw [tblLoad, exec, execTblLoadCL, hs]) hp entries h

end

theorem emits_cllSets {tables : Tables} {n : Nat} {s : State} (lengths : List (BitVec 5 × BitVec 3))
    (h : Stands .dynWait tables (lengths.length + n) s) :
    Emits [] (lengths.map fun x => .cllSet x.1 x.2) s
      (Stands .dynWait { tables with cllen := setAll tables.cllen lengths } n)
      (checkBits (lengths.all fun x => decide (x.1.toNat ≤ 18))) := by
  rw [← concatBits_map_checkBits]
  refine emits_map (stand := fun t => Stands .dynWait { tables with cllen := t }) (fun x t n s hs => ?_) lengths h
  refine emits_load (bound := 18) (sym := x.1.toNat) hs (commonFault_cllSet hs.group hs.phase) (by simp) ?_
  rw [exec, execCllSet, hs.tables]

end Sys2Proof.Machine
end

section
/-!
PROOFS. The parts of a block after its loads: the preamble, the tokens, and the raw bytes of a stored block (42_stored_block.md
R120, R121, 43_huffman_symbols.md R137, 44_dynamic_preamble.md R150, R152).
-/
namespace Sys2Proof.Machine

/-! ### The preamble of a dynamic block -/

/-- DYN_HDR has bits iff every length it asks for was set (44_dynamic_preamble.md R150). -/
theorem emits_dynHdr (hlit hdist : BitVec 5) (hclen : BitVec 4) {tables : Tables} {n : Nat} {s : State}
    (h : Stands .dynWait tables (n + 1) s) :
    Emits [] [.dynHdr hlit hdist hclen] s (Stands .dynCl tables n)
      ((gatherLens tables.cllen (clOrder.take (hclen.toNat + 4))).map
        (preambleBits hlit.toNat hdist.toNat hclen.toNat)) := by
  obtain rfl := h.tables
  cases hl : gatherLens s.tables.cllen (clOrder.take (hclen.toNat + 4)) with
  | none => exact emits_of_raise _ (exec_dynHdr_raises hlit hdist h.err h.group h.phase hl)
  | some lens =>
    have hbits : commandBits (.dynHdr hlit hdist hclen) s = preambleBits hlit.toNat hdist.toNat hclen.toNat lens := by
      rw [commandBits, hl, Option.getD_some]
    rw [Option.map_some, ← hbits]
    exact emits_of_exec (exec_dynHdr_completes hlit hdist h.err h.group h.phase hl h.ne_lastPc) h.err (h.next _)

/-- The bits of one code-length entry under a code table; none if its checks fail (R152). -/
def clsymBits (t : Table Entry) (x : BitVec 5 × Option (BitVec 7)) : Option (List Bool) :=
  if x.1.toNat ≤ 18 then (usable t x.1.toNat).map fun e => clEntryBits e x.1.toNat (x.2.getD 0).toNat else none

/-- CLSYM has bits iff its checks pass (R152). -/
theorem emits_clsym (x : BitVec 5 × Option (BitVec 7)) {tables : Tables} {n : Nat} {s : State}
    (h : Stands .dynCl tables (n + 1) s) :
    Emits [] [.clsym x.1 (x.2.getD 0)] s (Stands .dynCl tables n) (clsymBits tables.cl x) := by
  obtain rfl := h.tables
  rw [clsymBits]
  split
  · next hsym =>
    rw [usable_eq_toOption]
    cases hc : checkCode s.tables.cl x.1.toNat with
    | error k => exact emits_of_raise _ (exec_clsym_raises _ h.err h.group h.phase hsym hc)
    | ok e =>
      have hbits : commandBits (.clsym x.1 (x.2.getD 0)) s = clEntryBits e x.1.toNat (x.2.getD 0).toNat := by
        rw [commandBits, lookupBits_of_checkCode hc, clEntryBits]
      rw [Except.toOption, Option.map_some, ← hbits]
      exact emits_of_exec (exec_clsym_completes _ h.err h.group h.phase hsym hc h.ne_lastPc) h.err
        (h.phase ▸ h.next _)
  · next hsym => exact emits_of_raise _ (exec_clsym_outOfRange _ h.err h.group h.phase (Nat.lt_of_not_le hsym))

theorem emits_clsyms (seq : List (BitVec 5 × Option (BitVec 7))) {tables : Tables} {n : Nat} {s : State}
    (h : Stands .dynCl tables (seq.length + n) s) :
    Emits [] (seq.map fun x => .clsym x.1 (x.2.getD 0)) s (Stands .dynCl tables n)
      (concatBits (seq.map (clsymBits tables.cl))) :=
  emits_map (stand := fun _ : Unit => Stands .dynCl tables) (move := fun _ _ => ()) (x := ())
    (fun x _ _ _ hs => emits_clsym x hs) seq h

/-! ### The tokens -/

/-- Between two symbols of a block with these tables. -/
theorem Stands.atSymbol {tables : Tables} {n : Nat} {s : State} (h : Stands .huff tables n s) : AtSymbol s n :=
  ⟨h.err, h.phase, h.group, h.room⟩

/-- A flat token list in HUFF emits its bits, or ends in an error at the latest at the command that ends the block
(43_huffman_symbols.md R137, R138). -/
theorem emits_tokens {i : Instr} (hi : i.command ≠ .tok) (toks : List Token) {tables : Tables} {n : Nat} {s : State}
    (h : Stands .huff tables (toks.length + n) s) :
    Emits [i] (toks.map .tok) s (Stands .huff tables n) (flatBitsIn tables toks) := by
  obtain rfl := h.tables
  have hat : AtSymbol s toks.length := h.atSymbol.mono (by omega)
  cases hbits : flatBitsIn s.tables toks with
  | none => exact endsInError_tokens hi hat hbits
  | some bits =>
    exact ⟨_, execAll_tokens_emits hat hbits, rfl, h.err, h.phase, h.group, rfl, room_after_commands h.room⟩

/-- The own part of a head token does not depend on the phase, which it sets (R131 to R133). -/
theorem tokBody_setPhase_huff (v : Token) {s : State} (hg : s.group = .empty) :
    tokBody v (s.setPhase .huff) = tokBody v s := by
  simp only [tokBody, setPhase_group, hg, tokHead, setPhase_tables]
  split
  · split <;> rfl
  · split <;> rfl

/-- A head token in DYN_CL answers what it answers in HUFF, or raises the same error in both. -/
theorem exec_tok_of_dynCl {v : Token} {s : State} (he : s.err = none) (hg : s.group = .empty) (hph : s.phase = .dynCl)
    (hp : s.pc ≠ lastPc) :
    exec (.tok v) s = exec (.tok v) (s.setPhase .huff) ∨ ∃ k, exec (.tok v) s = .next (raise k s) ∧
      exec (.tok v) (s.setPhase .huff) = .next (raise k (s.setPhase .huff)) := by
  have hbody := tokBody_setPhase_huff v hg
  cases hb : tokBody v s with
  | error k =>
    exact .inr ⟨k, exec_tok_raises he (.inl hph) hb,
      exec_tok_raises (s := s.setPhase .huff) he (.inr rfl) (hbody.trans hb)⟩
  | ok u =>
    exact .inl ((exec_tok_completes he (.inl hph) hb hp).trans
      (exec_tok_completes (s := s.setPhase .huff) he (.inr rfl) (hbody.trans hb) hp).symm)

/-- The tokens of a dynamic block, the first of which is executed in DYN_CL. -/
theorem emits_tokens_of_dynCl {i : Instr} (hi : i.command ≠ .tok) (toks : List Token) {tables : Tables} {n : Nat} {s : State}
    (h : Stands .dynCl tables (toks.length + n) s) :
    Emits [i] (toks.map .tok) s (AtBoundary n) (flatBitsIn tables toks) := by
  match toks, h with
  | [], h => exact emits_nil [i] ⟨_, _, .inr (.inr (.inl rfl)), by simpa using h⟩
  | v :: rest, h =>
    have hhuff : Stands .huff tables ((v :: rest).length + n) (s.setPhase .huff) :=
      ⟨h.err, rfl, h.group, h.tables, h.room⟩
    have hrun := emits_tokens hi (v :: rest) hhuff
    have hp : s.pc ≠ lastPc := (h.mono (m := 0 + 1) (by simp; omega)).ne_lastPc
    rcases exec_tok_of_dynCl (v := v) h.err h.group h.phase hp with heq | ⟨k, hraise, hraise'⟩
    · exact (hrun.mono fun t ht => ⟨_, _, .inr (.inr (.inr rfl)), ht⟩).of_exec_eq heq rfl
    · rw [hrun.eq_none_of_raise hraise' fun t ht => ht.err]
      exact endsInError_cons_of_raise hraise _

/-! ### The bytes of a stored block -/

/-- RAW commands append their bytes (42_stored_block.md R121). -/
theorem emits_raws (bytes : List Byte) {tables : Tables} {n : Nat} {s : State}
    (h : Stands .stData tables (bytes.length + n) s) :
    Emits [] (bytes.map .raw) s (Stands .stData tables n) (some (bytes.flatMap fun x => lsbBits x.toNat 8)) := by
  rw [← concatBits_map_some]
  refine emits_map (stand := fun _ : Unit => Stands .stData tables) (move := fun _ _ => ()) (x := ())
    (fun x _ n s hs => ?_) bytes h
  obtain rfl := hs.tables
  exact emits_of_exec (exec_raw_completes x hs.err hs.group hs.phase hs.ne_lastPc) hs.err (hs.phase ▸ hs.next _)

/-- ST_LEN pads and appends the two lengths (42_stored_block.md R120). -/
theorem emits_stLen (len nlen : BitVec 16) {tables : Tables} {n : Nat} {s : State} (h : Stands .stWait tables (n + 1) s) :
    Emits [] [.stLen len nlen] s (Stands .stData tables n)
      (some (padBits s.buf.bitCount ++ lsbBits len.toNat 16 ++ lsbBits nlen.toNat 16)) := by
  obtain rfl := h.tables
  rw [padBits_bitCount]
  exact emits_of_exec (exec_stLen_completes len nlen h.err h.group h.phase h.ne_lastPc) h.err (h.next _)

end Sys2Proof.Machine
end

section
/-!
PROOFS. The three kinds of block against Part A's bits for them (46_stream_assembler.md R188, 30_encoding.md R61 to R66).
-/
namespace Sys2Proof.Machine

/-! ### A stored block -/

theorem headerBits_length (bfinal btype : Nat) : (headerBits bfinal btype).length = 3 := by simp [headerBits]

/-- A stored block emits Part A's bits (42_stored_block.md R122). -/
theorem emits_pseudoStored (bfinal : BitVec 1) (len nlen : BitVec 16) (bytes : List Byte) {n : Nat} {s : State}
    (h : AtBoundary ((pseudoStored bfinal len nlen bytes).length + n) s) :
    Emits [] (pseudoStored bfinal len nlen bytes) s (AtBoundary n)
      (some (headerBits bfinal.toNat 0 ++ padBits (s.buf.bitCount + 3) ++ lsbBits len.toNat 16 ++ lsbBits nlen.toNat 16 ++
        bytes.flatMap fun x => lsbBits x.toNat 8)) := by
  have hlen : (pseudoStored bfinal len nlen bytes).length + n = bytes.length + n + 1 + 1 := by
    simp [pseudoStored]; omega
  rw [hlen] at h
  have hblock := emits_append_some (js := .stLen len nlen :: bytes.map .raw) (post := AtBoundary n)
    (emits_blkHdr bfinal (btype := 0) rfl h) fun t hbuf ht => by
      have hcount : t.buf.bitCount = s.buf.bitCount + 3 := by rw [hbuf, pushBits_bitCount, headerBits_length]
      have hst := emits_stLen len nlen ht
      rw [hcount] at hst
      exact emits_append_some hst fun u _ hu => (emits_raws bytes hu).mono fun v hv => ⟨_, _, .inr (.inl rfl), hv⟩
  simpa [pseudoStored] using hblock

/-! ### A Huffman block -/

/-- The tables of a block after its loads of `LL` and `D`. -/
def HuffmanPayload.tables (h : HuffmanPayload) (cl : Table Entry) (cllen : Table (BitVec 3)) : Tables :=
  { ll := loadAll [] h.literalLengthTable, d := loadAll [] h.distanceTable, cl := cl, cllen := cllen }

theorem symbolBitsIn_tables (h : HuffmanPayload) (cl : Table Entry) (cllen : Table (BitVec 3)) :
    symbolBitsIn (h.tables cl cllen) = symbolBits h := by
  funext sym
  cases sym <;> simp [symbolBitsIn, symbolBits, HuffmanPayload.tables, usable_loadAll]

/-- Part A's bits of a symbol stream: the range checks of the two tables, then the bits under the tables as loaded. -/
theorem symbolStreamBits_eq (h : HuffmanPayload) (cl : Table Entry) (cllen : Table (BitVec 3)) :
    symbolStreamBits h = joinBits (checkBits (inRange h.literalLengthTable 288)) fun _ =>
      joinBits (checkBits (inRange h.distanceTable 32)) fun _ => flatBitsIn (h.tables cl cllen) h.symbolStream := by
  rw [symbolStreamBits, flatBitsIn, symbolBitsIn_tables]
  cases inRange h.literalLengthTable 288 <;> cases inRange h.distanceTable 32 <;> simp [checkBits]

/-- The two tables of a Huffman block are loaded and checked, then the preamble and the tokens run. -/
theorem emits_compileHuffman {i : Instr} (h : HuffmanPayload) (preamble : List Instr) {p : Phase}
    (hp : p = .dynWait ∨ p = .dynCl ∨ p = .huff) {cl : Table Entry} {cllen : Table (BitVec 3)} {n : Nat} {s : State}
    {post : State → Prop} {bits : Option (List Bool)}
    (hs : Stands p { ll := [], d := [], cl := cl, cllen := cllen } ((compileHuffman h preamble).length + n) s)
    (hrest : ∀ t, Stands p (h.tables cl cllen) (preamble.length + (h.symbolStream.length + n)) t →
      Emits [i] (preamble ++ h.symbolStream.map .tok) t post bits) :
    Emits [i] (compileHuffman h preamble) s post
      (joinBits (checkBits (inRange h.literalLengthTable 288)) fun _ =>
        joinBits (checkBits (inRange h.distanceTable 32)) fun _ => bits) := by
  have hlen : (compileHuffman h preamble).length + n =
      h.literalLengthTable.length + (h.distanceTable.length + (preamble.length + (h.symbolStream.length + n))) := by
    simp [compileHuffman, flatMap_pseudoEntry]; omega
  rw [hlen] at hs
  rw [compileHuffman, List.append_assoc, List.append_assoc]
  exact emits_append_nil (emits_loadLL hp h.literalLengthTable hs) fun t ht =>
    emits_append_nil (emits_loadD hp h.distanceTable ht) hrest

/-- The tokens of a fixed block follow its loads in HUFF. -/
theorem emits_compileHuffman_fixed {i : Instr} (hi : i.command ≠ .tok) (h : HuffmanPayload) {n : Nat} {s : State}
    (hs : Stands .huff Tables.invalid ((compileHuffman h []).length + n) s) :
    Emits [i] (compileHuffman h []) s (AtBoundary n) (symbolStreamBits h) := by
  rw [symbolStreamBits_eq h [] []]
  refine emits_compileHuffman h [] (.inr (.inr rfl)) hs fun t ht => ?_
  rw [List.length_nil, Nat.zero_add] at ht
  exact (emits_tokens hi h.symbolStream ht).mono fun u hu => ⟨_, _, .inr (.inr (.inr rfl)), hu⟩

/-! ### A dynamic block -/

/-- The lengths as DYN_HDR gathers them are those Part A transmits. -/
theorem concatBits_lengths (lengths : List (BitVec 5 × BitVec 3)) (syms : List Nat) :
    concatBits (syms.map fun sym => (lengthOf lengths sym).map fun l => lsbBits l.toNat 3) =
      (gatherLens (setAll [] lengths) syms).map fun lens => lens.flatMap fun l => lsbBits l.toNat 3 := by
  induction syms with
  | nil => rfl
  | cons sym syms ih =>
    rw [List.map_cons, concatBits_cons, ih, gatherLens, lookup_setAll]
    cases lengthOf lengths sym <;> cases gatherLens (setAll [] lengths) syms <;> simp

/-- The bits of DYN_HDR and of the CLSYM commands after it, under the tables as loaded (44_dynamic_preamble.md R150, R152). -/
def preambleBitsIn (tables : Tables) (p : DynamicPayload) : Option (List Bool) :=
  joinBits ((gatherLens tables.cllen (clOrder.take (p.hclen.toNat + 4))).map
    (preambleBits p.hlit.toNat p.hdist.toNat p.hclen.toNat)) fun _ => concatBits (p.sequence.map (clsymBits tables.cl))

/-- Part A's bits of a preamble: the range checks of the lengths and the codes, then what DYN_HDR and CLSYM emit under the tables
as loaded. -/
theorem dynamicBits_eq (p : DynamicPayload) (h : HuffmanPayload) :
    dynamicBits p = joinBits (checkBits (p.lengths.all fun x => decide (x.1.toNat ≤ 18))) fun _ =>
      joinBits (checkBits (inRange p.codes 19)) fun _ =>
        preambleBitsIn (h.tables (loadAll [] p.codes) (setAll [] p.lengths)) p := by
  have hclsym : clsymBits (loadAll [] p.codes) = fun x =>
      if x.1.toNat ≤ 18 then (indexed p.codes x.1.toNat).map fun e => clEntryBits e x.1.toNat (x.2.getD 0).toNat
      else none := by
    funext x
    rw [clsymBits, usable_loadAll]
  rw [dynamicBits, concatBits_cons, concatBits_append, concatBits_lengths, preambleBitsIn, HuffmanPayload.tables, hclsym]
  cases (p.lengths.all fun x => decide (x.1.toNat ≤ 18)) <;> cases inRange p.codes 19 <;> simp [checkBits]
  cases gatherLens (setAll [] p.lengths) (clOrder.take (p.hclen.toNat + 4)) <;> simp [preambleBits, Function.comp_def]

/-- DYN_HDR and the CLSYM commands after it. -/
def preambleCommands (p : DynamicPayload) : List Instr :=
  .dynHdr p.hlit p.hdist p.hclen :: p.sequence.map fun x => .clsym x.1 (x.2.getD 0)

theorem emits_preamble (p : DynamicPayload) {tables : Tables} {n : Nat} {s : State}
    (h : Stands .dynWait tables ((preambleCommands p).length + n) s) :
    Emits [] (preambleCommands p) s (Stands .dynCl tables n) (preambleBitsIn tables p) := by
  have hlen : (preambleCommands p).length + n = p.sequence.length + n + 1 := by simp [preambleCommands]; omega
  rw [hlen] at h
  exact emits_append_nil (emits_dynHdr p.hlit p.hdist p.hclen h) fun t ht => emits_clsyms p.sequence ht

/-- A check that emits nothing may be made before or after other bits are emitted. -/
theorem joinBits_checkBits_comm (ok : Bool) (first second : Option (List Bool)) :
    joinBits (checkBits ok) (fun _ => joinBits first fun _ => second) =
      joinBits first fun _ => joinBits (checkBits ok) fun _ => second := by
  cases ok <;> simp [checkBits]

/-- The commands of a dynamic block after its header. -/
def dynamicCommands (p : DynamicPayload) (h : HuffmanPayload) : List Instr :=
  p.lengths.map (fun x => .cllSet x.1 x.2) ++ p.codes.flatMap (pseudoEntry .cl) ++ compileHuffman h (preambleCommands p)

/-- A dynamic block loads its four tables and then emits the preamble and the symbols. -/
theorem emits_dynamicCommands {i : Instr} (hi : i.command ≠ .tok) (p : DynamicPayload) (h : HuffmanPayload) {n : Nat}
    {s : State} (hs : Stands .dynWait Tables.invalid ((dynamicCommands p h).length + n) s) :
    Emits [i] (dynamicCommands p h) s (AtBoundary n) (joinBits (dynamicBits p) fun _ => symbolStreamBits h) := by
  have hlen : (dynamicCommands p h).length + n =
      p.lengths.length + (p.codes.length + ((compileHuffman h (preambleCommands p)).length + n)) := by
    simp [dynamicCommands, flatMap_pseudoEntry]; omega
  rw [hlen] at hs
  rw [symbolStreamBits_eq h (loadAll [] p.codes) (setAll [] p.lengths), dynamicBits_eq p h, joinBits_assoc, joinBits_assoc,
    ← joinBits_checkBits_comm _ (preambleBitsIn _ p), ← joinBits_checkBits_comm _ (preambleBitsIn _ p), dynamicCommands,
    List.append_assoc]
  refine emits_append_nil (emits_cllSets p.lengths hs) fun t ht => emits_append_nil
    (emits_loadCL (.inl rfl) p.codes ht) fun u hu => emits_compileHuffman h _ (.inl rfl) hu fun v hv => ?_
  exact emits_append_nil (emits_preamble p hv) fun w hw => emits_tokens_of_dynCl hi h.symbolStream hw

/-! ### One block -/

theorem ofBool_toNat (b : Bool) : (BitVec.ofBool b).toNat = b.toNat := by cases b <;> rfl

/-- A triple whose failure needs no command after it. -/
theorem Emits.weaken {is after : List Instr} {s : State} {post : State → Prop} {bits : Option (List Bool)}
    (h : Emits [] is s post bits) : Emits after is s post bits := by
  cases bits with
  | none => exact (List.append_nil is ▸ endsInError_append h after : EndsInError (is ++ after) s)
  | some bits => exact h

theorem blockBits_fixedHuffman (k : Nat) (isFinal : Bool) (q : HuffmanPayload) :
    blockBits k ⟨isFinal, .fixedHuffman q⟩ = joinBits (some (headerBits isFinal.toNat 1)) fun _ => symbolStreamBits q := by
  rw [← concatBits_singleton (symbolStreamBits q), ← concatBits_cons]
  rfl

theorem blockBits_dynamicHuffman (k : Nat) (isFinal : Bool) (p : DynamicPayload) (q : HuffmanPayload) :
    blockBits k ⟨isFinal, .dynamicHuffman p q⟩ = joinBits (some (headerBits isFinal.toNat 2)) fun _ =>
      joinBits (dynamicBits p) fun _ => symbolStreamBits q := by
  rw [← concatBits_singleton (symbolStreamBits q), ← concatBits_cons, ← concatBits_cons]
  rfl

/-- One block emits Part A's bits, or ends in an error at the latest at the command after it (46_stream_assembler.md R188). -/
theorem emits_compileBlock {i : Instr} (hi : i.command ≠ .tok) (b : Block) {n : Nat} {s : State}
    (h : AtBoundary ((compileBlock b).length + n) s) :
    Emits [i] (compileBlock b) s (AtBoundary n) (blockBits s.buf.bitCount b) := by
  obtain ⟨isFinal, payload⟩ := b
  cases payload with
  | stored len nlen rawBytes =>
    have hstored := emits_pseudoStored (BitVec.ofBool isFinal) len nlen rawBytes h
    rw [ofBool_toNat] at hstored
    exact hstored.weaken
  | fixedHuffman q =>
    have hhdr := emits_blkHdr (BitVec.ofBool isFinal) (btype := 1) rfl (AtBoundary.of_cons (is := compileHuffman q []) h)
    rw [ofBool_toNat] at hhdr
    rw [blockBits_fixedHuffman]
    exact emits_append_nil (is := [_]) hhdr fun t ht => emits_compileHuffman_fixed hi q ht
  | dynamicHuffman p q =>
    have hhdr := emits_blkHdr (BitVec.ofBool isFinal) (btype := 2) rfl (AtBoundary.of_cons (is := dynamicCommands p q) h)
    rw [ofBool_toNat] at hhdr
    rw [blockBits_dynamicHuffman]
    exact emits_append_nil (is := [_]) hhdr fun t ht => emits_dynamicCommands hi p q ht

end Sys2Proof.Machine
end

section
/-!
PROOFS. A whole Stream from reset: its blocks in order, the envelope, and the result (46_stream_assembler.md R188, R189,
45_zlib_envelope.md R170, R172).
-/
namespace Sys2Proof.Machine

/-! ### The blocks -/

/-- What follows a block starts with BLK_HDR or is FINISH, so not with a token. -/
theorem exists_command_after_block (blocks : List Block) :
    ∃ i is, blocks.flatMap compileBlock ++ [.finish] = i :: is ∧ i.command ≠ .tok := by
  cases blocks with
  | nil => exact ⟨.finish, [], rfl, by decide⟩
  | cons b bs =>
    obtain ⟨isFinal, payload⟩ := b
    cases payload <;> exact ⟨.blkHdr _ _, _, rfl, by simp [Instr.command]⟩

theorem blocksBits_cons (k : Nat) (b : Block) (bs : List Block) :
    blocksBits k (b :: bs) = joinBits (blockBits k b) fun bits => blocksBits (k + bits.length) bs := by
  rw [blocksBits]
  cases blockBits k b with
  | none => rfl
  | some bits => cases h : blocksBits (k + bits.length) bs <;> simp [h]

/-- Bits from position `k` on with the padding after them (30_encoding.md R68). -/
def padded (k : Nat) (bits : List Bool) : List Bool := bits ++ padBits (k + bits.length)

theorem map_padded_joinBits (k : Nat) (first : Option (List Bool)) (rest : List Bool → Option (List Bool)) :
    (joinBits first rest).map (padded k) = joinBits first fun bits => (rest bits).map (padded (k + bits.length)) := by
  cases first with
  | none => rfl
  | some bits => simp [Function.comp_def, padded, Nat.add_assoc]

/-- The blocks and FINISH emit Part A's bits and the padding (46_stream_assembler.md R188). -/
theorem emits_blocks (blocks : List Block) {s : State} (h : AtBoundary ((blocks.flatMap compileBlock).length + 1) s) :
    Emits [] (blocks.flatMap compileBlock ++ [.finish]) s Finished
      ((blocksBits s.buf.bitCount blocks).map (padded s.buf.bitCount)) := by
  induction blocks generalizing s with
  | nil => simpa [blocksBits, padded] using emits_finish h
  | cons b bs ih =>
    obtain ⟨i, is, hnext, hi⟩ := exists_command_after_block bs
    have hpre : [i] <+: (bs.flatMap compileBlock ++ [.finish]) ++ [] := ⟨is, by simp [hnext]⟩
    rw [List.flatMap_cons, List.length_append, Nat.add_assoc] at h
    rw [List.flatMap_cons, List.append_assoc, blocksBits_cons, map_padded_joinBits]
    refine emits_append hpre (emits_compileBlock hi b h) fun bits t hbuf ht => ?_
    rw [← pushBits_bitCount, ← hbuf]
    exact ih ht

/-! ### The envelope and the whole Stream -/

/-- ZHDR emits Part A's header bits (45_zlib_envelope.md R170). -/
theorem fieldBits_envelope (e : ZlibEnvelope) :
    fieldBits (zlibHeaderFields e.cm e.cinfo e.fcheck e.fdict e.flevel) = envelopeBits (some e) := by
  simp [fieldBits, zlibHeaderFields, envelopeBits]

/-- PUT_LSB commands whose widths are legal emit their fields and leave the unit where it stands (40_bitbuffer.md R93). -/
theorem emits_fieldCommands {fields : List (BitVec 6 × BitVec 32)} (hwidth : ∀ f ∈ fields, 1 ≤ f.1.toNat ∧ f.1.toNat ≤ 32)
    {n : Nat} {s : State} (h : AtBoundary (fields.length + n) s) :
    Emits [] (fieldCommands fields) s (AtBoundary n) (some (fieldBits fields)) := by
  obtain ⟨p, tables, hp, hs⟩ := h
  have hd : s.phase ≠ .done := by rw [hs.phase]; rcases hp with rfl | rfl | rfl | rfl <;> decide
  have hfirst : s.pc.toNat + fields.length < 2 ^ 64 := (hs.mono (Nat.le_add_right _ n)).room
  exact ⟨_, execAll_fieldCommands hwidth hs.err hs.group hd hfirst, rfl, p, tables, hp, hs.err, hs.phase, hs.group, hs.tables,
    room_after_commands hs.room⟩

theorem atBoundary_reset {n : Nat} (h : n < 2 ^ 64) : AtBoundary n State.reset :=
  ⟨.idle, Tables.invalid, .inl rfl, rfl, rfl, rfl, rfl, by simpa [State.reset] using h⟩

theorem emits_compileEnvelope (envelope : Option ZlibEnvelope) {n : Nat} {s : State}
    (h : AtBoundary ((compileEnvelope envelope).length + n) s) :
    Emits [] (compileEnvelope envelope) s (AtBoundary n) (some (envelopeBits envelope)) := by
  cases envelope with
  | none => exact emits_nil [] (by simpa [compileEnvelope] using h)
  | some e =>
    rw [← fieldBits_envelope]
    exact emits_fieldCommands (zlibHeaderFields_width e.cm e.cinfo e.fcheck e.fdict e.flevel) h

theorem streamBits_eq (stream : Stream) :
    streamBits stream = (blocksBits (envelopeBits stream.envelope).length stream.blocks).map
      (envelopeBits stream.envelope ++ ·) := by
  rw [streamBits]
  cases blocksBits (envelopeBits stream.envelope).length stream.blocks <;> rfl

/-- A Stream's commands from reset emit its bits and the padding (46_stream_assembler.md R188). -/
theorem emits_compile {stream : Stream} (h : (compile stream).length < 2 ^ 64) :
    Emits [] (compile stream) State.reset Finished ((streamBits stream).map (padded 0)) := by
  have hlen : (compile stream).length =
      (compileEnvelope stream.envelope).length + ((stream.blocks.flatMap compileBlock).length + 1) := by
    rw [compile, List.length_append, List.length_append, List.length_singleton, Nat.add_assoc]
  have hbits : (streamBits stream).map (padded 0) = joinBits (some (envelopeBits stream.envelope)) fun bits =>
      (blocksBits bits.length stream.blocks).map (padded bits.length) := by
    have hcomm := map_padded_joinBits 0 (some (envelopeBits stream.envelope)) fun bits => blocksBits bits.length stream.blocks
    simpa only [Nat.zero_add, joinBits_some, ← streamBits_eq] using hcomm
  rw [hlen] at h
  rw [hbits, compile, List.append_assoc]
  refine emits_append List.nil_prefix (emits_compileEnvelope stream.envelope (atBoundary_reset h)) fun bits t hbuf ht => ?_
  have hcount : t.buf.bitCount = bits.length := by
    rw [hbuf, pushBits_bitCount, show State.reset.buf.bitCount = 0 from rfl, Nat.zero_add]
  rw [← hcount]
  exact emits_blocks stream.blocks ht

/-! ### The result -/

/-- The result of a Stream whose commands run from reset is read off the state they end in (46_stream_assembler.md R189). -/
theorem encodeStream_of_execAll {stream : Stream} {t : State} (h : execAll (compile stream) State.reset = .next t) :
    encodeStream stream = some (finalResult stream.envelope t.result) := by
  have hrun := runSteps_of_execAll h
  have hoffer : offer State.reset ((compile stream).map encode) = State.reset.setInput ((compile stream).map encode) := rfl
  rw [← List.length_map (f := encode), ← hoffer] at hrun
  rw [encodeStream, hrun]
  rfl

theorem encodeStream_of_endsInError {stream : Stream} (h : EndsInError (compile stream) State.reset) :
    ∃ k, encodeStream stream = some (.error k) := by
  obtain ⟨t, hrun, herr⟩ := h
  obtain ⟨k, hk⟩ := Option.ne_none_iff_exists'.mp herr
  exact ⟨k, by rw [encodeStream_of_execAll hrun, (result_error_iff t k).mpr hk, finalResult]⟩

/-- The bytes after padded bits are the packed bits (30_encoding.md R68). -/
theorem out_of_padded {b : BitBuffer} {bits : List Bool} (h : b = State.reset.buf.pushBits (padded 0 bits)) :
    b.out = packBytes bits := by
  have hinv : State.reset.buf.Inv := reset_inv.buf
  have hbits : b.bits = bytesBits (packBytes bits) := by
    rw [h, pushBits_bits hinv, bytesBits_packBytes, padded, Nat.zero_add]
    rfl
  rw [eq_aligned_of_bits (h ▸ pushed_inv (pushed_pushBits _ _) hinv) hbits]

end Sys2Proof.Machine
end

section
/-!
PROOFS. BLK_HDR: its two fields as one, the phase it opens, the error of the reserved type, and what a step does to an entry of a
table (46_stream_assembler.md R180 to R182); and the phase table (R183).
-/
namespace Sys2Proof.Machine

/-! ### The header -/

theorem openedPhase_of_ne {btype : BitVec 2} (h : btype ≠ 3#2) :
    openedPhase btype = some (if btype = 0#2 then .stWait else if btype = 1#2 then .huff else .dynWait) := by
  have hall : ∀ b : BitVec 2, b ≠ 3#2 →
      openedPhase b = some (if b = 0#2 then .stWait else if b = 1#2 then .huff else .dynWait) := by decide
  exact hall btype h

/-- The reserved block type raises MalformedField (46_stream_assembler.md R181). -/
theorem exec_blkHdr_reserved (bfinal : BitVec 1) {s : State} (he : s.err = none) (hg : s.group = .empty)
    (hph : s.phase = .idle ∨ s.phase = .stData ∨ s.phase = .dynCl ∨ s.phase = .huff) :
    exec (.blkHdr bfinal 3) s = .next (raise .malformedField s) :=
  runCommand_own he (commonFault_blkHdr hg hph)

/-- The two fields of a header are one of three bits (30_encoding.md R61). -/
theorem headerBits_eq (bfinal : BitVec 1) (btype : Nat) :
    headerBits bfinal.toNat btype = lsbBits (bfinal.toNat + 2 * btype) 3 := by
  have hlt : bfinal.toNat < 2 := bfinal.isLt
  have hjoin := lsbBits_join btype bfinal.toNat 1 2
  rw [Nat.pow_one, Nat.mod_eq_of_lt hlt, Nat.mul_comm, Nat.add_comm] at hjoin
  exact hjoin.symm

/-! ### An entry after a step -/

/-- A BLK_HDR that completes leaves no entry (46_stream_assembler.md R182). -/
theorem exec_blkHdr_tables {bfinal : BitVec 1} {btype : BitVec 2} {s t : State} (he : s.err = none)
    (h : exec (.blkHdr bfinal btype) s = .next t) (ht : t.err = none) : t.tables = Tables.invalid := by
  rcases exec_next_writes h with ⟨hne, -⟩ | ⟨-, k, rfl⟩ | ⟨-, -, -, u, hw, rfl⟩
  · exact absurd he hne
  · simp at ht
  · cases hw
    rfl

/-- A store that changes what a symbol reads is a store of that symbol, which then reads what was stored. -/
theorem lookup_store_changed {α : Type} {t : Table α} {sym sym' : Nat} {x : α}
    (h : (t.store sym x).lookup sym' ≠ t.lookup sym') : sym = sym' ∧ (t.store sym x).lookup sym' = some x := by
  obtain rfl : sym = sym' := by_contra fun hne => h (lookup_store_other t x (Ne.symm hne))
  exact ⟨rfl, lookup_store_same t sym x⟩

theorem nextCommand_of_decode {s : State} {w : Word} {ws : List Word} {i : Instr} (hin : s.input = w :: ws)
    (hd : decode w = .ok i) : s.nextCommand = some i := by
  simp [State.nextCommand, hin, hd]

/-- Everything a step can do to the tables: nothing, or, completing, what its BLK_HDR, load or CLL_SET does. -/
theorem step_tables_cases {s t : State} (h : step s = .next t) :
    t.tables = s.tables ∨ (t.err = none ∧
      ((∃ bfinal btype, s.nextCommand = some (.blkHdr bfinal btype) ∧ t.tables = Tables.invalid) ∨
        (∃ sym code len, s.nextCommand = some (.tblLoadLL sym code len) ∧
          t.tables = { s.tables with ll := loadEntry s.tables.ll sym code len }) ∨
        (∃ sym code len, s.nextCommand = some (.tblLoadD sym code len) ∧
          t.tables = { s.tables with d := loadEntry s.tables.d sym code len }) ∨
        (∃ sym code len, s.nextCommand = some (.tblLoadCL sym code len) ∧
          t.tables = { s.tables with cl := loadEntry s.tables.cl sym code len }) ∨
        (∃ sym len3, s.nextCommand = some (.cllSet sym len3) ∧
          t.tables = { s.tables with cllen := s.tables.cllen.store sym.toNat len3 }))) := by
  rcases step_next_cases h with rfl | ⟨w, ws, hin, ⟨-, rfl⟩ | ⟨-, rfl⟩ | ⟨i, hd, hx⟩⟩
  · exact .inl rfl
  · exact .inl rfl
  · exact .inl rfl
  · rw [nextCommand_of_decode hin hd]
    simpa only [setInput_tables, Option.some.injEq] using exec_tables_cases hx

/-! ### The phase table (46_stream_assembler.md R183) -/

/-- A completing command that finds phase `p` and leaves `p'` goes by its row of the phase table, or leaves the phase if it has
none. -/
def GoesByPhaseTable (i : Instr) (p p' : Phase) : Prop :=
  match phaseRow i with
  | some (froms, dest) => p ∈ froms ∧ p' = dest
  | none => p' = p

theorem phaseRow_blkHdr (bfinal : BitVec 1) {btype : BitVec 2} {p : Phase} (h : openedPhase btype = some p) :
    phaseRow (.blkHdr bfinal btype) = some ([.idle, .stData, .dynCl, .huff], p) := by
  unfold openedPhase at h
  unfold phaseRow
  repeat' split at h
  all_goals simp_all

/-- The own writes of a command whose common checks passed go by the phase table. -/
theorem ownWrites_phaseTable {i : Instr} {s u : State} (hi : s.Inv) (hc : commonFault i.command s = none)
    (hw : OwnWrites s i u) : GoesByPhaseTable i s.phase u.phase := by
  obtain ⟨-, -, hl⟩ := commonFault_none_iff.mp hc
  cases hw <;> simp only [setBuf_phase, setTables_phase, setPhase_phase, setGroup_phase]
  case putLsb | putMsb | align | tblLoadLL | tblLoadD | tblLoadCL | cllSet | raw | clsym => exact rfl
  case blkHdr hp =>
    rw [GoesByPhaseTable, phaseRow_blkHdr _ hp]
    exact ⟨by simpa [legal, Instr.command] using hl, rfl⟩
  case finish | stLen | dynHdr | tokLiteral | tokLengthCode =>
    exact ⟨by simpa [legal, Instr.command] using hl, rfl⟩
  case tokLengthExtra hg | tokDistanceCode hg | tokCommit hg _ _ _ =>
    have hph : s.phase = .huff := hi.group (by simp [hg])
    exact ⟨by simp [hph], hph⟩

theorem phaseRow_dest_ne_idle {i : Instr} {froms : List Phase} {dest : Phase} (h : phaseRow i = some (froms, dest)) :
    dest ≠ .idle := by
  rintro rfl
  unfold phaseRow at h
  repeat' split at h
  all_goals simp at h

/-- IDLE is not entered again (R183). -/
theorem GoesByPhaseTable.ne_idle {i : Instr} {p p' : Phase} (h : GoesByPhaseTable i p p') (hp : p ≠ .idle) : p' ≠ .idle := by
  unfold GoesByPhaseTable at h
  split at h
  · next froms dest hrow => exact h.2 ▸ phaseRow_dest_ne_idle hrow
  · exact h ▸ hp

/-- Every way a command can answer a next state, as far as the phase and the counter go: an error and both as before, or
completed by the phase table, with the counter advanced, which DONE rules out. -/
theorem exec_phase_cases {i : Instr} {s t : State} (hi : s.Inv) (h : exec i s = .next t) :
    (t.err ≠ none ∧ t.phase = s.phase) ∨
    (t.err = none ∧ s.phase ≠ .done ∧ GoesByPhaseTable i s.phase t.phase ∧ t.pc = s.pc + 1) := by
  rcases exec_next_writes h with ⟨hne, rfl⟩ | ⟨-, k, rfl⟩ | ⟨he, hc, -, u, hw, rfl⟩
  · exact .inl ⟨hne, rfl⟩
  · exact .inl ⟨by simp, rfl⟩
  · obtain ⟨-, herr, -⟩ := ownWrites_sequencing hw
    obtain ⟨hd, -⟩ := commonFault_none_iff.mp hc
    exact .inr ⟨herr.trans he, hd, by simpa using ownWrites_phaseTable hi hc hw, rfl⟩

end Sys2Proof.Machine
end

section
/-!
PROOFS. The obligations of the stream assembler, settled.
-/
namespace Sys2Proof.Proofs

open Sys2Proof Sys2Proof.Machine

/-- Settles O56: each part of a Stream emits Part A's bits for it, or ends in an error at the latest at the command after it;
the bits of all parts, padded by FINISH, are those of the packed bytes. -/
theorem encoderProducesTheFormat : Obligations.EncoderProducesTheFormat := by
  intro stream h
  have hrun := emits_compile h
  rw [streamBytes]
  cases hbits : streamBits stream with
  | none =>
    rw [hbits] at hrun
    exact encodeStream_of_endsInError (List.append_nil (compile stream) ▸ hrun)
  | some bits =>
    rw [hbits] at hrun
    obtain ⟨t, hexec, hbuf, herr, hdone⟩ := hrun
    rw [Option.map_some, encodeStream_of_execAll hexec, (result_ok_iff t).mpr ⟨hdone, herr⟩, finalResult, out_of_padded hbuf]

/-- Settles O33: the reserved type has no phase to open, and the others complete; the two fields pushed in order are one. -/
theorem blockHeaderResult : Obligations.BlockHeaderResult := by
  intro bfinal btype s he hg hph
  refine ⟨fun hb hp => exec_blkHdr_completes bfinal (openedPhase_of_ne hb) he hg hph hp, ?_, ?_⟩
  · rintro rfl
    exact exec_blkHdr_reserved bfinal he hg hph
  · rw [putLsb_eq_pushBits, putLsb_eq_pushBits, putLsb_eq_pushBits, ← pushBits_append, ← headerBits_eq, headerBits]

/-- Settles O34: a step writes the tables by one of five commands, of which only BLK_HDR and the symbol's own load change what
the symbol reads. -/
theorem blockHeaderInvalidatesTables : Obligations.BlockHeaderInvalidatesTables := by
  constructor
  · intro bfinal btype s t he h ht sym
    rw [exec_blkHdr_tables he h ht]
    exact ⟨rfl, rfl, rfl, rfl, rfl, rfl, rfl⟩
  · intro s t sym h
    rcases step_tables_cases h with ht | ⟨he, ⟨bfinal, btype, hi, ht⟩ | ⟨x, code, len, hi, ht⟩ | ⟨x, code, len, hi, ht⟩ |
      ⟨x, code, len, hi, ht⟩ | ⟨x, len3, hi, ht⟩⟩ <;> rw [ht]
    · simp
    · exact ⟨fun _ => ⟨he, .inl ⟨bfinal, btype, hi, rfl⟩⟩, fun _ => ⟨he, .inl ⟨bfinal, btype, hi, rfl⟩⟩,
        fun _ => ⟨he, .inl ⟨bfinal, btype, hi, rfl⟩⟩, fun _ => ⟨he, .inl ⟨bfinal, btype, hi, rfl⟩⟩⟩
    · refine ⟨fun hne => ⟨he, .inr ⟨x, code, len, hi, lookup_store_changed hne⟩⟩, ?_, ?_, ?_⟩ <;> exact absurd rfl
    · refine ⟨?_, fun hne => ⟨he, .inr ⟨x, code, len, hi, lookup_store_changed hne⟩⟩, ?_, ?_⟩ <;> exact absurd rfl
    · refine ⟨?_, ?_, fun hne => ⟨he, .inr ⟨x, code, len, hi, lookup_store_changed hne⟩⟩, ?_⟩ <;> exact absurd rfl
    · refine ⟨?_, ?_, ?_, fun hne => ⟨he, .inr ⟨x, len3, hi, lookup_store_changed hne⟩⟩⟩ <;> exact absurd rfl

/-- Settles O48: a completing command goes by its row, no row leads to IDLE, and an error or a finished stream leaves the
phase. -/
theorem phaseChangesByTheTable : Obligations.PhaseChangesByTheTable := by
  intro i s t hi h
  rcases exec_phase_cases hi h with ⟨he, hph⟩ | ⟨he, hd, hrow, hpc⟩
  · exact ⟨fun _ ht => absurd ht he, fun _ ht => absurd ht he, fun _ => hph, fun hs => hph ▸ hs, fun hs => hph ▸ hs⟩
  · exact ⟨fun _ _ => hrow, fun _ _ => hpc, fun hne => absurd he hne, hrow.ne_idle, fun hs => absurd hs hd⟩

end Sys2Proof.Proofs
end

section
/-!
PROOFS. The step on one word and the errors in their order: a recorded error discards, an undecodable word, a finished stream and
a common check raise, and raising writes `err` and `err_pc` alone (60_exceptions.md R201 to R207, R214).
-/
namespace Sys2Proof.Machine

/-! ### The word of a step -/

/-- With no word waiting the unit is idle (60_exceptions.md R214). -/
theorem step_of_input_nil {s : State} (h : s.input = []) : step s = .next s := by
  simp [step, fetch, h]

/-- A step is the step on the next word, in the state that has consumed it (60_exceptions.md R201, 20_memory.md R53). -/
theorem step_of_input_cons {s : State} {w : Word} {ws : List Word} (h : s.input = w :: ws) :
    step s = stepWord w (s.setInput ws) := by
  simp [step, fetch, h]

/-- A word that decodes runs its command, also where an error discards both. -/
theorem stepWord_of_decode_ok {w : Word} {i : Instr} (h : decode w = .ok i) (s : State) : stepWord w s = exec i s := by
  rw [← decode_eq_ok_iff.mp h, stepWord_encode]

/-- With an error recorded a word is discarded undecoded (60_exceptions.md R202). -/
theorem stepWord_of_err {s : State} (h : s.err ≠ none) (w : Word) : stepWord w s = .next s := by
  simp [stepWord, Option.isSome_iff_ne_none, h]

/-! ### The common checks -/

/-- With an error recorded a command is discarded (60_exceptions.md R202). -/
theorem exec_of_err {s : State} (h : s.err ≠ none) (i : Instr) : exec i s = .next s := by
  obtain ⟨body, hb, -⟩ := exec_eq_runCommand i s
  rw [hb, runCommand_discard h]

/-- A command whose common checks fail raises the first one's kind, whatever its operands are (60_exceptions.md R201 steps 3 to
5). -/
theorem exec_of_commonFault {i : Instr} {s : State} {k : ErrKind} (he : s.err = none)
    (hk : commonFault i.command s = some k) : exec i s = .next (raise k s) := by
  obtain ⟨body, hb, -⟩ := exec_eq_runCommand i s
  rw [hb, runCommand_common he hk]

/-- After FINISH no other check is made (60_exceptions.md R204). -/
theorem commonFault_of_done {s : State} (h : s.phase = .done) (c : Command) : commonFault c s = some .postFinishWrite :=
  if_pos h

/-- Between the tokens of a group, and in a phase that is not legal for it, a command is malformed (60_exceptions.md R205). -/
theorem commonFault_of_pending_or_illegal {c : Command} {s : State} (hd : s.phase ≠ .done)
    (h : (s.group ≠ .empty ∧ c ≠ .tok) ∨ legal c s.phase = false) : commonFault c s = some .malformedField := by
  rw [commonFault, if_neg hd]
  split
  · rfl
  · next hpending => rw [if_pos (h.resolve_left hpending)]

/-- The cells `MF` of the printed matrix are those that are not legal, outside the column DONE
(46_stream_assembler.md R184). -/
theorem mem_malformedIn_iff {c : Command} {p : Phase} : p ∈ malformedIn c ↔ p ≠ .done ∧ legal c p = false := by
  cases c <;> cases p <;> decide

/-! ### What an error changes -/

/-- A command that leaves an error recorded where there was none has raised it. -/
theorem exec_raises_of_err {i : Instr} {s t : State} (he : s.err = none) (h : exec i s = .next t) (ht : t.err ≠ none) :
    ∃ k, t = raise k s := by
  rcases exec_next_cases h with ⟨hne, -⟩ | ⟨-, hraise⟩ | ⟨-, -, -, hnone, -⟩
  · exact absurd he hne
  · exact hraise
  · exact absurd hnone ht

/-- A step that leaves an error recorded where there was none has raised it, on the state that has consumed the word. -/
theorem step_raises_of_err {s t : State} (he : s.err = none) (h : step s = .next t) (ht : t.err ≠ none) :
    ∃ k, t = raise k (s.setInput s.input.tail) := by
  rcases step_next_cases h with rfl | ⟨w, ws, hin, ⟨hne, -⟩ | ⟨-, hraise⟩ | ⟨i, -, hx⟩⟩
  · exact absurd he ht
  · exact absurd he hne
  · exact ⟨.illegalCommand, by rw [hin, List.tail_cons, hraise]⟩
  · rw [hin, List.tail_cons]
    exact exec_raises_of_err he hx ht

end Sys2Proof.Machine
end

section
/-!
PROOFS. Several instances (60_exceptions.md R215): a step and a reset each modify one entry of the list.
-/
namespace Sys2Proof.Machine

/-- The state after a step, or `s` itself where its step answers no next state. -/
def nextOrSelf (s : State) : State :=
  match step s with
  | .next t => t
  | .fault _ => s
  | .refused _ => s

theorem nextOrSelf_of_next {s t : State} (h : step s = .next t) : nextOrSelf s = t := by
  simp [nextOrSelf, h]

theorem nextOrSelf_of_stopped {s : State} (h : ∀ t, step s ≠ .next t) : nextOrSelf s = s := by
  unfold nextOrSelf
  split
  · next t ht => exact absurd ht (h t)
  · rfl
  · rfl

/-- A step of instance `k` modifies entry `k` by the unit's own step. -/
theorem stepInstance_eq_modify (k : Nat) (xs : List State) : stepInstance k xs = xs.modify k nextOrSelf := by
  rw [List.modify_eq_set_getElem?, stepInstance]
  cases hk : xs[k]? with
  | none => rfl
  | some s =>
    have hself : xs.set k s = xs := by
      obtain ⟨hlt, rfl⟩ := List.getElem?_eq_some_iff.mp hk
      exact List.set_getElem_self hlt
    cases hs : step s <;> simp [nextOrSelf, hs, hself]

end Sys2Proof.Machine
end

section
/-!
PROOFS. The obligations of the errors and of several instances, settled.
-/
namespace Sys2Proof.Proofs

open Sys2Proof Sys2Proof.Machine

/-- Settles O11: both causes are the common checks' own, which come before the command's part. -/
theorem wrongPhaseOrPendingGroupIsMalformed : Obligations.WrongPhaseOrPendingGroupIsMalformed := by
  intro i s he hd h
  have hcheck : (s.group ≠ .empty ∧ i.command ≠ .tok) ∨ legal i.command s.phase = false :=
    h.imp_right fun ⟨_, hmem⟩ => (mem_malformedIn_iff.mp hmem).2
  exact exec_of_commonFault he (commonFault_of_pending_or_illegal hd hcheck)

/-- Settles O12: an error that was not there before has been raised, and `raise` writes the two fields. -/
theorem errorChangesOnlyErrAndErrPc : Obligations.ErrorChangesOnlyErrAndErrPc := by
  constructor
  · intro i s t he h ht
    obtain ⟨k, rfl⟩ := exec_raises_of_err he h ht
    rfl
  · intro s t he h ht
    obtain ⟨k, rfl⟩ := step_raises_of_err he h ht
    rfl

/-- Settles O6: the next word is consumed, and a word that decodes runs its command. -/
theorem stepRunsDecodedCommand : Obligations.StepRunsDecodedCommand := by
  intro s w ws i hin hd
  exact (step_of_input_cons hin).trans (stepWord_of_decode_ok hd _)

/-- Settles O7: the next word is consumed, and a word that does not decode raises. -/
theorem stepOnIllegalWord : Obligations.StepOnIllegalWord := by
  intro s w ws e hin hd he
  exact (step_of_input_cons hin).trans (stepWord_of_decode_error (s := s.setInput ws) hd he)

/-- Settles O8: an error is looked at before the word is decoded and before a command's checks. -/
theorem errorIsSticky : Obligations.ErrorIsSticky := by
  intro s he
  exact ⟨fun w ws hin => (step_of_input_cons hin).trans (stepWord_of_err (s := s.setInput ws) he w), exec_of_err he⟩

/-- Settles O9. -/
theorem idleUnitKeepsState : Obligations.IdleUnitKeepsState := fun _ => step_of_input_nil

/-- Settles O10: DONE is the first common check, and an error recorded is the result. -/
theorem finishedUnitRejectsEveryCommand : Obligations.FinishedUnitRejectsEveryCommand := by
  intro i s he hd
  exact ⟨exec_of_commonFault he (commonFault_of_done hd i.command), (result_error_iff _ _).mpr rfl⟩

/-- Settles O58: both events modify one entry by a function of that entry alone. -/
theorem instancesAreIndependent : Obligations.InstancesAreIndependent := by
  intro k xs ys
  simp only [stepInstance_eq_modify, resetInstance, List.length_modify, List.getElem?_modify_eq, true_and]
  refine ⟨fun s hs => ?_, fun j hj => ?_, fun hxy => ?_⟩
  · rw [hs]
    exact ⟨fun t ht => congrArg some (nextOrSelf_of_next ht), fun hstop => congrArg some (nextOrSelf_of_stopped hstop), rfl⟩
  · exact ⟨List.getElem?_modify_ne _ _ hj.symm, List.getElem?_modify_ne _ _ hj.symm⟩
  · rw [hxy]
    exact ⟨rfl, rfl⟩

end Sys2Proof.Proofs
end

section
/-!
PROOFS. The step is total short of the counter's end (70_reset_and_hazards.md R239): a command that is not discarded raises an
error or completes.
-/
namespace Sys2Proof.Machine

/-- Short of the counter's end every command answers a next state: it neither faults nor is refused. -/
theorem exec_exists_next (i : Instr) {s : State} (hp : s.pc ≠ lastPc) : ∃ t, exec i s = .next t := by
  cases h : exec i s with
  | next t => exact ⟨t, rfl⟩
  | fault f => exact absurd h (exec_ne_fault i s f)
  | refused r =>
    obtain ⟨-, hlast, -⟩ := exec_refused_cases h
    exact absurd hlast hp

/-- A command that is not discarded raises an error or completes with the counter advanced. -/
theorem exec_raises_or_completes (i : Instr) {s : State} (he : s.err = none) (hp : s.pc ≠ lastPc) :
    (∃ k, exec i s = .next (raise k s)) ∨ ∃ t, exec i s = .next t ∧ t.err = none ∧ t.pc = s.pc + 1 := by
  obtain ⟨t, ht⟩ := exec_exists_next i hp
  rcases exec_next_cases ht with ⟨hne, -⟩ | ⟨-, k, rfl⟩ | ⟨-, -, -, hnone, -, hpc, -⟩
  · exact absurd he hne
  · exact .inl ⟨k, ht⟩
  · exact .inr ⟨t, ht, hnone, hpc⟩

/-- A word that is not discarded raises an error, its command's or IllegalCommand, or its command completes
(60_exceptions.md R201). -/
theorem stepWord_raises_or_completes (w : Word) {s : State} (he : s.err = none) (hp : s.pc ≠ lastPc) :
    (∃ k, stepWord w s = .next (raise k s)) ∨ ∃ t, stepWord w s = .next t ∧ t.err = none ∧ t.pc = s.pc + 1 := by
  cases hd : decode w with
  | error e => exact .inl ⟨.illegalCommand, stepWord_of_decode_error hd he⟩
  | ok i =>
    rw [stepWord_of_decode_ok hd]
    exact exec_raises_or_completes i he hp

end Sys2Proof.Machine
end

section
/-!
PROOFS. The most bits one command appends (70_reset_and_hazards.md R240): a bound for every field of a command's bits, and the
bytes that a completing command adds.
-/
namespace Sys2Proof.Machine

/-! ### The widths of the fields -/

/-- A bound of a list's numbers bounds a read with the default 0. -/
theorem getElem?_getD_zero_le {l : List Nat} {m : Nat} (h : ∀ x ∈ l, x ≤ m) (k : Nat) : (l[k]?).getD 0 ≤ m := by
  cases hk : l[k]? with
  | none => exact Nat.zero_le m
  | some x => exact h x (List.mem_of_getElem? hk)

/-- The longest length extra has 5 bits (10_state.md R28), also outside the printed range (log entry 7). -/
theorem lext_le (lc : Nat) : lext lc ≤ 5 := by
  unfold lext
  split
  · exact Nat.zero_le 5
  · exact getElem?_getD_zero_le (by decide) _

/-- The longest distance extra has 13 bits (10_state.md R29). -/
theorem dext_le (dc : Nat) : dext dc ≤ 13 := getElem?_getD_zero_le (by decide) dc

/-- The longest extra of a code-length symbol has 7 bits (10_state.md R31). -/
theorem clx_le (sym : Nat) : clx sym ≤ 7 := by
  unfold clx
  split_ifs <;> decide

theorem padBits_length_le (k : Nat) : (padBits k).length ≤ 7 := by
  rw [padBits, List.length_replicate]
  omega

/-- A code that passes `check_code` has at most 32 bits (41_huffman_table.md R113). -/
theorem lookupBits_length_le {t : Table Entry} {sym : Nat} {e : Entry} (h : checkCode t sym = .ok e) :
    (lookupBits t sym).length ≤ 32 := by
  cases hl : t.lookup sym with
  | none => simp [checkCode_of_absent hl] at h
  | some f =>
    by_cases hw : f.len.toNat = 0 ∨ 32 < f.len.toNat
    · simp [checkCode_of_badWidth hl hw] at h
    · have hwidth : (lookupBits t sym).length = f.len.toNat := by simp [lookupBits, hl, codeBits]
      omega

/-- There is one length for each symbol asked for (44_dynamic_preamble.md R150). -/
theorem gatherLens_length {t : Table (BitVec 3)} {syms : List Nat} {lens : List (BitVec 3)}
    (h : gatherLens t syms = some lens) : lens.length = syms.length := by
  induction syms generalizing lens with
  | nil =>
    obtain rfl : [] = lens := Option.some.inj h
    rfl
  | cons sym syms ih =>
    unfold gatherLens at h
    split at h
    · next l ls _ hls =>
      obtain rfl := Option.some.inj h
      rw [List.length_cons, List.length_cons, ih hls]
    · cases h

theorem preambleBits_length (hlit hdist hclen : Nat) (lens : List (BitVec 3)) :
    (preambleBits hlit hdist hclen lens).length = 14 + 3 * lens.length := by
  simp [preambleBits, List.length_flatMap]
  omega

/-! ### The bits of a command -/

/-- A command whose own checks passed emits at most the bits that R240 gives it. -/
theorem ownWrites_commandBits_length_le {i : Instr} {s u : State} (h : OwnWrites s i u) :
    (commandBits i s).length ≤ maxBits i.command := by
  cases h <;> simp only [commandBits, Instr.command, maxBits, List.length_append, lsbBits_length, msbBits_length,
    headerBits_length, preambleBits_length, List.length_nil, le_refl]
  case putLsb hn | putMsb hn => exact (badWidth_eq_false_iff.mp hn).2
  case align | finish => exact padBits_length_le _
  case stLen =>
    have hpad := padBits_length_le s.buf.nbits.toNat
    omega
  case dynHdr hclen lens hl =>
    have hlens : lens.length = hclen.toNat + 4 := (gatherLens_length hl).trans (length_take_clOrder hclen)
    rw [hl, Option.getD_some]
    omega
  case clsym sym extra e hs he =>
    have hcode := lookupBits_length_le he
    have hextra := clx_le sym.toNat
    omega
  case tokLiteral v e hg hv he =>
    have hcode := lookupBits_length_le he
    simp only [tokBits, hg, if_pos hv]
    omega
  case tokLengthCode hg hlo _ => simp [tokBits, hg, Nat.not_le.mpr hlo]
  case tokLengthExtra hg | tokDistanceCode hg => simp [tokBits, hg]
  case tokCommit v l e d lcode dcode hg hl hd hc =>
    have hlcode := lookupBits_length_le hl
    have hlext := lext_le l.toNat
    have hdcode := lookupBits_length_le hc
    have hdext := dext_le d.toNat
    simp only [tokBits, hg, List.length_append, lsbBits_length]
    omega

theorem maxBits_le (c : Command) : maxBits c ≤ 82 := by
  cases c <;> decide

/-- A command that completes emits at most the bits that R240 gives it. -/
theorem exec_commandBits_length_le {i : Instr} {s t : State} (h : exec i s = .next t) (ht : t.err = none) :
    (commandBits i s).length ≤ maxBits i.command := by
  rcases exec_next_writes h with ⟨he, rfl⟩ | ⟨-, k, rfl⟩ | ⟨-, -, -, u, hw, rfl⟩
  · exact absurd ht he
  · simp at ht
  · exact ownWrites_commandBits_length_le hw

/-- A command that completes adds the whole bytes that its bits fill together with the pending ones. -/
theorem exec_out_length {i : Instr} {s t : State} (h : exec i s = .next t) (ht : t.err = none) :
    t.buf.out.length = s.buf.out.length + (s.buf.nbits.toNat + (commandBits i s).length) / 8 := by
  rw [exec_buf_of_noError h ht, pushBits_out_length]

/-! ### Eleven bytes -/

/-- Seven pending bits before the commit of the longest group: a length code with 5 extra bits and a distance code with 13, both
with codes of 32 bits. -/
def beforeLongestCommit : State :=
  { State.reset with
    buf := { out := [], acc := 0, nbits := 7 }
    phase := .huff
    group := .lcLeDc 284 0 29
    tables := { Tables.invalid with ll := [(284, { len := 32, code := 0 })], d := [(29, { len := 32, code := 0 })] } }

theorem beforeLongestCommit_inv : beforeLongestCommit.Inv where
  buf := by unfold BitBuffer.Inv; decide
  done := by decide
  group := fun _ => rfl
  lengthCode := by
    intro l h
    obtain rfl : (284 : Token) = l := Option.some.inj h
    decide
  tables := by unfold Tables.Inv Table.Inv; decide
  noTables := by decide
  errPc := rfl

/-- The commit appends 32, 5, 32 and 13 bits, the 82 of R240. -/
theorem commandBits_longestCommit_length : (commandBits (.tok 0) beforeLongestCommit).length = 82 := by decide

/-- The commit completes and fills 11 bytes, since 7 and 82 bits are 89. -/
theorem exec_longestCommit : ∃ t, exec (.tok 0) beforeLongestCommit = .next t ∧ t.buf.out.length = 11 := by
  obtain ⟨t, ht, herr⟩ : ∃ t, exec (.tok 0) beforeLongestCommit = .next t ∧ t.err = none := ⟨_, rfl, rfl⟩
  refine ⟨t, ht, ?_⟩
  rw [exec_out_length ht herr, commandBits_longestCommit_length]
  rfl

end Sys2Proof.Machine
end

section
/-!
PROOFS. The obligations of the reset and the hazards, settled.
-/
namespace Sys2Proof.Proofs

open Sys2Proof Sys2Proof.Machine

/-- Settles O13: a recorded error discards the word, and any other word raises an error or completes its command. -/
theorem everyStepIsOneOfThree : Obligations.EveryStepIsOneOfThree := by
  intro s w ws hin hp
  rw [step_of_input_cons hin]
  by_cases he : s.err = none
  · rcases stepWord_raises_or_completes w (s := s.setInput ws) he hp with ⟨k, hk⟩ | ⟨t, ht, hnone, hpc⟩
    · exact ⟨_, hk, fun hne => absurd he hne, fun _ => .inl ⟨k, rfl⟩⟩
    · exact ⟨t, ht, fun hne => absurd he hne, fun _ => .inr ⟨hnone, hpc⟩⟩
  · exact ⟨_, stepWord_of_err (s := s.setInput ws) he w, fun _ => rfl, fun hnone => absurd hnone he⟩

/-- Settles O50: a command that completes pushes exactly its bits, at most 82, and at most 7 were pending. -/
theorem mostBitsOneCommandAppends : Obligations.MostBitsOneCommandAppends := by
  intro i s t _ h ht
  have hbits := exec_commandBits_length_le h ht
  refine ⟨?_, hbits, ?_⟩
  · rw [exec_buf_of_noError h ht, pushBits_bitCount]
  · have hmax := maxBits_le i.command
    have hpending : s.buf.nbits.toNat < 8 := s.buf.nbits.isLt
    rw [exec_out_length h ht]
    omega

/-- Refutes O51: seven pending bits and the 82 bits of the longest commit fill 11 bytes, from an empty `OUT`. -/
theorem not_oneCommandAppendsAtMostTenBytes : ¬ Obligations.OneCommandAppendsAtMostTenBytes := by
  intro h
  obtain ⟨t, ht, hout⟩ := exec_longestCommit
  have hten : t.buf.out.length ≤ 0 + 10 := h (.tok 0) beforeLongestCommit t beforeLongestCommit_inv ht
  omega

end Sys2Proof.Proofs
end
